-- ==== Sys2Proof/Word.lean ====
section
/-! DEFINITION. The value types of the block: bytes, 32-bit words, and the three fixed widths the source settles (spec/00_scope.md R8). -/

namespace Sys2Proof

/-- One byte: an SPI byte, a payload byte, a controller register (R70). -/
abbrev Byte := BitVec 8

/-- One 32-bit word: a ring word, a sample word, a sink word (R70). -/
abbrev Word := BitVec 32

/-- `WORD_BITS` of R8. -/
abbrev wordBits : Nat := 32

/-- `MIN_FRAME_BITS` of R8: bits of the shortest frame (R84). -/
abbrev minFrameBits : Nat := 40

/-- `MAX_PAYLOAD` of R8: the largest accepted payload length in bytes (R83). -/
abbrev maxPayload : Nat := 32

end Sys2Proof
end

