-- ==== Sys2Proof/Config.lean ====
section
/-! DEFINITION. The parameters of spec/00_scope.md R8 (with the controller addresses and bit positions of 10_state.md R40, R41), what the
agents around the block may do (60_exceptions.md R289), and the free values. -/

namespace Sys2Proof

/-- One row of `BIT_TIMING_TABLE` (R8, R222): a supported bitrate and its three bit-timing bytes. -/
structure BitTiming where
  rate : Nat
  cnf1 : Byte
  cnf2 : Byte
  cnf3 : Byte
  deriving DecidableEq, Repr

/-- The parameters of the block. Every OPEN parameter of R8 is a field: the machine carries its configuration in `State`, so a claim about
every state is a claim about every value of every parameter (log 2). -/
structure Config where
  /-- `RING_WORDS`: capacity of the bit ring in 32-bit words, at least 2. -/
  ringWords : Nat
  /-- `TICK_BITS`: width of the millisecond tick counter, at least 2. -/
  tickBits : Nat
  /-- `IDLE_MS`, below `FLUSH_MS`. -/
  idleMs : Nat
  /-- `FLUSH_MS`. -/
  flushMs : Nat
  /-- `AVC_DRAIN_MAX`, at least 1. -/
  avcDrainMax : Nat
  /-- `CAN_DRAIN_MAX`, at least 1. -/
  canDrainMax : Nat
  /-- `SINK_DEPTH`: `none` is the spec's ∞; how many words the sink can hold at once (DESIGN CHOICE, log 29). -/
  sinkDepth : Option Nat
  /-- `CMD_RESET` (R88). -/
  cmdReset : Byte
  /-- `CMD_READ` (R88). -/
  cmdRead : Byte
  /-- `CMD_WRITE` (R88). -/
  cmdWrite : Byte
  /-- `CMD_BITMOD` (R88). -/
  cmdBitmod : Byte
  /-- `CMD_READ_STATUS` (R88). -/
  cmdReadStatus : Byte
  /-- `REG_CANSTAT` (R40; so are the next ones). -/
  regCanstat : Byte
  regCanctrl : Byte
  regTec : Byte
  regRec : Byte
  regCnf3 : Byte
  regCnf2 : Byte
  regCnf1 : Byte
  regCaninte : Byte
  regCanintf : Byte
  regEflg : Byte
  regTxb0ctrl : Byte
  regTxb0sidh : Byte
  regRxb0ctrl : Byte
  regRxb1ctrl : Byte
  /-- `RX_BASE[0]` (R40). -/
  rxBase0 : Byte
  /-- `RX_BASE[1]` (R40). -/
  rxBase1 : Byte
  /-- `REG_SCRATCH` (R40, D25). -/
  regScratch : Byte
  /-- `SENTINEL` (R8, D25). -/
  sentinel : Byte
  /-- Lowest bit of CANCTRL's 3-bit `REQOP` (R41). -/
  bitReqop : Nat
  /-- Lowest bit of CANSTAT's 3-bit `OPMOD` (R41). -/
  bitOpmod : Nat
  /-- Bit of `RX0IE` in CANINTE (R41). -/
  bitRx0ie : Nat
  /-- Bit of `RX1IE` in CANINTE (R41). -/
  bitRx1ie : Nat
  /-- Bit of `RX0IF` in CANINTF (R41). -/
  bitRx0if : Nat
  /-- Bit of `RX1IF` in CANINTF (R41). -/
  bitRx1if : Nat
  /-- Bit of `TXREQ` in TXB0CTRL (R41). -/
  bitTxreq : Nat
  /-- Lowest bit of the 2-bit `RXM` of RXB0CTRL and RXB1CTRL (R41). -/
  bitRxm : Nat
  /-- Bit of `BUKT` in RXB0CTRL (R41). -/
  bitBukt : Nat
  /-- Lowest bit of the 4-bit `DLC` of a slot's length register (R41, R87). -/
  bitDlc : Nat
  /-- Bit of `ST_RX0IF` in the status byte (R41, R205). -/
  bitStRx0if : Nat
  /-- Bit of `ST_RX1IF` in the status byte (R41, R205). -/
  bitStRx1if : Nat
  /-- `OPMODE_NORMAL` (R41). -/
  opmodeNormal : BitVec 3
  /-- `OPMODE_CONFIG` (R41). -/
  opmodeConfig : BitVec 3
  /-- The accept-all value of `RXM` (R41). -/
  rxmAny : BitVec 2
  /-- `BIT_TIMING_TABLE`: a finite map, listed by bitrate. -/
  bitTiming : List BitTiming
  /-- `CAN_BITRATE`: the bitrate requested at boot. -/
  canBitrate : Nat
  /-- `CAN_RESET_SETTLE_MS`. -/
  settleMs : Nat
  /-- `MODE_POLL_MAX`, at least 1. -/
  modePollMax : Nat
  /-- `FW_VERSION`: an opaque value, held as a byte string. -/
  fwVersion : List Byte
  deriving DecidableEq, Repr

/-- The five SPI command bytes, in the order of R88. -/
def Config.cmdBytes (c : Config) : List Byte :=
  [c.cmdReset, c.cmdRead, c.cmdWrite, c.cmdBitmod, c.cmdReadStatus]

/-- The ranges R8 gives the numeric parameters. -/
abbrev Config.rangesOk (c : Config) : Prop :=
  2 ≤ c.ringWords ∧ 2 ≤ c.tickBits ∧ c.idleMs < c.flushMs ∧ 1 ≤ c.avcDrainMax ∧ 1 ≤ c.canDrainMax ∧ 1 ≤ c.modePollMax

/-- Every bit field of R41 lies inside its 8-bit register. -/
abbrev Config.bitsOk (c : Config) : Prop :=
  c.bitReqop ≤ 5 ∧ c.bitOpmod ≤ 5 ∧ c.bitRxm ≤ 6 ∧ c.bitDlc ≤ 4 ∧
    ∀ b ∈ [c.bitRx0ie, c.bitRx1ie, c.bitRx0if, c.bitRx1if, c.bitTxreq, c.bitBukt, c.bitStRx0if, c.bitStRx1if], b < 8

/-- The slot windows of R40 lie inside the 8-bit register space (DEDUCED from R202: no access past 0xFF is ever issued; log 28). -/
abbrev Config.windowsOk (c : Config) : Prop :=
  c.regTxb0sidh.toNat + 12 ≤ 0xFF ∧ c.rxBase0.toNat + 13 ≤ 0xFF ∧ c.rxBase1.toNat + 13 ≤ 0xFF

/-- A configuration the model runs: R8's ranges, R89's five pairwise distinct command bytes, R41's fields inside their registers, and a timing
table that is a map. `step` refuses every other one (R89, log 2). -/
abbrev Config.wf (c : Config) : Prop :=
  c.rangesOk ∧ c.cmdBytes.Nodup ∧ c.bitsOk ∧ c.windowsOk ∧ (c.bitTiming.map BitTiming.rate).Nodup

/-- A host command that reached the block already parsed (45_sequencer.md R266). Its numbers have the width the host wrote them with, none (E10 of
95_test_vectors.md): they are naturals, and one outside R182's or R224's range is a bad operand however large it is (log 25). -/
inductive HostCommand where
  /-- An AVC-LAN transmit request, dispatched as ENCODE_TX. -/
  | avcTx (m s c : Nat) (d : List Byte)
  /-- A CAN transmit request, dispatched as CAN_TX. -/
  | canTx (id : Nat) (ext : Bool) (d : List Byte)
  /-- A command line the host protocol could not parse (R266, D37); its text is out of scope (00_scope.md R5). -/
  | unparsed
  deriving DecidableEq, Repr

/-- What may be presented to the block between two of its steps. -/
inductive Request where
  /-- One operation on the command port: its byte string (30_encoding.md R90). -/
  | op (bytes : List Byte)
  /-- One of the five SPI transaction kinds by itself (00_scope.md R2, 43_can_spi.md R200): the bytes sent and the number of bytes returned. No
  operation of the command port is one (DESIGN CHOICE, log 12). -/
  | spi (mosi : List Byte) (k : Nat)
  /-- Device reset (70_reset_and_hazards.md R310; log 22). -/
  | deviceReset
  deriving DecidableEq, Repr

/-- One action of an agent around the block (60_exceptions.md R289). -/
inductive Move where
  /-- The tick counter advances by `ms` milliseconds (R35). -/
  | tick (ms : Nat)
  /-- The Bit-Sample Source appends words to its queue (R33). -/
  | source (ws : List Word)
  /-- The source loses `n` words of its own queue, from the `i`-th oldest on. The spec leaves the queue's depth and what it does when full open and assumes
  neither a policy nor that no word is lost (R33, D14, N20): the model bounds the queue by nothing and lets any word be lost (DESIGN CHOICE, log 31). -/
  | sourceLoss (i n : Nat)
  /-- The Bit-Stream Sink consumes `n` words (R34). -/
  | sink (n : Nat)
  /-- The CAN interrupt line takes this level (R36). -/
  | irq (level : Bool)
  /-- The controller changes one of its registers (R37). -/
  | register (a : Byte) (v : Byte)
  /-- The controller changes the status-byte bits that are not receive flags (R205). -/
  | statusBits (v : Byte)
  /-- A complete host command arrives (R266). -/
  | command (c : HostCommand)
  /-- The host presents a request (R267). -/
  | request (r : Request)
  /-- The host reads `n` events (R31). -/
  | readEvents (n : Nat)
  deriving DecidableEq, Repr

/-- FREE VALUE. What the agents do at the `n`-th observation that `State` scripts no moves for: any batch of moves (R33 to R37, R289; log 4). -/
opaque Config.freeMoves : Nat → List Move

/-- FREE VALUE. Byte `i` of the reply to an SPI transaction started before the settle time has passed: "a draw under no constraint" (R320; log 20). -/
opaque Config.freeReply : Nat → Nat → Byte

/-- FREE VALUE. The firmware version of the reset configuration: R8 calls it an opaque value (log 24). -/
opaque Config.freeFwVersion : List Byte

/-- The configuration of `State.reset`: the MCP2515 defaults of R40, R41 and R88 (PRESUMED, log 3), and for the OPEN parameters the spec's own
test configurations T1 and T2 (95_test_vectors.md), which it labels as such: DESIGN CHOICE, unsafe (log 1). -/
def Config.atReset : Config where
  ringWords := 4
  tickBits := 32
  idleMs := 5
  flushMs := 20
  avcDrainMax := 2
  canDrainMax := 2
  sinkDepth := none
  cmdReset := 0xC0#8
  cmdRead := 0x03#8
  cmdWrite := 0x02#8
  cmdBitmod := 0x05#8
  cmdReadStatus := 0xA0#8
  regCanstat := 0x0E#8
  regCanctrl := 0x0F#8
  regTec := 0x1C#8
  regRec := 0x1D#8
  regCnf3 := 0x28#8
  regCnf2 := 0x29#8
  regCnf1 := 0x2A#8
  regCaninte := 0x2B#8
  regCanintf := 0x2C#8
  regEflg := 0x2D#8
  regTxb0ctrl := 0x30#8
  regTxb0sidh := 0x31#8
  regRxb0ctrl := 0x60#8
  regRxb1ctrl := 0x70#8
  rxBase0 := 0x60#8
  rxBase1 := 0x70#8
  regScratch := 0x36#8
  sentinel := 0x5A#8
  bitReqop := 5
  bitOpmod := 5
  bitRx0ie := 0
  bitRx1ie := 1
  bitRx0if := 0
  bitRx1if := 1
  bitTxreq := 3
  bitRxm := 5
  bitBukt := 2
  bitDlc := 0
  bitStRx0if := 0
  bitStRx1if := 1
  opmodeNormal := 0b000#3
  opmodeConfig := 0b100#3
  rxmAny := 0b11#2
  bitTiming := [{ rate := 500000, cnf1 := 0x00#8, cnf2 := 0x90#8, cnf3 := 0x02#8 }]
  canBitrate := 500000
  settleMs := 2
  modePollMax := 3
  fwVersion := Config.freeFwVersion

end Sys2Proof
end

