-- ==== Sys2Proof/Machine/State.lean ====
section
/-! DEFINITION. The state of the block and of the agents around it (spec/10_state.md), its outputs, the reasons a step stops, and reset (R45). -/

namespace Sys2Proof.Machine

/-- An AVC-LAN frame (R28); the payload length is `payload.length`. -/
structure AvcFrame where
  master : BitVec 12
  slave : BitVec 12
  control : BitVec 4
  payload : List Byte
  deriving DecidableEq, Repr

/-- A CAN frame (R29). -/
structure CanFrame where
  id : BitVec 29
  extended : Bool
  data : List Byte
  deriving DecidableEq, Repr

/-- A pending frame and its repeat count (R25); the count is unbounded (D8). -/
structure Pending where
  frame : AvcFrame
  count : Nat
  deriving DecidableEq, Repr

/-- The status every operation returns (60_exceptions.md R280). -/
inductive Status where
  | ok | noFrame | nothing | badOperand | illegalOp | badCommand | sinkFull
  | canOffline | bufferBusy | initVerifyFail | unsupportedBitrate | modeTimeout | ready
  deriving DecidableEq, Repr

/-- The informational value of a status event (R31). -/
inductive Info where
  /-- The startup announcement (70 R311): firmware version and CAN_INIT's status. -/
  | startup (version : List Byte) (can : Status)
  /-- The host command the status belongs to (45 R266). -/
  | command (c : HostCommand)
  deriving DecidableEq, Repr

/-- An event of the output queue (R31, 60 R294). -/
inductive Event where
  | avc (frame : AvcFrame) (count : Nat)
  | can (frame : CanFrame)
  | status (s : Status) (info : Info)
  deriving DecidableEq, Repr

/-- The result value of an operation (30_encoding.md R94). -/
inductive Value where
  | nothing
  /-- PARSE_AT, DECODE_AT. -/
  | frame (f : AvcFrame) (consumed : Nat)
  /-- SCAN. -/
  | cursor (c : Nat)
  /-- CAN_RX. -/
  | can (f : CanFrame)
  /-- CAN_ERRCNT: TEC, REC, EFLG. -/
  | counters (tec rxc eflg : Byte)
  deriving DecidableEq, Repr

/-- What an operation returns on the command port (R94). -/
structure Reply where
  status : Status
  value : Value
  deriving DecidableEq, Repr

/-- What happens on the SPI link (R200), and the settle wait (R11). -/
inductive SpiEvent where
  /-- One chip-select-framed transaction: the bytes sent and the bytes returned after them. -/
  | xfer (mosi miso : List Byte)
  /-- `Wait(ms)`. -/
  | wait (ms : Nat)
  deriving DecidableEq, Repr

/-- Where the sequencer is (70 R310, R311): before its boot sequence, or in its endless loop. -/
inductive Phase where
  | boot | loop
  deriving DecidableEq, Repr

/-- The controller's register file (R37): pairs of address and value, addresses strictly rising, no entry equal to what an unlisted address reads
as. -/
abbrev Memory := List Host.Cell

/-- What a controller register that is not listed reads as: DESIGN CHOICE, unsafe (R42 states no value; log 8). -/
def Memory.unlisted : Byte := 0x00#8

/-- The external state the block observes (10_state.md section 4): owned by the other agents. -/
structure External where
  /-- The millisecond tick counter (R35). -/
  tick : Nat
  /-- Milliseconds until an SPI transaction may start again after SPI_RESET (70 R320). -/
  settleLeft : Nat
  /-- The Bit-Sample Source's queue, oldest word first (R33). Its depth is open (N20): no bound here, and its words may be lost by a move (log 31). -/
  src : List Word
  /-- Words the Bit-Stream Sink holds and has not consumed (R34). -/
  sinkHeld : Nat
  /-- Emitted events the host has not read (R31). -/
  eventsUnread : Nat
  /-- The CAN interrupt line (R36). -/
  canIrq : Bool
  /-- The controller's registers (R37, R40). -/
  regs : Memory
  /-- The READ_STATUS byte's bits other than the receive flags (R205). -/
  status : Byte
  /-- Complete host commands not yet dispatched, in arrival order (R266). -/
  hostIn : List HostCommand
  /-- What is presented to the block and not yet taken. -/
  port : List Request
  /-- THE MODEL's: the moves of the agents at the observations to come, one batch each (log 4). -/
  env : List (List Move)
  /-- THE MODEL's: how many free values have been drawn. -/
  draws : Nat
  deriving DecidableEq, Repr

/-- The state of the machine: the block's own state (R20 to R31), its outputs, and the agents' state. -/
structure State where
  /-- The parameters (R8); no operation changes them. -/
  cfg : Config
  /-- The bit ring's words (R21). -/
  ring : List Word
  /-- The ring's write index (R22). -/
  ringFill : Nat
  /-- The scan cursor (R23). -/
  cursor : Nat
  /-- The Pending Frame Accumulator (R25). -/
  pending : Option Pending
  /-- The tick at which the last sample word was taken (R26). -/
  lastRxTs : Nat
  /-- Whether the last CAN_INIT returned OK (R27). -/
  canOnline : Bool
  /-- The encoder accumulator, first bit first (R30). -/
  acc : List Bool
  /-- Whether the boot sequence has run (R311). -/
  phase : Phase
  /-- The events emitted since reset, in order (R31). -/
  events : List Event
  /-- The words pushed to the Bit-Stream Sink since reset, in order (R34). -/
  sink : List Word
  /-- The SPI link's transactions and waits since reset, in order (R200). -/
  spiLog : List SpiEvent
  /-- The results returned on the command port since reset, in order (R94). -/
  replies : List Reply
  /-- The other agents' state. -/
  ext : External
  deriving DecidableEq, Repr

/-- Why the machine stops with a fault. -/
inductive Fault where
  /-- Raised by a bare SPI_READ or SPI_WRITE whose registers run past address 0xFF, where no controller register exists (R43, R202; log 13). Safe: the
  model stops, and no operation of the block issues one. -/
  | noSuchRegister (first count : Nat)
  deriving DecidableEq, Repr

/-- Why the machine gives an instruction no meaning. -/
inductive Refusal where
  /-- Raised by `exec` for an instruction that has no meaning yet; no arm does. Safe. -/
  | notModelled (mnemonic : String)
  /-- Raised by `step` in a configuration outside R8, R89 (log 2). Safe: R89 asks for it. -/
  | configuration
  /-- Raised for a bare SPI transaction that is none of R88's formats (log 12, 13). Safe: no operation of the block issues one. -/
  | spiFormat
  deriving DecidableEq, Repr

/-- What a step or a meaning answers. -/
abbrev Result := Host.Outcome State Fault Refusal

/-- The agents at `State.reset`: nothing queued, and the model's named value for every part the spec leaves open (log 6, 7, 8). -/
def External.atReset : External where
  tick := 0
  settleLeft := 0
  src := []
  sinkHeld := 0
  eventsUnread := 0
  canIrq := false
  regs := []
  status := 0x00#8
  hostIn := []
  port := []
  env := []
  draws := 0

/-- Block state after device reset, for given parameters and agents (R45, R310): `last_rx_ts` is `Now()`. The ring's words are unspecified and
unobservable (R21): zero words stand for them (DESIGN CHOICE, log 5). -/
def State.resetWith (c : Config) (e : External) : State where
  cfg := c
  ring := List.replicate c.ringWords 0#32
  ringFill := 0
  cursor := 0
  pending := none
  lastRxTs := e.tick
  canOnline := false
  acc := []
  phase := .boot
  events := []
  sink := []
  spiLog := []
  replies := []
  ext := e

/-- The machine right after reset. -/
def State.reset : State := State.resetWith Config.atReset External.atReset

end Sys2Proof.Machine
end

