-- ==== Sys2Proof/Syntax.lean ====
section
/-! DEFINITION. The operations of the block: one constructor per row of spec/opcode_table.json (spec/30_encoding.md R91 and R88). -/

namespace Sys2Proof

/-- The 13 operations of the command port (R91) and the five SPI transaction kinds (R88). Operands hold every bit the encoding carries, the
reserved ones too: an operand outside its legal values is an operation that returns `BAD_OPERAND` (R92). -/
inductive Instr where
  /-- `RING_PUSH w` (R121). -/
  | ringPush (w : Word)
  /-- `RING_CLEAR` (R122). -/
  | ringClear
  /-- `PARSE_AT p` (R144). -/
  | parseAt (p : BitVec 32)
  /-- `DECODE_AT p` (R145). -/
  | decodeAt (p : BitVec 32)
  /-- `SCAN` (R146). -/
  | scan
  /-- `FLUSH` (R148). -/
  | flush
  /-- `ENCODE_TX m s c d` (R182); the length byte `n` is the length of `d`. -/
  | encodeTx (m s : BitVec 16) (c : Byte) (d : List Byte)
  /-- `CAN_RESET` (R223). -/
  | canReset
  /-- `CAN_INIT r` (R222). -/
  | canInit (r : BitVec 32)
  /-- `CAN_TX f id d` (R224); bit 0 of `f` is the extended flag, the length byte `n` is the length of `d`. -/
  | canTx (f : Byte) (id : BitVec 32) (d : List Byte)
  /-- `CAN_RX` (R225). -/
  | canRx
  /-- `CAN_ERRCNT` (R226). -/
  | canErrcnt
  /-- `SCHED_STEP` (R267). -/
  | schedStep
  /-- `SPI_RESET` (R201). -/
  | spiReset
  /-- `SPI_READ(A, k)` (R202). -/
  | spiRead (a : Byte) (k : Nat)
  /-- `SPI_WRITE(A, D)` (R203). -/
  | spiWrite (a : Byte) (d : List Byte)
  /-- `SPI_BITMOD(A, M, D)` (R204). -/
  | spiBitmod (a m d : Byte)
  /-- `SPI_READ_STATUS` (R205). -/
  | spiReadStatus
  deriving DecidableEq, Repr

end Sys2Proof
end

