-- ==== Sys2Proof/WellFormed.lean ====
section
/-! DEFINITION. Which terms of `Instr` are operations the encodings of spec/30_encoding.md can carry. -/

namespace Sys2Proof

/-- A length byte counts at most 255 bytes (R91, R92). -/
abbrev countFits (d : List Byte) : Prop := d.length ≤ 255

/-- `k ≥ 1` registers from address `a` exist in the 8-bit register space (R43, R202). -/
abbrev registersExist (a : Byte) (k : Nat) : Prop := 1 ≤ k ∧ a.toNat + k ≤ 256

/-- An operation that has an encoding: a byte list has a length its length byte can hold; an SPI transaction names at least one register and
only registers that exist (R88, R202, R203). Operands with reserved bits set are encodable: they return `BAD_OPERAND` (R92). -/
def wellFormed : Instr → Bool
  | .encodeTx _ _ _ d => decide (countFits d)
  | .canTx _ _ d => decide (countFits d)
  | .spiRead a k => decide (registersExist a k)
  | .spiWrite a d => decide (registersExist a d.length)
  | .ringPush _ => true
  | .ringClear => true
  | .parseAt _ => true
  | .decodeAt _ => true
  | .scan => true
  | .flush => true
  | .canReset => true
  | .canInit _ => true
  | .canRx => true
  | .canErrcnt => true
  | .schedStep => true
  | .spiReset => true
  | .spiBitmod _ _ _ => true
  | .spiReadStatus => true

/-- `wellFormed` as a proposition. -/
abbrev WellFormed (i : Instr) : Prop := wellFormed i = true

end Sys2Proof
end

