-- ==== Sys2Proof/Decode.lean ====
section
/-! DEFINITION. The decoder of the command port (spec/30_encoding.md R90 to R93) and of the SPI transaction formats (R88), and after it the encoder
written from the same tables. -/

namespace Sys2Proof

/-- The opcodes of R91. -/
inductive Opcode where
  | ringPush | ringClear | parseAt | decodeAt | scan | flush | encodeTx
  | canReset | canInit | canTx | canRx | canErrcnt | schedStep
  deriving DecidableEq, Repr

/-- The opcode map of R91, in its order. -/
def opcodeMap : List (Byte × Opcode) :=
  [(0x01#8, .ringPush), (0x02#8, .ringClear), (0x10#8, .parseAt), (0x11#8, .decodeAt), (0x12#8, .scan), (0x13#8, .flush),
   (0x20#8, .encodeTx), (0x30#8, .canReset), (0x31#8, .canInit), (0x32#8, .canTx), (0x33#8, .canRx), (0x34#8, .canErrcnt),
   (0x40#8, .schedStep)]

/-- The operation an opcode byte names; `none` for every reserved byte of R93. -/
def opcodeOf (b : Byte) : Option Opcode :=
  (opcodeMap.find? fun row => row.1 = b).map Prod.snd

/-- Why bytes are no instruction. -/
inductive DecodeError where
  /-- The byte string is empty. -/
  | empty
  /-- The first byte is no opcode of R91. -/
  | illegalOpcode (b : Byte)
  /-- The byte string is shorter than its opcode's total length (R93). -/
  | truncated (b : Byte)
  /-- The first byte of an SPI transaction is none of the five command bytes (R88). -/
  | unknownSpiCommand (b : Byte)
  /-- The bytes after an SPI command byte, or the number of bytes returned, are not those of its format (R88). -/
  | spiFormat (b : Byte)
  /-- Device reset is no instruction. -/
  | notAnInstruction
  deriving DecidableEq, Repr

/-- Two bytes, most significant first (R90). -/
def ofBytes16 (b1 b0 : Byte) : BitVec 16 := b1 ++ b0

/-- Four bytes, most significant first (R90). -/
def ofBytes32 (b3 b2 b1 b0 : Byte) : BitVec 32 := b3 ++ b2 ++ b1 ++ b0

/-- The bytes of a 16-bit value, most significant first. -/
def bytes16 (v : BitVec 16) : List Byte := [v.extractLsb' 8 8, v.extractLsb' 0 8]

/-- The bytes of a 32-bit value, most significant first. -/
def bytes32 (v : BitVec 32) : List Byte :=
  [v.extractLsb' 24 8, v.extractLsb' 16 8, v.extractLsb' 8 8, v.extractLsb' 0 8]

/-- `n` bytes counted by the length byte `n`; `none` where fewer follow it (R90, R93). -/
def countedBytes (n : Byte) (rest : List Byte) : Option (List Byte) :=
  if n.toNat ≤ rest.length then some (rest.take n.toNat) else none

/-- The operand layout of each opcode (R91); `none` where the string is too short. Bytes after the operation's last one are not looked at (the
spec does not say what they do: DESIGN CHOICE, log 14). -/
def decodeOperands : Opcode → List Byte → Option Instr
  | .ringPush, w3 :: w2 :: w1 :: w0 :: _ => some (.ringPush (ofBytes32 w3 w2 w1 w0))
  | .ringPush, _ => none
  | .ringClear, _ => some .ringClear
  | .parseAt, p3 :: p2 :: p1 :: p0 :: _ => some (.parseAt (ofBytes32 p3 p2 p1 p0))
  | .parseAt, _ => none
  | .decodeAt, p3 :: p2 :: p1 :: p0 :: _ => some (.decodeAt (ofBytes32 p3 p2 p1 p0))
  | .decodeAt, _ => none
  | .scan, _ => some .scan
  | .flush, _ => some .flush
  | .encodeTx, m1 :: m0 :: s1 :: s0 :: c :: n :: rest =>
    (countedBytes n rest).map fun d => .encodeTx (ofBytes16 m1 m0) (ofBytes16 s1 s0) c d
  | .encodeTx, _ => none
  | .canReset, _ => some .canReset
  | .canInit, r3 :: r2 :: r1 :: r0 :: _ => some (.canInit (ofBytes32 r3 r2 r1 r0))
  | .canInit, _ => none
  | .canTx, f :: i3 :: i2 :: i1 :: i0 :: n :: rest =>
    (countedBytes n rest).map fun d => .canTx f (ofBytes32 i3 i2 i1 i0) d
  | .canTx, _ => none
  | .canRx, _ => some .canRx
  | .canErrcnt, _ => some .canErrcnt
  | .schedStep, _ => some .schedStep

/-- The command port's decoder (R90, R91, R93). -/
def decodeOp : List Byte → Except DecodeError Instr
  | [] => .error .empty
  | op :: rest =>
    match opcodeOf op with
    | none => .error (.illegalOpcode op)
    | some o =>
      match decodeOperands o rest with
      | none => .error (.truncated op)
      | some i => .ok i

/-- The five SPI transaction formats of R88, for the command bytes of the configuration: `mosi` is what is sent, `k` how many bytes come back. -/
def decodeSpi (c : Config) (mosi : List Byte) (k : Nat) : Except DecodeError Instr :=
  match mosi with
  | [] => .error .empty
  | cmd :: args =>
    if cmd = c.cmdReset then
      match args, k with
      | [], 0 => .ok .spiReset
      | _, _ => .error (.spiFormat cmd)
    else if cmd = c.cmdRead then
      match args, k with
      | [a], n + 1 => .ok (.spiRead a (n + 1))
      | _, _ => .error (.spiFormat cmd)
    else if cmd = c.cmdWrite then
      match args, k with
      | a :: d :: ds, 0 => .ok (.spiWrite a (d :: ds))
      | _, _ => .error (.spiFormat cmd)
    else if cmd = c.cmdBitmod then
      match args, k with
      | [a, m, d], 0 => .ok (.spiBitmod a m d)
      | _, _ => .error (.spiFormat cmd)
    else if cmd = c.cmdReadStatus then
      match args, k with
      | [], 1 => .ok .spiReadStatus
      | _, _ => .error (.spiFormat cmd)
    else .error (.unknownSpiCommand cmd)

/-- The instruction a request stands for. -/
def decodeRequest (c : Config) : Request → Except DecodeError Instr
  | .op bytes => decodeOp bytes
  | .spi mosi k => decodeSpi c mosi k
  | .deviceReset => .error .notAnInstruction

/-- A length byte. -/
def lengthByte (d : List Byte) : Byte := BitVec.ofNat 8 d.length

/-- The request whose bytes are an instruction's: R91 for the operations, R88 for the SPI transaction kinds. -/
def encode (c : Config) : Instr → Request
  | .ringPush w => .op (0x01#8 :: bytes32 w)
  | .ringClear => .op [0x02#8]
  | .parseAt p => .op (0x10#8 :: bytes32 p)
  | .decodeAt p => .op (0x11#8 :: bytes32 p)
  | .scan => .op [0x12#8]
  | .flush => .op [0x13#8]
  | .encodeTx m s ctl d => .op (0x20#8 :: bytes16 m ++ bytes16 s ++ [ctl, lengthByte d] ++ d)
  | .canReset => .op [0x30#8]
  | .canInit r => .op (0x31#8 :: bytes32 r)
  | .canTx f id d => .op (0x32#8 :: f :: bytes32 id ++ [lengthByte d] ++ d)
  | .canRx => .op [0x33#8]
  | .canErrcnt => .op [0x34#8]
  | .schedStep => .op [0x40#8]
  | .spiReset => .spi [c.cmdReset] 0
  | .spiRead a k => .spi [c.cmdRead, a] k
  | .spiWrite a d => .spi (c.cmdWrite :: a :: d) 0
  | .spiBitmod a m d => .spi [c.cmdBitmod, a, m, d] 0
  | .spiReadStatus => .spi [c.cmdReadStatus] 1

/-- Length of the longest operation: 7 operand and opcode bytes and 255 counted ones (R91). -/
def longestOp : Nat := 262

/-- The bytes of a table word, least significant byte first, padded with zero bytes to the longest operation: the opcode table numbers bit 0 as the
least significant bit of the first byte. -/
def tableBytes (nbits w : Nat) : List Byte :=
  (List.range longestOp).map fun j => if 8 * j < nbits then BitVec.ofNat 8 (w >>> (8 * j)) else 0#8

/-- The SPI transaction whose leading bytes these are, with one register for READ and WRITE: a transaction's length is its chip-select frame
(R88), which a table word does not carry. -/
def tableSpi (c : Config) : List Byte → Request
  | cmd :: b1 :: b2 :: b3 :: _ =>
    if cmd = c.cmdRead then .spi [cmd, b1] 1
    else if cmd = c.cmdWrite then .spi [cmd, b1, b2] 0
    else if cmd = c.cmdBitmod then .spi [cmd, b1, b2, b3] 0
    else if cmd = c.cmdReadStatus then .spi [cmd] 1
    else .spi [cmd] 0
  | short => .spi short 0

/-- The request a table word stands for: an operation of the command port where its first byte is an opcode of R91, else an SPI transaction. The
table gives RING_CLEAR and SPI_WRITE one word, 0x02; it is read as the operation (log 19). -/
def tableRequest (c : Config) (nbits w : Nat) : Request :=
  let bytes := tableBytes nbits w
  match decodeOp bytes with
  | .ok _ => .op bytes
  | .error _ =>
    match decodeRequest c (tableSpi c bytes) with
    | .ok _ => tableSpi c bytes
    | .error _ => .op bytes

/-- The instruction the decoder reads from a table word, under the default command bytes. -/
def decodeTableWord (nbits w : Nat) : Option Instr :=
  match decodeRequest Config.atReset (tableRequest Config.atReset nbits w) with
  | .ok i => some i
  | .error _ => none

end Sys2Proof
end

