-- ==== Sys2Proof/Machine/Flags.lean ====
section
/-! DEFINITION. Parity (spec/41_avc_decoder.md R140), the one check bit the block computes, and the bit fields of the controller's registers
(10_state.md R41). The block has no condition codes (R32). -/

namespace Sys2Proof.Machine

/-- `popcount(v)`: the number of 1 bits of `v` (R10). -/
def popcount {n : Nat} (v : BitVec n) : Nat := (List.range n).countP fun i => v.getLsbD i

/-- `Parity(v, n) = popcount(v) mod 2` (R140): the even-parity bit of a field. -/
def parity {n : Nat} (v : BitVec n) : Bool := popcount v % 2 == 1

/-- The byte with bit `i` alone set. -/
def bitMask (i : Nat) : Byte := 1#8 <<< i

/-- The bits `mask` of a register take the corresponding bits of `data`, the others stay (R204). -/
def maskedWrite (old mask data : Byte) : Byte := (old &&& ~~~mask) ||| (data &&& mask)

/-- Bit `i` of `v` set to `b`. -/
def withBit (v : Byte) (i : Nat) (b : Bool) : Byte := maskedWrite v (bitMask i) (if b then bitMask i else 0#8)

/-- A 3-bit field at bit `lo`. -/
def field3 (v : Byte) (lo : Nat) : BitVec 3 := v.extractLsb' lo 3

/-- The mask of a 3-bit field at bit `lo` (`M_REQOP` is the one at `REQOP`). -/
def mask3 (lo : Nat) : Byte := 0b111#8 <<< lo

/-- A 3-bit value placed at bit `lo`. -/
def place3 (x : BitVec 3) (lo : Nat) : Byte := x.setWidth 8 <<< lo

/-- A 4-bit field at bit `lo`. -/
def field4 (v : Byte) (lo : Nat) : BitVec 4 := v.extractLsb' lo 4

/-- A 4-bit value placed at bit `lo`. -/
def place4 (x : BitVec 4) (lo : Nat) : Byte := x.setWidth 8 <<< lo

/-- A 2-bit value placed at bit `lo`. -/
def place2 (x : BitVec 2) (lo : Nat) : Byte := x.setWidth 8 <<< lo

/-- `M_TXREQ` (44_can_driver.md). -/
def maskTxreq (c : Config) : Byte := bitMask c.bitTxreq

/-- `M_REQOP`. -/
def maskReqop (c : Config) : Byte := mask3 c.bitReqop

/-- `RX0IE | RX1IE`: the value CAN_INIT writes to CANINTE (R222). -/
def rxEnables (c : Config) : Byte := bitMask c.bitRx0ie ||| bitMask c.bitRx1ie

/-- `RXM_ANY`: the value CAN_INIT writes to RXB1CTRL (R222). -/
def rxmAnyByte (c : Config) : Byte := place2 c.rxmAny c.bitRxm

/-- `RXM_ANY | BUKT`: the value CAN_INIT writes to RXB0CTRL (R222). -/
def rxb0Byte (c : Config) : Byte := rxmAnyByte c ||| bitMask c.bitBukt

/-- The receive flag of a slot: `M_RX0IF` for slot 0, `M_RX1IF` for slot 1. -/
def maskRxif (c : Config) (slot1 : Bool) : Byte := bitMask (if slot1 then c.bitRx1if else c.bitRx0if)

/-- The number each status returns as (R280). -/
def Status.code : Status → Byte
  | .ok => 0x00#8
  | .noFrame => 0x01#8
  | .nothing => 0x02#8
  | .badOperand => 0x10#8
  | .illegalOp => 0x11#8
  | .badCommand => 0x12#8
  | .sinkFull => 0x20#8
  | .canOffline => 0x30#8
  | .bufferBusy => 0x31#8
  | .initVerifyFail => 0x32#8
  | .unsupportedBitrate => 0x33#8
  | .modeTimeout => 0x34#8
  | .ready => 0x40#8

end Sys2Proof.Machine
end

