-- ==== Sys2Proof/Machine/Operands.lean ====
section
/-! DEFINITION. The legal operand values (spec/30_encoding.md R92), identifier packing (44_can_driver.md R220, R221), and the result bytes of the
command port (30_encoding.md R94). -/

namespace Sys2Proof.Machine

/-- The legal operands of ENCODE_TX (R92, R182). -/
def avcOperandsOk (m s : BitVec 16) (c : Byte) (d : List Byte) : Bool :=
  m.toNat < 2 ^ 12 && s.toNat < 2 ^ 12 && c.toNat < 2 ^ 4 && d.length ≤ maxPayload

/-- The frame legal ENCODE_TX operands spell (R28). -/
def avcFrameOf (m s : BitVec 16) (c : Byte) (d : List Byte) : AvcFrame :=
  { master := m.setWidth 12, slave := s.setWidth 12, control := c.setWidth 4, payload := d }

/-- The legal identifiers of CAN_TX (R92, R224): `id < 2^11`, or `id < 2^29` when extended. -/
def canIdOk (id : BitVec 32) (ext : Bool) : Bool :=
  if ext then id.toNat < 2 ^ 29 else id.toNat < 2 ^ 11

/-- The reserved bits 7 to 1 of CAN_TX's flags byte are 0 (R92). -/
def canFlagsOk (f : Byte) : Bool := f &&& 0xFE#8 == 0#8

/-- The extended bit of CAN_TX's flags byte (R92). -/
def canFlagsExt (f : Byte) : Bool := f.getLsbD 0

/-- `PackId(id, ext)`: the identifier registers of the transmit slot, SIDH first (R220). -/
def packId (id : BitVec 29) (ext : Bool) : List Byte :=
  if ext then
    [id.extractLsb' 21 8, id.extractLsb' 18 3 ++ 0b010#3 ++ id.extractLsb' 16 2, id.extractLsb' 8 8, id.extractLsb' 0 8]
  else
    [id.extractLsb' 3 8, id.extractLsb' 0 3 ++ 0b00000#5]

/-- `UnpackId(sidh, sidl, eid8, eid0)`: identifier and extended flag of a receive header (R221). -/
def unpackId (sidh sidl eid8 eid0 : Byte) : BitVec 29 × Bool :=
  if sidl.getLsbD 3 then (sidh ++ sidl.extractLsb' 5 3 ++ sidl.extractLsb' 0 2 ++ eid8 ++ eid0, true)
  else ((sidh ++ sidl.extractLsb' 5 3).setWidth 29, false)

/-- The count a received length byte holds: `min(DLC, 8)`, `DLC` being the 4-bit field of R41; the other bits are ignored (R87, R225). -/
def dlcCount (c : Config) (dlc : Byte) : Nat := min (field4 dlc c.bitDlc).toNat 8

/-- The length byte that is transmitted for `n ≤ 8` data bytes: `DLC` is `n`, the other bits are 0 (R87, R224). -/
def dlcByte (c : Config) (n : Nat) : Byte := place4 (BitVec.ofNat 4 n) c.bitDlc

/-- A payload in a reply: its length byte, then its bytes (R94). -/
def payloadBytes (d : List Byte) : List Byte := lengthByte d :: d

/-- A natural in a reply, in the four bytes of a stream position operand, modulo `2^32` (R94 states no width: DESIGN CHOICE, log 17). -/
def positionBytes (n : Nat) : List Byte := bytes32 (BitVec.ofNat 32 n)

/-- The value bytes of a reply, fields in R94's order, most significant byte first. R94 states no width for a field that is not a byte and no form for a
Boolean. DESIGN CHOICE, log 17: master and slave take two bytes, padded with zeros above, control one, a CAN identifier four, `extended` one byte that is
0x01 or 0x00, the consumed length and the cursor four each. -/
def Value.bytes : Value → List Byte
  | .nothing => []
  | .frame f n =>
    bytes16 (f.master.setWidth 16) ++ bytes16 (f.slave.setWidth 16) ++ [f.control.setWidth 8] ++ payloadBytes f.payload ++ positionBytes n
  | .cursor c => positionBytes c
  | .can f => bytes32 (f.id.setWidth 32) ++ [if f.extended then 1#8 else 0#8] ++ payloadBytes f.data
  | .counters tec rxc eflg => [tec, rxc, eflg]

/-- The bytes of a reply on the command port: the status byte, then the value (R94). -/
def Reply.bytes (r : Reply) : List Byte := r.status.code :: r.value.bytes

/-- The bytes the command port has returned since reset (R94). -/
def State.portBytes (s : State) : List Byte := s.replies.flatMap Reply.bytes

/-- The host protocol's device identifier of an event's kind (R31). -/
def Event.deviceId : Event → Nat
  | .status _ _ => 0
  | .can _ => 1
  | .avc _ _ => 2

end Sys2Proof.Machine
end

