-- ==== Sys2Proof/Machine/Ops.lean ====
section
/-! DEFINITION. The shared operations: the controller's register memory, the agents' moves, the tick counter, the event queue, the sink, and the
one way an operation ends. The block has no traps (spec/60_exceptions.md R285): what stands here for taking an exception and
returning from it is `State.reply`, a status returned at once. -/

namespace Sys2Proof.Machine

/-! ### The controller's register memory (R37, R43) -/

/-- The value of register `a`. -/
def Memory.read : Memory → Nat → Byte
  | [], _ => Memory.unlisted
  | (b, v) :: rest, a => if b = a then v else Memory.read rest a

/-- Register `a` takes the value `v`; the canonical form is kept. -/
def Memory.write : Memory → Nat → Byte → Memory
  | [], a, v => if v = Memory.unlisted then [] else [(a, v)]
  | (b, w) :: rest, a, v =>
    if a < b then (if v = Memory.unlisted then (b, w) :: rest else (a, v) :: (b, w) :: rest)
    else if a = b then (if v = Memory.unlisted then rest else (a, v) :: rest)
    else (b, w) :: Memory.write rest a v

/-- The canonical form: addresses strictly rising and below 256, and no entry equal to what an unlisted address reads as. -/
abbrev Memory.wf (m : Memory) : Prop :=
  m.Pairwise (fun x y => x.1 < y.1) ∧ ∀ c ∈ m, c.1 < 256 ∧ c.2 ≠ Memory.unlisted

/-- `k` consecutive registers from address `a` (R202). -/
def Memory.readBytes (m : Memory) (a k : Nat) : List Byte := (List.range k).map fun i => Memory.read m (a + i)

/-- Consecutive registers from address `a` take the bytes of `d` (R203). -/
def Memory.writeBytes (m : Memory) (a : Nat) : List Byte → Memory
  | [] => m
  | v :: rest => Memory.writeBytes (Memory.write m a v) (a + 1) rest

/-! ### The agents (R289) -/

/-- The tick counter advances by `ms`, modulo `2^TICK_BITS` (R35); so does the settle time (R320). -/
def External.advance (c : Config) (ms : Nat) (e : External) : External :=
  { e with tick := (e.tick + ms) % 2 ^ c.tickBits, settleLeft := e.settleLeft - ms }

/-- One move of an agent; the controller acts on its own only so (log 30), and the source loses a queued word only so (log 31). -/
def applyMove (c : Config) (e : External) : Move → External
  | .tick ms => e.advance c ms
  | .source ws => { e with src := e.src ++ ws }
  | .sourceLoss i n => { e with src := e.src.take i ++ e.src.drop (i + n) }
  | .sink n => { e with sinkHeld := e.sinkHeld - n }
  | .irq level => { e with canIrq := level }
  | .register a v => { e with regs := Memory.write e.regs a.toNat v }
  | .statusBits v => { e with status := v }
  | .command h => { e with hostIn := e.hostIn ++ [h] }
  | .request r => { e with port := e.port ++ [r] }
  | .readEvents n => { e with eventsUnread := e.eventsUnread - n }

/-- The agents move before an observation: the next scripted batch, or free moves where none is scripted (R78, R289; log 4). -/
def External.yield (c : Config) (e : External) : External :=
  match e.env with
  | [] => (Config.freeMoves e.draws).foldl (applyMove c) { e with draws := e.draws + 1 }
  | batch :: rest => batch.foldl (applyMove c) { e with env := rest }

/-- The agents move; no block state changes (R71). -/
def State.yield (s : State) : State := { s with ext := s.ext.yield s.cfg }

/-! ### The tick counter (R35, R265) -/

/-- `(now - t) mod 2^bits`, unsigned (R265). -/
def elapsedTicks (bits now t : Nat) : Nat := (now + (2 ^ bits - t % 2 ^ bits)) % 2 ^ bits

/-- `Elapsed(last_rx_ts)` at the counter's present value. -/
def State.elapsed (s : State) : Nat := elapsedTicks s.cfg.tickBits s.ext.tick s.lastRxTs

/-! ### Outputs -/

/-- `Emit(e)`: append an event to the output queue (R11, R31). -/
def State.emit (e : Event) (s : State) : State :=
  { s with events := s.events ++ [e], ext := { s.ext with eventsUnread := s.ext.eventsUnread + 1 } }

/-- End an operation: `return (status, value)` on the command port (R11, R94). A failing operation does nothing else (R285). -/
def State.reply (status : Status) (value : Value) (s : State) : State :=
  { s with replies := s.replies ++ [{ status := status, value := value }] }

/-- `SinkFree() ≥ n` (R34, R182). DESIGN CHOICE, log 29: `SINK_DEPTH` is read as the sink's capacity, and `SinkFree()` as that less the words the sink
holds. -/
def State.sinkHasRoom (n : Nat) (s : State) : Bool :=
  match s.cfg.sinkDepth with
  | none => true
  | some depth => n ≤ depth - s.ext.sinkHeld

/-- `SinkPush(w)` (R34). -/
def State.sinkPush (w : Word) (s : State) : State :=
  { s with sink := s.sink ++ [w], ext := { s.ext with sinkHeld := s.ext.sinkHeld + 1 } }

/-- The events the host has not read, oldest first (R31). -/
def State.eventQueue (s : State) : List Event := s.events.drop (s.events.length - s.ext.eventsUnread)

/-- The filled length `L = ring_fill * 32` in bits (R22). -/
def State.filledBits (s : State) : Nat := s.ringFill * wordBits

end Sys2Proof.Machine
end

