-- ==== Sys2Proof/Machine/SpiLink.lean ====
section
/-! DEFINITION. The five SPI transaction kinds (spec/43_can_spi.md R200 to R205), the settle wait (R11, R320), and the kinds as instructions of their
own (00_scope.md R2; log 12). Every transaction begins with the agents' moves (R78) and is then one atomic exchange (R200; log 11). -/

namespace Sys2Proof.Machine

/-- Record one transaction on the link (R200). -/
def State.logXfer (mosi miso : List Byte) (s : State) : State := { s with spiLog := s.spiLog ++ [.xfer mosi miso] }

/-- The controller's registers are replaced. -/
def State.withRegs (m : Memory) (s : State) : State := { s with ext := { s.ext with regs := m } }

/-- What the controller sends back: the given bytes, or bytes under no constraint where the transaction starts before the settle time has passed
(R320; log 20). -/
def State.spiReply (miso : List Byte) (s : State) : State × List Byte :=
  if s.ext.settleLeft = 0 then (s, miso)
  else ({ s with ext := { s.ext with draws := s.ext.draws + 1 } }, (List.range miso.length).map (Config.freeReply s.ext.draws))

/-- `Wait(ms)` (R11): at least `ms` milliseconds of the tick counter pass (log 21). -/
def State.wait (ms : Nat) (s : State) : State :=
  let s := s.yield
  { s with ext := s.ext.advance s.cfg ms, spiLog := s.spiLog ++ [.wait ms] }

/-- `SPI_RESET` (R201): the controller resets, its registers become whatever it makes them (R42: the second `yield`; log 9), it is in configuration
mode, and it needs its settle time (R320). One started before an earlier one's settle time has passed, what R201 and R320 forbid and leave open in its effect, takes
the same effect and starts the whole settle time again (DESIGN CHOICE, log 20). -/
def spiReset (s : State) : State :=
  let s := (s.yield.logXfer [s.cfg.cmdReset] [])
  let s := { s with ext := { s.ext with settleLeft := s.cfg.settleMs } }
  let s := s.yield
  let a := s.cfg.regCanstat.toNat
  s.withRegs (Memory.write s.ext.regs a
    (maskedWrite (Memory.read s.ext.regs a) (mask3 s.cfg.bitOpmod) (place3 s.cfg.opmodeConfig s.cfg.bitOpmod)))

/-- `SPI_READ(A, k)` (R202): the registers `A .. A+k-1`; no register changes (R72). -/
def spiRead (a : Byte) (k : Nat) (s : State) : State × List Byte :=
  let s := s.yield
  let r := s.spiReply (Memory.readBytes s.ext.regs a.toNat k)
  (r.1.logXfer [s.cfg.cmdRead, a] r.2, r.2)

/-- `SPI_WRITE(A, D)` (R203): register `A+i` takes `D[i]`. -/
def spiWrite (a : Byte) (d : List Byte) (s : State) : State :=
  let s := s.yield
  (s.withRegs (Memory.writeBytes s.ext.regs a.toNat d)).logXfer (s.cfg.cmdWrite :: a :: d) []

/-- `SPI_BITMOD(A, M, D)` (R204): `reg[A] <- (reg[A] AND NOT M) OR (D AND M)`, in one transaction (any register: log 26). -/
def spiBitmod (a m d : Byte) (s : State) : State :=
  let s := s.yield
  (s.withRegs (Memory.write s.ext.regs a.toNat (maskedWrite (Memory.read s.ext.regs a.toNat) m d))).logXfer [s.cfg.cmdBitmod, a, m, d] []

/-- The global status byte (R205): the two receive flags, read from CANINTF (DEDUCED from R287; log 10), among the controller's other bits. -/
def statusByte (c : Config) (e : External) : Byte :=
  let flags := Memory.read e.regs c.regCanintf.toNat
  withBit (withBit e.status c.bitStRx0if (flags.getLsbD c.bitRx0if)) c.bitStRx1if (flags.getLsbD c.bitRx1if)

/-- `SPI_READ_STATUS` (R205). -/
def spiReadStatus (s : State) : State × Byte :=
  let s := s.yield
  let r := s.spiReply [statusByte s.cfg s.ext]
  (r.1.logXfer [s.cfg.cmdReadStatus] r.2, r.2.headD 0x00#8)

/-- SPI_RESET by itself (R201). -/
def execSpiReset (s : State) : Result := .next (spiReset s)

/-- SPI_READ by itself (R202): the bytes returned stand in `spiLog`. A READ of no register is no format of R88 (D43); no register exists past 0xFF (log
13). -/
def execSpiRead (a : Byte) (k : Nat) (s : State) : Result :=
  if k = 0 then .refused .spiFormat
  else if a.toNat + k > 256 then .fault (.noSuchRegister a.toNat k)
  else .next (spiRead a k s).1

/-- SPI_WRITE by itself (R203). -/
def execSpiWrite (a : Byte) (d : List Byte) (s : State) : Result :=
  if d.length = 0 then .refused .spiFormat
  else if a.toNat + d.length > 256 then .fault (.noSuchRegister a.toNat d.length)
  else .next (spiWrite a d s)

/-- SPI_BITMOD by itself (R204). -/
def execSpiBitmod (a m d : Byte) (s : State) : Result := .next (spiBitmod a m d s)

/-- SPI_READ_STATUS by itself (R205). -/
def execSpiReadStatus (s : State) : Result := .next (spiReadStatus s).1

end Sys2Proof.Machine
end

