-- ==== Sys2Proof/Machine/Can.lean ====
section
/-! DEFINITION. The CAN operations (spec/44_can_driver.md R222 to R226): each a fixed, bounded sequence of SPI transactions. -/

namespace Sys2Proof.Machine

/-- `SPI_READ(A, 1)[0]`. -/
def spiReadByte (a : Byte) (s : State) : State × Byte :=
  let r := spiRead a 1 s
  (r.1, r.2.headD 0x00#8)

/-- `can_online` takes the value `b` (R27). -/
def State.withOnline (b : Bool) (s : State) : State := { s with canOnline := b }

/-- The reset body shared by CAN_INIT and CAN_RESET: the command, then the settle wait (R223). -/
def canResetBody (s : State) : State := (spiReset s).wait s.cfg.settleMs

/-- `BIT_TIMING_TABLE[r]` (R222). -/
def bitTimingOf (c : Config) (r : Nat) : Option BitTiming := c.bitTiming.find? fun t => t.rate = r

/-- CAN_INIT's register programming, in the source's order (R222, D24): timing, receive enables, receive filters, mode request. -/
def canProgram (t : BitTiming) (s : State) : State :=
  let c := s.cfg
  let s := spiWrite c.regCnf1 [t.cnf1] s
  let s := spiWrite c.regCnf2 [t.cnf2] s
  let s := spiWrite c.regCnf3 [t.cnf3] s
  let s := spiWrite c.regCaninte [rxEnables c] s
  let s := spiWrite c.regRxb0ctrl [rxb0Byte c] s
  let s := spiWrite c.regRxb1ctrl [rxmAnyByte c] s
  spiBitmod c.regCanctrl (maskReqop c) (place3 c.opmodeNormal c.bitReqop) s

/-- The bounded mode poll (R222, R321): at most `n` reads of CANSTAT. -/
def modePoll : Nat → State → State × Status
  | 0, s => (s, .modeTimeout)
  | n + 1, s =>
    let r := spiReadByte s.cfg.regCanstat s
    if field3 r.2 r.1.cfg.bitOpmod = r.1.cfg.opmodeNormal then (r.1.withOnline true, .ok) else modePoll n r.1

/-- `CAN_INIT r` (R222) at a bitrate `r`: the port's operand (32 bits, R91) or the parameter `CAN_BITRATE` (a natural, R8). -/
def canInit (r : Nat) (s : State) : State × Status :=
  let c := s.cfg
  let s := canResetBody (s.withOnline false)
  let s := spiWrite c.regScratch [c.sentinel] s
  let back := spiReadByte c.regScratch s
  if back.2 ≠ c.sentinel then (back.1, .initVerifyFail)
  else
    match bitTimingOf c r with
    | none => (back.1, .unsupportedBitrate)
    | some t => modePoll c.modePollMax (canProgram t back.1)

/-- `CAN_RESET` (R223): `can_online` is false afterwards (D29). -/
def canReset (s : State) : State := (canResetBody s).withOnline false

/-- `CAN_TX id ext d` (R224). -/
def canTx (id : BitVec 32) (ext : Bool) (d : List Byte) (s : State) : State × Status :=
  if canIdOk id ext then
    if s.canOnline then
      let c := s.cfg
      let ctrl := spiReadByte c.regTxb0ctrl s
      if ctrl.2 &&& maskTxreq c ≠ 0#8 then (ctrl.1, .bufferBusy)
      else
        let n := min d.length 8
        let s := spiWrite c.regTxb0sidh (packId (id.setWidth 29) ext) ctrl.1
        let s := spiWrite (c.regTxb0sidh + 4#8) (dlcByte c n :: d.take n) s
        (spiBitmod c.regTxb0ctrl (maskTxreq c) (maskTxreq c) s, .ok)
    else (s, .canOffline)
  else (s, .badOperand)

/-- The body of CAN_RX once a slot is known to be pending (R225): header, data, flag clear. -/
def receiveSlot (slot1 : Bool) (s : State) : State × CanFrame :=
  let c := s.cfg
  let base := if slot1 then c.rxBase1 else c.rxBase0
  let h := spiRead (base + 1#8) 5 s
  let ident := unpackId (h.2.getD 0 0#8) (h.2.getD 1 0#8) (h.2.getD 2 0#8) (h.2.getD 3 0#8)
  let n := dlcCount c (h.2.getD 4 0#8)
  let data := if n > 0 then spiRead (base + 6#8) n h.1 else (h.1, [])
  (spiBitmod c.regCanintf (maskRxif c slot1) 0x00#8 data.1, { id := ident.1, extended := ident.2, data := data.2 })

/-- `CAN_RX` (R225): slot 0 first when both are pending (D21). -/
def canRx (s : State) : State × Reply :=
  if s.canOnline then
    let c := s.cfg
    let st := spiReadStatus s
    if st.2.getLsbD c.bitStRx0if then
      let r := receiveSlot false st.1
      (r.1, { status := .ok, value := .can r.2 })
    else if st.2.getLsbD c.bitStRx1if then
      let r := receiveSlot true st.1
      (r.1, { status := .ok, value := .can r.2 })
    else (st.1, { status := .nothing, value := .nothing })
  else (s, { status := .canOffline, value := .nothing })

/-- `CAN_ERRCNT` (R226): three single-byte reads, in this order (D45). -/
def canErrcnt (s : State) : State × Reply :=
  if s.canOnline then
    let tec := spiReadByte s.cfg.regTec s
    let rxc := spiReadByte s.cfg.regRec tec.1
    let eflg := spiReadByte s.cfg.regEflg rxc.1
    (eflg.1, { status := .ok, value := .counters tec.2 rxc.2 eflg.2 })
  else (s, { status := .canOffline, value := .nothing })

/-- CAN_RESET on the command port: always `OK` (R223). -/
def execCanReset (s : State) : Result := .next ((canReset s).reply .ok .nothing)

/-- CAN_INIT on the command port (R222). -/
def execCanInit (r : BitVec 32) (s : State) : Result := .next ((canInit r.toNat s).1.reply (canInit r.toNat s).2 .nothing)

/-- CAN_TX on the command port: a reserved flag bit set is a bad operand (R92), and operands come before `CAN_OFFLINE` (R283). -/
def execCanTx (f : Byte) (id : BitVec 32) (d : List Byte) (s : State) : Result :=
  if canFlagsOk f then
    let r := canTx id (canFlagsExt f) d s
    .next (r.1.reply r.2 .nothing)
  else .next (s.reply .badOperand .nothing)

/-- CAN_RX on the command port (R225). -/
def execCanRx (s : State) : Result :=
  let r := canRx s
  .next (r.1.reply r.2.status r.2.value)

/-- CAN_ERRCNT on the command port (R226). -/
def execCanErrcnt (s : State) : Result :=
  let r := canErrcnt s
  .next (r.1.reply r.2.status r.2.value)

end Sys2Proof.Machine
end

