-- ==== Sys2Proof/Machine/Ring.lean ====
section
/-! DEFINITION. The bit ring (spec/40_bit_ring.md): RING_PUSH and RING_CLEAR, and the scanner's single-bit read. -/

namespace Sys2Proof.Machine

/-- `RingBit(b) = ring[b div 32][31 - (b mod 32)]` (R60, R120). Every caller has checked `b < ring_fill * 32` (R141). -/
def ringBit (ring : List Word) (b : Nat) : Bool := (ring.getD (b / 32) 0#32).getLsbD (31 - b % 32)

/-- `RING_PUSH w` (R121): append, or drop the newest word silently when the ring is full (90 C1, C5). -/
def ringPush (w : Word) (s : State) : State :=
  if s.ringFill < s.cfg.ringWords then { s with ring := s.ring.set s.ringFill w, ringFill := s.ringFill + 1 } else s

/-- `RING_CLEAR` (R122): the words keep their values; `pending` is not touched. -/
def ringClear (s : State) : State := { s with ringFill := 0, cursor := 0 }

/-- RING_PUSH on the command port: always `OK` (R121). -/
def execRingPush (w : Word) (s : State) : Result := .next ((ringPush w s).reply .ok .nothing)

/-- RING_CLEAR on the command port: always `OK` (R122). -/
def execRingClear (s : State) : Result := .next ((ringClear s).reply .ok .nothing)

end Sys2Proof.Machine
end

