-- ==== Sys2Proof/Machine/Decoder.lean ====
section
/-! DEFINITION. The AVC-LAN frame decoder (spec/41_avc_decoder.md): the parity-checked field read, the primary and the rescue parse, the full-buffer
scan, the coalescer and the flush. -/

namespace Sys2Proof.Machine

/-- The value of a bit list, first bit most significant (R61, R141). -/
def bitsValue (bits : List Bool) : Nat := bits.foldl (fun v b => 2 * v + b.toNat) 0

/-- The `n` ring bits from stream position `p`. -/
def ringBits (ring : List Word) (p n : Nat) : List Bool := (List.range n).map fun i => ringBit ring (p + i)

/-- The `n`-bit value at stream position `p`, most significant bit first. -/
def fieldValue (ring : List Word) (p n : Nat) : BitVec n := BitVec.ofNat n (bitsValue (ringBits ring p n))

/-- The bit after the field is its parity (R140). -/
def fieldValid (ring : List Word) (p n : Nat) : Bool := ringBit ring (p + n) == parity (fieldValue ring p n)

/-- `ReadField(p, n)` (R141): the bound check first, then the field, then its parity. -/
def readField (ring : List Word) (fill p n : Nat) : Option (BitVec n) :=
  if p + n + 1 > fill * wordBits then none
  else if fieldValid ring p n then some (fieldValue ring p n) else none

/-- The payload loop of `ParseAt` (R142): `count` bytes of nine positions each. -/
def readPayload (ring : List Word) (fill : Nat) : Nat → Nat → Option (List Byte)
  | 0, _ => some []
  | count + 1, q =>
    match readField ring fill q 8 with
    | none => none
    | some b => (readPayload ring fill count (q + 9)).map fun d => b :: d

/-- `ParseAt(p)` (R142): one primary parse; the frame and the consumed length, or `none`. -/
def parseAt (ring : List Word) (fill p : Nat) : Option (AvcFrame × Nat) :=
  match readField ring fill p 12 with
  | none => none
  | some m =>
    match readField ring fill (p + 13) 12 with
    | none => none
    | some s =>
      match readField ring fill (p + 26) 4 with
      | none => none
      | some c =>
        match readField ring fill (p + 31) 8 with
        | none => none
        | some n =>
          if n.toNat > maxPayload then none
          else
            (readPayload ring fill n.toNat (p + 40)).map fun d =>
              ({ master := m, slave := s, control := c, payload := d }, 40 + 9 * n.toNat)

/-- `DecodeAt(p)` (R145): the primary parse, else the rescue parse one position later, which counts the skipped bit. -/
def decodeAt (ring : List Word) (fill p : Nat) : Option (AvcFrame × Nat) :=
  match parseAt ring fill p with
  | some r => some r
  | none => (parseAt ring fill (p + 1)).map fun r => (r.1, r.2 + 1)

/-- `Coalesce(f)` (R147). -/
def coalesce (f : AvcFrame) (s : State) : State :=
  match s.pending with
  | some p =>
    if p.frame = f then { s with pending := some { frame := f, count := p.count + 1 } }
    else { s.emit (.avc p.frame p.count) with pending := some { frame := f, count := 1 } }
  | none => { s with pending := some { frame := f, count := 1 } }

/-- The scan loop (R146) with the parser `dec` at each cursor: while 40 positions remain (D6), a frame is coalesced and the cursor moves by the
consumed length, else by 1. Every iteration moves the cursor, so `fuel` = the filled length is never used up. -/
def scanLoop (dec : List Word → Nat → Nat → Option (AvcFrame × Nat)) : Nat → State → State
  | 0, s => s
  | fuel + 1, s =>
    if s.cursor + minFrameBits ≤ s.filledBits then
      match dec s.ring s.ringFill s.cursor with
      | some (f, n) => scanLoop dec fuel { coalesce f s with cursor := s.cursor + n }
      | none => scanLoop dec fuel { s with cursor := s.cursor + 1 }
    else s

/-- A full-buffer scan from position 0 (D7) with the parser `dec`. -/
def scanWith (dec : List Word → Nat → Nat → Option (AvcFrame × Nat)) (s : State) : State :=
  scanLoop dec s.filledBits { s with cursor := 0 }

/-- `SCAN` (R146). -/
def scan (s : State) : State := scanWith decodeAt s

/-- `FLUSH` (R148): emit and clear the pending frame; nothing where there is none (D41). -/
def flush (s : State) : State :=
  match s.pending with
  | some p => { s.emit (.avc p.frame p.count) with pending := none }
  | none => s

/-- The result of a parse on the command port: `OK` with the frame and the consumed length, or `NO_FRAME` (R144, R145). -/
def replyFrame (r : Option (AvcFrame × Nat)) (s : State) : State :=
  match r with
  | some (f, n) => s.reply .ok (.frame f n)
  | none => s.reply .noFrame .nothing

/-- PARSE_AT on the command port (R144). -/
def execParseAt (p : BitVec 32) (s : State) : Result := .next (replyFrame (parseAt s.ring s.ringFill p.toNat) s)

/-- DECODE_AT on the command port (R145). -/
def execDecodeAt (p : BitVec 32) (s : State) : Result := .next (replyFrame (decodeAt s.ring s.ringFill p.toNat) s)

/-- SCAN on the command port: `OK` with the final cursor (R146, D42). -/
def execScan (s : State) : Result := .next ((scan s).reply .ok (.cursor (scan s).cursor))

/-- FLUSH on the command port: always `OK` (R148). -/
def execFlush (s : State) : Result := .next ((flush s).reply .ok .nothing)

end Sys2Proof.Machine
end

