-- ==== Sys2Proof/Machine/Encoder.lean ====
section
/-! DEFINITION. The AVC-LAN frame encoder (spec/42_avc_encoder.md): parity generator, serializer, ENCODE_TX. -/

namespace Sys2Proof.Machine

/-- `Pack(bits)` (R181): bit `j` of the list is bit `31 - j` of the word. -/
def pack (bits : List Bool) : Word :=
  BitVec.ofNat 32 ((List.range 32).foldl (fun v j => 2 * v + (bits.getD j false).toNat) 0)

/-- `AppendBit(x)` (R181): a full accumulator is pushed as one word and emptied. -/
def appendBit (s : State) (x : Bool) : State :=
  let acc := s.acc ++ [x]
  if acc.length = wordBits then { s.sinkPush (pack acc) with acc := [] } else { s with acc := acc }

/-- A field's bits, most significant first, then its parity bit (R61, R181). -/
def fieldBits {n : Nat} (v : BitVec n) : List Bool := (List.range n).map (fun i => v.getMsbD i) ++ [parity v]

/-- `AppendField(v, n)` (R181). -/
def appendField {n : Nat} (v : BitVec n) (s : State) : State := (fieldBits v).foldl appendBit s

/-- The last, partial word: left-justified, padded with zero bits (R182). -/
def pushPartial (s : State) : State :=
  if s.acc.length > 0 then { s.sinkPush (pack (s.acc ++ List.replicate (32 - s.acc.length) false)) with acc := [] } else s

/-- Serialize one frame: its fields in order, then the partial word (R182). -/
def serialize (f : AvcFrame) (s : State) : State :=
  let s := { s with acc := [] }
  let s := appendField f.master s
  let s := appendField f.slave s
  let s := appendField f.control s
  let s := appendField (BitVec.ofNat 8 f.payload.length) s
  let s := f.payload.foldl (fun s b => appendField b s) s
  pushPartial s

/-- `nwords`: the words of a frame with payload length `len` (R182, R183). -/
def frameWordCount (len : Nat) : Nat := (40 + 9 * len + 31) / 32

/-- `ENCODE_TX m s c d` (R182): the operand check, the free-space check for the whole frame (R329), then every word. -/
def encodeTx (m sl : BitVec 16) (c : Byte) (d : List Byte) (s : State) : State × Status :=
  if avcOperandsOk m sl c d then
    let s := s.yield
    if s.sinkHasRoom (frameWordCount d.length) then (serialize (avcFrameOf m sl c d) s, .ok) else (s, .sinkFull)
  else (s, .badOperand)

/-- ENCODE_TX on the command port (R182). -/
def execEncodeTx (m sl : BitVec 16) (c : Byte) (d : List Byte) (s : State) : Result :=
  let r := encodeTx m sl c d s
  .next (r.1.reply r.2 .nothing)

end Sys2Proof.Machine
end

