-- ==== Sys2Proof/Machine/Sequencer.lean ====
section
/-! DEFINITION. The sequencer (spec/45_sequencer.md R260 to R267), the boot sequence and device reset (70_reset_and_hazards.md R310, R311). -/

namespace Sys2Proof.Machine

/-- Execute one host command as a block operation (R266). A number that no operand field of R91 could hold is beyond R182's and R224's bounds too. R224 gives
CAN_TX 0 to 255 data bytes and does not say what a longer list of a host command does: it is clamped to 8 and sent like every other (DESIGN CHOICE, log 25). -/
def runCommand (h : HostCommand) (s : State) : State × Status :=
  match h with
  | .avcTx m sl c d =>
    if m < 2 ^ 16 ∧ sl < 2 ^ 16 ∧ c < 2 ^ 8 then encodeTx (BitVec.ofNat 16 m) (BitVec.ofNat 16 sl) (BitVec.ofNat 8 c) d s else (s, .badOperand)
  | .canTx id ext d => if id < 2 ^ 32 then canTx (BitVec.ofNat 32 id) ext d s else (s, .badOperand)
  | .unparsed => (s, .badCommand)

/-- Execute one host command and emit its status event (R266, R185). -/
def dispatchCommand (s : State) (h : HostCommand) : State :=
  let r := runCommand h s
  r.1.emit (.status r.2 (.command h))

/-- Step 1 (R266): every command available at the start of the step, in arrival order. -/
def dispatchCommands (s : State) : State :=
  let s := s.yield
  s.ext.hostIn.foldl dispatchCommand { s with ext := { s.ext with hostIn := [] } }

/-- The loop of step 2 (R261): take up to `n` words; each is pushed (or dropped when the ring is full) and sets `last_rx_ts` (D15). The words taken
are returned beside the state. -/
def drainLoop : Nat → State → State × List Word
  | 0, s => (s, [])
  | n + 1, s =>
    let s := s.yield
    match s.ext.src with
    | [] => (s, [])
    | w :: rest =>
      let s := (ringPush w { s with ext := { s.ext with src := rest } }).yield
      let r := drainLoop n { s with lastRxTs := s.ext.tick }
      (r.1, w :: r.2)

/-- Step 2, the AVC-LAN drain (R261). -/
def avcDrain (s : State) : State := (drainLoop s.cfg.avcDrainMax s).1

/-- The loop of step 3 (R263): up to `n` frames; the first result that is not `OK` ends it. -/
def canDrainLoop : Nat → State → State
  | 0, s => s
  | n + 1, s =>
    match canRx s with
    | (s, { status := .ok, value := .can f }) => canDrainLoop n (s.emit (.can f))
    | (s, _) => s

/-- Step 3, the CAN drain (R263): `can_irq` is sampled once, at its start (D28). -/
def canDrain (s : State) : State :=
  let s := s.yield
  if s.canOnline && s.ext.canIrq then canDrainLoop s.cfg.canDrainMax s else s

/-- The decode trigger at the counter's present value (R262). -/
def State.decodeDue (s : State) : Bool :=
  4 * s.ringFill > 3 * s.cfg.ringWords || (s.ringFill > 0 && s.elapsed > s.cfg.idleMs)

/-- Step 4, first part (R262): when triggered, a scan and the ring reset. -/
def decodePass (s : State) : State :=
  let s := s.yield
  if s.decodeDue then ringClear (scan s) else s

/-- Step 4, second part (R264): the flush check of every iteration (90 C3), at an observation of its own (log 27). -/
def flushCheck (s : State) : State :=
  let s := s.yield
  if s.pending.isSome && s.elapsed > s.cfg.flushMs then flush s else s

/-- One iteration of the sequencer: the four steps in their order (R260). -/
def iteration (s : State) : State := flushCheck (decodePass (canDrain (avcDrain (dispatchCommands s))))

/-- SCHED_STEP on the command port: always `OK` (R267). -/
def execSchedStep (s : State) : Result := .next ((iteration s).reply .ok .nothing)

/-- The boot sequence (R311): CAN_INIT at the boot bitrate, then the one READY event, then the loop. -/
def boot (s : State) : State :=
  let r := canInit s.cfg.canBitrate s
  { r.1.emit (.status .ready (.startup s.cfg.fwVersion r.2)) with phase := .loop }

/-- Device reset (R310): block state as `State.resetWith` sets it; the agents' queues stay (91 N10), and nothing is left unread in the emptied event
queue (log 22). -/
def deviceReset (s : State) : State :=
  let s := s.yield
  State.resetWith s.cfg { s.ext with eventsUnread := 0 }

end Sys2Proof.Machine
end

