-- ==== Sys2Proof/Machine/Dispatch.lean ====
section
/-! DEFINITION. What each instruction does: one arm per constructor of `Instr`, each one call of its meaning. -/

namespace Sys2Proof.Machine

def exec (i : Instr) (s : State) : Host.Outcome State Fault Refusal :=
  match i with
  | .ringPush w => Sys2Proof.Machine.execRingPush w s
  | .ringClear => Sys2Proof.Machine.execRingClear s
  | .parseAt p => Sys2Proof.Machine.execParseAt p s
  | .decodeAt p => Sys2Proof.Machine.execDecodeAt p s
  | .scan => Sys2Proof.Machine.execScan s
  | .flush => Sys2Proof.Machine.execFlush s
  | .encodeTx m sl c d => Sys2Proof.Machine.execEncodeTx m sl c d s
  | .canReset => Sys2Proof.Machine.execCanReset s
  | .canInit r => Sys2Proof.Machine.execCanInit r s
  | .canTx f id d => Sys2Proof.Machine.execCanTx f id d s
  | .canRx => Sys2Proof.Machine.execCanRx s
  | .canErrcnt => Sys2Proof.Machine.execCanErrcnt s
  | .schedStep => Sys2Proof.Machine.execSchedStep s
  | .spiReset => Sys2Proof.Machine.execSpiReset s
  | .spiRead a k => Sys2Proof.Machine.execSpiRead a k s
  | .spiWrite a d => Sys2Proof.Machine.execSpiWrite a d s
  | .spiBitmod a m d => Sys2Proof.Machine.execSpiBitmod a m d s
  | .spiReadStatus => Sys2Proof.Machine.execSpiReadStatus s

end Sys2Proof.Machine
end

