-- ==== Sys2Proof/Machine/Fetch.lean ====
section
/-! DEFINITION. How the block takes its next operation (spec/30_encoding.md R90, R93; 45_sequencer.md R267; 70_reset_and_hazards.md R311). -/

namespace Sys2Proof.Machine

/-- What the block does with bytes that are no instruction: on the command port `ILLEGAL_OP` and nothing else (R93); a bare SPI transaction that is
no format of R88 is refused (log 13); device reset is R310's. -/
def runUndecoded (r : Request) (s : State) : Result :=
  match r with
  | .op _ => .next (s.reply .illegalOp .nothing)
  | .spi _ _ => .refused .spiFormat
  | .deviceReset => .next (deviceReset s)

/-- Run one request taken from `port`. -/
def runRequest (r : Request) (s : State) : Result :=
  match decodeRequest s.cfg r with
  | .ok i => exec i s
  | .error _ => runUndecoded r s

/-- `s` without the request at the head of `port`. -/
def State.taken (s : State) : State := { s with ext := { s.ext with port := s.ext.port.tail } }

/-- One step of a machine whose configuration is well formed: the boot sequence after reset (R311), else the request that is presented (R267), else
the next iteration of the loop (R311; log 15). The iterations the loop runs by itself return no status on the command port: only an operation presented on
it does (DESIGN CHOICE, log 15). -/
def stepConfigured (s : State) : Result :=
  match s.phase with
  | .boot => .next (boot s)
  | .loop =>
    match s.ext.port with
    | [] => .next (iteration s)
    | r :: _ => runRequest r s.taken

/-- `s` in its loop with `r` presented ahead of whatever else is (log 16). -/
def State.presenting (r : Request) (s : State) : State :=
  { s with phase := .loop, ext := { s.ext with port := r :: s.ext.port } }

end Sys2Proof.Machine
end

