-- ==== Sys2Proof/Machine/Step.lean ====
section
/-! DEFINITION. The step of the machine, and where a program's next instruction is placed. -/

namespace Sys2Proof.Machine

/-- One step. A configuration outside R8 and R89 is refused (R89; log 2). -/
def step (s : State) : Host.Outcome State Fault Refusal :=
  if s.cfg.wf then stepConfigured s else .refused .configuration

/-- `s` with the instruction of a table word as its very next one: the block is in its loop and the request is presented (log 16). -/
def State.withFetchWord (s : State) (nbits w : Nat) : State := s.presenting (tableRequest s.cfg nbits w)

end Sys2Proof.Machine
end

