-- ==== Sys2Proof/Safety.lean ====
section
/-! DEFINITION. The terms claims are stated in: the invariant of the machine, what an operation leaves unchanged, and agents that keep still. -/

namespace Sys2Proof.Machine

/-- A payload of at most 32 bytes (R28). -/
abbrev AvcFrame.wf (f : AvcFrame) : Prop := f.payload.length ≤ maxPayload

/-- At most 8 data bytes, and an 11-bit identifier where the frame is standard (R29). -/
abbrev CanFrame.wf (f : CanFrame) : Prop := f.data.length ≤ 8 ∧ (f.extended = false → f.id.toNat < 2 ^ 11)

/-- A repeat count of at least 1 and a well-formed frame (R25). -/
abbrev Pending.wf (p : Pending) : Prop := 1 ≤ p.count ∧ p.frame.wf

/-- The frames events carry are well formed (R25, R28, R29). -/
def Event.wf : Event → Prop
  | .avc f count => 1 ≤ count ∧ f.wf
  | .can f => f.wf
  | .status _ _ => True

/-- The frames results carry are well formed (R28, R29). -/
def Value.wf : Value → Prop
  | .nothing => True
  | .frame f _ => f.wf
  | .cursor _ => True
  | .can f => f.wf
  | .counters _ _ _ => True

/-- The agents' part of the invariant: a tick of `TICK_BITS` (R35) and a controller memory in its canonical form. -/
structure External.Inv (c : Config) (e : External) : Prop where
  tick : e.tick < 2 ^ c.tickBits
  regs : Memory.wf e.regs

/-- The invariant every step keeps: the configuration is one of R8; the ring has its capacity and its write index never exceeds it (R21, R22, R123);
the cursor never passes the filled length (R23, R24); the accumulator is empty between operations (R30); the recorded tick has the counter's
width (R26); every frame held or returned is well formed (R25, R28, R29). -/
structure State.Inv (s : State) : Prop where
  cfg : s.cfg.wf
  ring : s.ring.length = s.cfg.ringWords
  fill : s.ringFill ≤ s.cfg.ringWords
  cursor : s.cursor ≤ s.filledBits
  pending : ∀ p, s.pending = some p → p.wf
  lastRx : s.lastRxTs < 2 ^ s.cfg.tickBits
  acc : s.acc = []
  events : ∀ e ∈ s.events, e.wf
  unread : s.ext.eventsUnread ≤ s.events.length
  replies : ∀ r ∈ s.replies, r.value.wf
  ext : External.Inv s.cfg s.ext

/-- The decoder's and the sequencer's state is the same in `t` as in `s`: ring, cursor, pending frame, receive timestamp, accumulator, phase and
parameters. -/
def State.sameDecoder (s t : State) : Prop :=
  t.cfg = s.cfg ∧ t.ring = s.ring ∧ t.ringFill = s.ringFill ∧ t.cursor = s.cursor ∧ t.pending = s.pending ∧
    t.lastRxTs = s.lastRxTs ∧ t.acc = s.acc ∧ t.phase = s.phase

/-- The event queue and the sink have taken nothing between `s` and `t`. -/
def State.sameOutputs (s t : State) : Prop := t.events = s.events ∧ t.sink = s.sink

/-- No agent moves at the next `n` observations. -/
def State.still (n : Nat) (s : State) : Prop := s.ext.env.take n = List.replicate n []

/-- The agents after the next `n` observations of the block, where the block itself changes nothing of theirs in between. -/
def External.yields (c : Config) : Nat → External → External
  | 0, e => e
  | n + 1, e => External.yields c n (e.yield c)

/-- One iteration of the scan loop (R146): 40 positions remain, and a decoded frame is coalesced and consumed, or the cursor moves by one. -/
def ScanStep (s t : State) : Prop :=
  s.cursor + 40 ≤ s.ringFill * 32 ∧
    ((∃ f n, decodeAt s.ring s.ringFill s.cursor = some (f, n) ∧ t = { coalesce f s with cursor := s.cursor + n }) ∨
      (decodeAt s.ring s.ringFill s.cursor = none ∧ t = { s with cursor := s.cursor + 1 }))

/-- The scan from a state: zero or more iterations. -/
abbrev ScanSteps (s t : State) : Prop := Relation.ReflTransGen ScanStep s t

/-- The bits of a frame in the stream, as R80's table lists them: each field most significant bit first, then its even parity. -/
def frameBits (f : AvcFrame) : List Bool :=
  fieldBits f.master ++ fieldBits f.slave ++ fieldBits f.control ++ fieldBits (BitVec.ofNat 8 f.payload.length) ++ f.payload.flatMap fieldBits

/-- A stream packed into 32-bit words (R62): stream position `32k + j` at bit `31 - j` of word `k`, the last word padded with zero bits. -/
def streamWords (bits : List Bool) : List Word :=
  (List.range ((bits.length + 31) / 32)).map fun k => BitVec.ofFnLE fun i : Fin 32 => bits.getD (32 * k + (31 - i.val)) false

/-- The total length R91 gives an operation by its first byte (and by its length byte, byte 6, for ENCODE_TX and CAN_TX); `none` for every first
byte of R93's list, and for the empty string. -/
def operationLength : List Byte → Option Nat
  | [] => none
  | op :: rest =>
    if op.toNat ∈ [0x02, 0x12, 0x13, 0x30, 0x33, 0x34, 0x40] then some 1
    else if op.toNat ∈ [0x01, 0x10, 0x11, 0x31] then some 5
    else if op.toNat ∈ [0x20, 0x32] then some (7 + (rest.getD 5 0#8).toNat)
    else none

/-- The SPI transactions CAN_INIT performs after the sentinel check, before the mode poll (R222). -/
def programXfers (c : Config) (t : BitTiming) : List SpiEvent :=
  [.xfer [c.cmdWrite, c.regCnf1, t.cnf1] [], .xfer [c.cmdWrite, c.regCnf2, t.cnf2] [], .xfer [c.cmdWrite, c.regCnf3, t.cnf3] [],
   .xfer [c.cmdWrite, c.regCaninte, rxEnables c] [], .xfer [c.cmdWrite, c.regRxb0ctrl, rxb0Byte c] [],
   .xfer [c.cmdWrite, c.regRxb1ctrl, rxmAnyByte c] [],
   .xfer [c.cmdBitmod, c.regCanctrl, maskReqop c, place3 c.opmodeNormal c.bitReqop] []]

/-- What R222 makes of CAN_INIT at bitrate `r` from `s`, for every reply of the controller: it ends at `t` with the status `st`. Reset, settle wait,
sentinel written and read back (`b`), bitrate looked up, registers programmed, mode polled (`modes`); `can_online` is true exactly on OK (R27). -/
def CanInitRun (s : State) (r : Nat) (t : State) (st : Status) : Prop :=
  ∃ (e : External) (b : Byte) (tail : List SpiEvent),
    t = { s with
      ext := e
      canOnline := st == .ok
      spiLog := s.spiLog ++ [.xfer [s.cfg.cmdReset] [], .wait s.cfg.settleMs,
        .xfer [s.cfg.cmdWrite, s.cfg.regScratch, s.cfg.sentinel] [], .xfer [s.cfg.cmdRead, s.cfg.regScratch] [b]] ++ tail } ∧
    ((b ≠ s.cfg.sentinel ∧ st = .initVerifyFail ∧ tail = []) ∨
     (b = s.cfg.sentinel ∧ (∀ t ∈ s.cfg.bitTiming, t.rate ≠ r) ∧ st = .unsupportedBitrate ∧ tail = []) ∨
     (b = s.cfg.sentinel ∧ ∃ t ∈ s.cfg.bitTiming, t.rate = r ∧ ∃ modes : List Byte,
        tail = programXfers s.cfg t ++ modes.map (fun m => .xfer [s.cfg.cmdRead, s.cfg.regCanstat] [m]) ∧
        modes.length ≤ s.cfg.modePollMax ∧
        ((st = .ok ∧ ∃ before m, modes = before ++ [m] ∧ field3 m s.cfg.bitOpmod = s.cfg.opmodeNormal ∧
            ∀ x ∈ before, field3 x s.cfg.bitOpmod ≠ s.cfg.opmodeNormal) ∨
         (st = .modeTimeout ∧ modes.length = s.cfg.modePollMax ∧ ∀ x ∈ modes, field3 x s.cfg.bitOpmod ≠ s.cfg.opmodeNormal))))

/-- One turn of the AVC-LAN drain (R261): after the agents' moves the source's oldest word `w` is taken and pushed, and after their next moves the receive
timestamp takes the counter's value. -/
def DrainTurn (w : Word) (s t : State) : Prop :=
  ∃ rest, s.yield.ext.src = w :: rest ∧
    let p := (ringPush w { s.yield with ext := { s.yield.ext with src := rest } }).yield
    t = { p with lastRxTs := p.ext.tick }

/-- Turns of the AVC-LAN drain that take the words of a list, in order. -/
def DrainTurns : List Word → State → State → Prop
  | [], s, t => t = s
  | w :: ws, s, t => ∃ u, DrainTurn w s u ∧ DrainTurns ws u t

/-- The number of bytes one SPI transaction moves (R206). -/
def SpiEvent.byteCount : SpiEvent → Nat
  | .xfer mosi miso => mosi.length + miso.length
  | .wait _ => 0

/-- The startup event (R312). -/
def Event.isReady : Event → Bool
  | .status .ready _ => true
  | _ => false

end Sys2Proof.Machine

namespace Sys2Proof

open Sys2Proof.Machine

/-- An operation of the command port (R91), not one of the five SPI transaction kinds. -/
def Instr.onCommandPort : Instr → Bool
  | .spiReset | .spiRead _ _ | .spiWrite _ _ | .spiBitmod _ _ _ | .spiReadStatus => false
  | .ringPush _ | .ringClear | .parseAt _ | .decodeAt _ | .scan | .flush | .encodeTx _ _ _ _ | .canReset | .canInit _ | .canTx _ _ _ | .canRx
  | .canErrcnt | .schedStep => true

/-- The statuses R280's table says an operation returns. -/
def Instr.statuses : Instr → List Status
  | .ringPush _ | .ringClear | .scan | .flush | .canReset | .schedStep => [.ok]
  | .parseAt _ | .decodeAt _ => [.ok, .noFrame]
  | .encodeTx _ _ _ _ => [.ok, .badOperand, .sinkFull]
  | .canInit _ => [.ok, .initVerifyFail, .unsupportedBitrate, .modeTimeout]
  | .canTx _ _ _ => [.ok, .badOperand, .canOffline, .bufferBusy]
  | .canRx => [.ok, .nothing, .canOffline]
  | .canErrcnt => [.ok, .canOffline]
  | .spiReset | .spiRead _ _ | .spiWrite _ _ | .spiBitmod _ _ _ | .spiReadStatus => []

end Sys2Proof
end

