-- ==== Sys2Proof/Certificates/Slice0/Obligations.lean ====
section
/-! DEFINITION. The statements for the provers. `s.ext.yield s.cfg` is the agents' state after the moves they make at the operation's first
observation (log 4); `External.yields c n` after `n` observations between which the block changes nothing of theirs. -/

open Sys2Proof Sys2Proof.Machine

/-! ### Decoding and fetching -/

/-- Decode and encode agree, for every well-formed instruction with every operand value (R88, R91). -/
def Obligations.EncodedInstructionDecodesBack : Prop :=
  ∀ (c : Config) (i : Instr), c.wf → WellFormed i → decodeRequest c (encode c i) = .ok i

/-- Every byte string the command port accepts is well formed and begins with the encoding of what it decodes to (R90, R91). That what follows the
encoding is ignored is the model's choice (log 14). -/
def Obligations.AcceptedBytesBeginWithTheEncoding : Prop :=
  ∀ (c : Config) (bytes : List Byte) (i : Instr), decodeOp bytes = .ok i →
    WellFormed i ∧ ∃ es rest, encode c i = .op es ∧ bytes = es ++ rest

/-- A few operations written out from R91 decode to what they stand for (P1, P2, P3, P5 of 95_test_vectors.md). -/
def Obligations.SampleOperationsDecode : Prop :=
  decodeOp [0x01#8, 0x12#8, 0x32#8, 0x2B#8, 0x46#8] = .ok (.ringPush 0x12322B46#32) ∧
  decodeOp [0x11#8, 0x00#8, 0x00#8, 0x00#8, 0x3F#8] = .ok (.decodeAt 63#32) ∧
  decodeOp [0x20#8, 0x01#8, 0x23#8, 0x04#8, 0x56#8, 0x01#8, 0x02#8, 0xAA#8, 0xBB#8] =
    .ok (.encodeTx 0x123#16 0x456#16 1#8 [0xAA#8, 0xBB#8]) ∧
  decodeOp [0x32#8, 0x00#8, 0x00#8, 0x00#8, 0x07#8, 0xFF#8, 0x01#8, 0x04#8] = .ok (.canTx 0#8 0x7FF#32 [4#8]) ∧
  decodeOp [0x40#8] = .ok .schedStep ∧
  decodeSpi Config.atReset [0x05#8, 0x30#8, 0x08#8, 0x08#8] 0 = .ok (.spiBitmod 0x30#8 0x08#8 0x08#8)

/-- R93: an opcode outside R91's map, or a byte string shorter than its opcode's total length, returns ILLEGAL_OP and changes no state; the request is
taken from the port. -/
def Obligations.IllegalOrShortOperationReturnsIllegalOp : Prop :=
  ∀ (s : State) (bytes : List Byte) (rest : List Request), s.cfg.wf → s.phase = .loop → s.ext.port = .op bytes :: rest →
    (operationLength bytes = none ∨ ∃ n, operationLength bytes = some n ∧ bytes.length < n) →
    step s = .next { s with
      ext := { s.ext with port := rest }
      replies := s.replies ++ [{ status := .illegalOp, value := .nothing }] }

/-- A step of the loop runs the instruction the presented request decodes to, on the state without that request; with nothing presented it is one
iteration of the sequencer (R311: "loop forever: SCHED_STEP"). That a presented request is served before the next iteration, one a step, and that the
loop's own iteration returns nothing on the port, is the model's choice (log 15); so is that a request may be a bare SPI transaction (log 12). -/
def Obligations.StepRunsTheDecodedInstruction : Prop :=
  ∀ s : State, s.cfg.wf → s.phase = .loop →
    (∀ (r : Request) (rest : List Request) (i : Instr), s.ext.port = r :: rest → decodeRequest s.cfg r = .ok i →
      step s = exec i { s with ext := { s.ext with port := rest } }) ∧
    (s.ext.port = [] → step s = .next (iteration s))

/-- R89: a configuration in which two of the five command bytes are equal is refused, whatever the rest of the state. -/
def Obligations.EqualSpiCommandBytesAreRefused : Prop :=
  ∀ s : State,
    (∃ i j : Fin 5, i ≠ j ∧
      [s.cfg.cmdReset, s.cfg.cmdRead, s.cfg.cmdWrite, s.cfg.cmdBitmod, s.cfg.cmdReadStatus][i] =
        [s.cfg.cmdReset, s.cfg.cmdRead, s.cfg.cmdWrite, s.cfg.cmdBitmod, s.cfg.cmdReadStatus][j]) →
    step s = .refused .configuration

/-! ### The bit ring -/

/-- RING_PUSH (R121): below capacity the word is appended, at capacity it is dropped silently; always OK; nothing else changes, and no word below
`ring_fill` does. -/
def Obligations.RingPushAppendsOrDrops : Prop :=
  ∀ (s : State) (w : Word), ∃ t, exec (.ringPush w) s = .next t ∧
    (s.ringFill < s.cfg.ringWords →
      t = { s with ring := s.ring.set s.ringFill w, ringFill := s.ringFill + 1,
                   replies := s.replies ++ [{ status := .ok, value := .nothing }] }) ∧
    (s.cfg.ringWords ≤ s.ringFill → t = { s with replies := s.replies ++ [{ status := .ok, value := .nothing }] }) ∧
    ∀ i, i < s.ringFill → t.ring[i]? = s.ring[i]?

/-- RING_CLEAR (R122): the fill and the cursor are 0; the words, `pending` and everything else stay. -/
def Obligations.RingClearEmptiesTheRing : Prop :=
  ∀ s : State, exec .ringClear s =
    .next { s with ringFill := 0, cursor := 0, replies := s.replies ++ [{ status := .ok, value := .nothing }] }

/-- R123: after a RING_CLEAR, the filled words are exactly the accepted pushes in order, the fill never exceeds the capacity, and the filled length is
`ring_fill * 32`. -/
def Obligations.FilledWordsAreTheAcceptedPushes : Prop :=
  ∀ (s : State) (ws : List Word), s.ring.length = s.cfg.ringWords →
    let t := ws.foldl (fun u w => ringPush w u) (ringClear s)
    t.ringFill = min ws.length s.cfg.ringWords ∧ t.ring.take t.ringFill = ws.take s.cfg.ringWords ∧
      t.ring.length = s.cfg.ringWords ∧ t.filledBits = t.ringFill * 32

/-! ### The decoder -/

/-- ReadField (R141) with R140's parity: `none` where the field and its parity bit would pass the filled length; else the field's value, most
significant bit first, if the bit after it is its popcount modulo 2. -/
def Obligations.FieldReadChecksBoundThenParity : Prop :=
  ∀ (ring : List Word) (fill p n : Nat),
    let sum := ∑ i ∈ Finset.range n, (ringBit ring (p + i)).toNat * 2 ^ (n - 1 - i)
    sum < 2 ^ n ∧
    readField ring fill p n =
      if fill * 32 < p + n + 1 then none
      else if (ringBit ring (p + n)).toNat = popcount (BitVec.ofNat n sum) % 2 then some (BitVec.ofNat n sum) else none

/-- R143: the outcome of `ParseAt(p)` without the procedure. -/
def Obligations.PrimaryParseOutcome : Prop :=
  ∀ (ring : List Word) (fill p : Nat) (f : AvcFrame) (consumed : Nat),
    parseAt ring fill p = some (f, consumed) ↔
      consumed = 40 + 9 * f.payload.length ∧ f.payload.length ≤ 32 ∧ p + 40 + 9 * f.payload.length ≤ fill * 32 ∧
      (fieldValue ring p 12 = f.master ∧ fieldValid ring p 12 = true) ∧
      (fieldValue ring (p + 13) 12 = f.slave ∧ fieldValid ring (p + 13) 12 = true) ∧
      (fieldValue ring (p + 26) 4 = f.control ∧ fieldValid ring (p + 26) 4 = true) ∧
      (fieldValue ring (p + 31) 8 = BitVec.ofNat 8 f.payload.length ∧ fieldValid ring (p + 31) 8 = true) ∧
      ∀ k (h : k < f.payload.length),
        fieldValue ring (p + 40 + 9 * k) 8 = f.payload[k] ∧ fieldValid ring (p + 40 + 9 * k) 8 = true

/-- PARSE_AT (R144): the primary parse's frame and consumed length with OK, or NO_FRAME; NO_FRAME wherever 40 positions do not remain; nothing else
changes. -/
def Obligations.ParseAtReportsThePrimaryParse : Prop :=
  ∀ (s : State) (p : BitVec 32), ∃ r, exec (.parseAt p) s = .next { s with replies := s.replies ++ [r] } ∧
    (∀ f n, parseAt s.ring s.ringFill p.toNat = some (f, n) → r = { status := .ok, value := .frame f n }) ∧
    (parseAt s.ring s.ringFill p.toNat = none → r = { status := .noFrame, value := .nothing }) ∧
    (s.ringFill * 32 < p.toNat + 40 → r = { status := .noFrame, value := .nothing })

/-- DECODE_AT (R145): the primary parse; only where it fails the parse one position later, reported with one more position consumed; NO_FRAME where
both fail; nothing else changes; past `p + 41 > L` the rescue never succeeds. -/
def Obligations.DecodeAtTriesTheRescueParse : Prop :=
  ∀ (s : State) (p : BitVec 32), ∃ r, exec (.decodeAt p) s = .next { s with replies := s.replies ++ [r] } ∧
    (∀ f n, parseAt s.ring s.ringFill p.toNat = some (f, n) → r = { status := .ok, value := .frame f n }) ∧
    (parseAt s.ring s.ringFill p.toNat = none →
      (∀ f n, parseAt s.ring s.ringFill (p.toNat + 1) = some (f, n) → r = { status := .ok, value := .frame f (n + 1) }) ∧
      (parseAt s.ring s.ringFill (p.toNat + 1) = none → r = { status := .noFrame, value := .nothing })) ∧
    (s.ringFill * 32 < p.toNat + 41 → parseAt s.ring s.ringFill (p.toNat + 1) = none)

/-- R21, R120: neither parse and no scan can observe a ring word at or above `ring_fill`. -/
def Obligations.UnfilledRingWordsAreUnobservable : Prop :=
  ∀ (s : State) (ring : List Word), ring.take s.ringFill = s.ring.take s.ringFill →
    (∀ p, parseAt ring s.ringFill p = parseAt s.ring s.ringFill p) ∧
    (∀ p, decodeAt ring s.ringFill p = decodeAt s.ring s.ringFill p) ∧
    scan { s with ring := ring } = { scan s with ring := ring }

/-- SCAN (R146): the loop's iterations from position 0 reach a state where fewer than 40 positions remain; SCAN answers that state, with OK and its
cursor; only the cursor, `pending` and the event queue have changed. -/
def Obligations.ScanRunsItsLoopToTheEnd : Prop :=
  ∀ s : State, ∃ t, ScanSteps { s with cursor := 0 } t ∧ t.ringFill * 32 < t.cursor + 40 ∧
    exec .scan s = .next { t with replies := t.replies ++ [{ status := .ok, value := .cursor t.cursor }] } ∧
    t = { s with cursor := t.cursor, pending := t.pending, events := t.events,
                 ext := { s.ext with eventsUnread := t.ext.eventsUnread } }

/-- R24: a successful decode consumes at most what remains; after a failed one at least 39 positions remain; the cursor never passes the filled length,
so its width never overflows. -/
def Obligations.ScanCursorStaysInTheFilledRegion : Prop :=
  (∀ (ring : List Word) (fill p : Nat) (f : AvcFrame) (n : Nat), decodeAt ring fill p = some (f, n) → p + n ≤ fill * 32) ∧
  ∀ s t : State, ScanSteps { s with cursor := 0 } t →
    t.cursor ≤ t.ringFill * 32 ∧
    (∀ u, ScanStep t u → u.cursor ≤ u.ringFill * 32 ∧
      (decodeAt t.ring t.ringFill t.cursor = none → u.cursor + 39 ≤ u.ringFill * 32)) ∧
    (s.ringFill ≤ s.cfg.ringWords → t.cursor < 2 ^ Nat.clog 2 (s.cfg.ringWords * 32 + 1))

/-- FLUSH (R148): the pending frame is emitted and cleared; with none pending nothing is emitted; always OK. -/
def Obligations.FlushEmitsThePendingFrame : Prop :=
  ∀ s : State, ∃ t, exec .flush s = .next t ∧
    (s.pending = none → t = { s with replies := s.replies ++ [{ status := .ok, value := .nothing }] }) ∧
    (∀ g k, s.pending = some { frame := g, count := k } →
      t = { s with
        pending := none
        events := s.events ++ [.avc g k]
        ext := { s.ext with eventsUnread := s.ext.eventsUnread + 1 }
        replies := s.replies ++ [{ status := .ok, value := .nothing }] })

/-- R149: the rescue parse never changes what a full scan decodes. -/
def Obligations.RescueParseNeverChangesAScan : Prop :=
  ∀ s : State, scanWith decodeAt s = scanWith parseAt s

/-- R150: the words ENCODE_TX pushes for a frame, and nothing else in the ring, decode at 0 to that frame and its exact length, and a scan leaves it
pending once. -/
def Obligations.EncodedFrameDecodesToItself : Prop :=
  ∀ (f : AvcFrame) (s : State), f.wf → s.yield.sinkHasRoom ((40 + 9 * f.payload.length + 31) / 32) = true →
    ∃ t, exec (.encodeTx (f.master.setWidth 16) (f.slave.setWidth 16) (f.control.setWidth 8) f.payload) s = .next t ∧
      ∀ u : State, u.ringFill = (t.sink.drop s.sink.length).length → u.ring.take u.ringFill = t.sink.drop s.sink.length →
        exec (.parseAt 0#32) u =
          .next { u with replies := u.replies ++ [{ status := .ok, value := .frame f (40 + 9 * f.payload.length) }] } ∧
        exec (.decodeAt 0#32) u =
          .next { u with replies := u.replies ++ [{ status := .ok, value := .frame f (40 + 9 * f.payload.length) }] } ∧
        (u.pending = none → ∃ v, exec .scan u = .next v ∧ v.pending = some { frame := f, count := 1 })

/-- R151: one inverted position inside a valid frame makes the primary parse there fail; DecodeAt may still succeed with a different frame; and a frame
one position later, where none parses here, is decoded with one more position consumed. -/
def Obligations.SingleInvertedBitIsDetected : Prop :=
  (∀ (ring ring' : List Word) (fill p q : Nat) (f : AvcFrame) (n : Nat), parseAt ring fill p = some (f, n) → p ≤ q → q < p + n →
    (∀ b, b ≠ q → ringBit ring' b = ringBit ring b) → ringBit ring' q = !ringBit ring q → parseAt ring' fill p = none) ∧
  (∃ (ring ring' : List Word) (q : Nat) (f f' : AvcFrame) (n n' : Nat), parseAt ring 2 0 = some (f, n) ∧ q < n ∧
    (∀ b, b ≠ q → ringBit ring' b = ringBit ring b) ∧ ringBit ring' q = (!ringBit ring q) ∧
    decodeAt ring' 2 0 = some (f', n') ∧ f' ≠ f) ∧
  (∀ (ring : List Word) (fill p : Nat) (f : AvcFrame) (n : Nat), parseAt ring fill (p + 1) = some (f, n) → parseAt ring fill p = none →
    decodeAt ring fill p = some (f, n + 1))

/-- R152: 40 zero positions are a valid frame, and a ring of `k` zero words scans as `32k / 40` zero frames, coalesced. -/
def Obligations.ZeroWordsScanAsZeroFrames : Prop :=
  ∀ s : State, (∀ i, i < s.ringFill → s.ring.getD i 0#32 = 0#32) →
    let zero : AvcFrame := { master := 0#12, slave := 0#12, control := 0#4, payload := [] }
    let k := s.ringFill * 32 / 40
    (∀ p, p + 40 ≤ s.ringFill * 32 → parseAt s.ring s.ringFill p = some (zero, 40)) ∧
    (s.pending = none →
      exec .scan s = .next { s with
        cursor := 40 * k
        pending := if k = 0 then none else some { frame := zero, count := k }
        replies := s.replies ++ [{ status := .ok, value := .cursor (40 * k) }] })

/-- R154: a run of `N ≥ 1` identical frames, spread over any number of decode passes and followed by a flush or by a different frame, emits exactly one
event for them, with count `N`, after the event of a different frame that was pending. -/
def Obligations.IdenticalRunEmitsOneEventWithItsCount : Prop :=
  ∀ (s : State) (f g : AvcFrame) (passes : List Nat), 1 ≤ passes.sum → g ≠ f → (∀ p, s.pending = some p → p.frame ≠ f) →
    let before : List Event := match s.pending with | some p => [.avc p.frame p.count] | none => []
    let t := passes.foldl (fun u k => ringClear ((coalesce f)^[k] u)) s
    (flush t).events = s.events ++ before ++ [.avc f passes.sum] ∧ (flush t).pending = none ∧
    (coalesce g t).events = s.events ++ before ++ [.avc f passes.sum] ∧ (coalesce g t).pending = some { frame := g, count := 1 }

/-! ### The encoder -/

/-- ENCODE_TX (R182, R80, R62): with legal operands and room in the sink, exactly the words of the frame's bits are pushed, in order, and OK is
returned; the accumulator is empty; no other block state changes. -/
def Obligations.EncodeTxPushesTheFramesBits : Prop :=
  ∀ (f : AvcFrame) (s : State), f.wf → s.yield.sinkHasRoom ((40 + 9 * f.payload.length + 31) / 32) = true →
    exec (.encodeTx (f.master.setWidth 16) (f.slave.setWidth 16) (f.control.setWidth 8) f.payload) s =
      .next { s with
        sink := s.sink ++ streamWords (frameBits f)
        acc := []
        ext := { s.ext.yield s.cfg with sinkHeld := (s.ext.yield s.cfg).sinkHeld + (40 + 9 * f.payload.length + 31) / 32 }
        replies := s.replies ++ [{ status := .ok, value := .nothing }] }

/-- ENCODE_TX's failures (R182, R92, R283): an operand outside its legal values returns BAD_OPERAND before the sink is looked at; too little room in
the sink returns SINK_FULL; neither pushes a word or changes block state. That `SinkFree()` is SINK_DEPTH less the words the sink holds is the model's choice
(log 29). -/
def Obligations.EncodeTxFailsWithoutPushing : Prop :=
  ∀ (m sl : BitVec 16) (c : Byte) (d : List Byte) (s : State),
    ((2 ^ 12 ≤ m.toNat ∨ 2 ^ 12 ≤ sl.toNat ∨ 2 ^ 4 ≤ c.toNat ∨ 32 < d.length) →
      exec (.encodeTx m sl c d) s = .next { s with replies := s.replies ++ [{ status := .badOperand, value := .nothing }] }) ∧
    (m.toNat < 2 ^ 12 → sl.toNat < 2 ^ 12 → c.toNat < 2 ^ 4 → d.length ≤ 32 →
      (∃ depth, s.cfg.sinkDepth = some depth ∧ depth - (s.ext.yield s.cfg).sinkHeld < (40 + 9 * d.length + 31) / 32) →
      exec (.encodeTx m sl c d) s = .next { s with
        ext := s.ext.yield s.cfg
        replies := s.replies ++ [{ status := .sinkFull, value := .nothing }] })

/-- R183: a frame is `40 + 9L` bits in `ceil((40 + 9L)/32)` words; only `L = 24` ends on a word boundary; the bits after the last one are zeros. -/
def Obligations.FrameWordCountAndPadding : Prop :=
  ∀ f : AvcFrame, f.wf →
    (frameBits f).length = 40 + 9 * f.payload.length ∧
    (streamWords (frameBits f)).length = (40 + 9 * f.payload.length + 31) / 32 ∧
    ((40 + 9 * f.payload.length) % 32 = 0 ↔ f.payload.length = 24) ∧
    (∀ b, b < 40 + 9 * f.payload.length → ringBit (streamWords (frameBits f)) b = (frameBits f).getD b false) ∧
    ∀ b, 40 + 9 * f.payload.length ≤ b → ringBit (streamWords (frameBits f)) b = false

/-! ### The SPI transaction kinds -/

/-- SPI_RESET (R201, R320): sends the command byte after the agents' moves; the settle time starts, and is whole while the agents keep still; the controller
is in configuration mode; no block state changes. That the agents move once more before the mode is set, and that CANSTAT's other bits and every other
register are what those moves made of them, is the model's reading of R42 (log 9); that all this also holds of a reset started before an earlier one's settle
time has passed (R320) is its choice (log 20). -/
def Obligations.SpiResetEntersConfigurationMode : Prop :=
  ∀ s : State, s.cfg.wf → Memory.wf s.ext.regs →
    let e := ({ s.ext.yield s.cfg with settleLeft := s.cfg.settleMs } : External).yield s.cfg
    let a := s.cfg.regCanstat.toNat
    (∃ regs, exec .spiReset s = .next { s with ext := { e with regs := regs }, spiLog := s.spiLog ++ [.xfer [s.cfg.cmdReset] []] } ∧
      field3 (Memory.read regs a) s.cfg.bitOpmod = s.cfg.opmodeConfig ∧
      (∀ i, i < 8 → ¬(s.cfg.bitOpmod ≤ i ∧ i < s.cfg.bitOpmod + 3) → (Memory.read regs a).getLsbD i = (Memory.read e.regs a).getLsbD i) ∧
      ∀ b, b ≠ a → Memory.read regs b = Memory.read e.regs b) ∧
    (s.still 2 → e = { s.ext with env := s.ext.env.drop 2, settleLeft := s.cfg.settleMs })

/-- SPI_READ (R202): `k ≥ 1` existing registers, each with the value it has at the transaction; no register changes. Before the settle time has passed
the `k` bytes are unconstrained (R320). -/
def Obligations.SpiReadReturnsTheRegisters : Prop :=
  ∀ (s : State) (a : Byte) (k : Nat), 1 ≤ k → a.toNat + k ≤ 256 →
    (s.ext.settleLeft = 0 →
      exec (.spiRead a k) s = .next { s with
        ext := s.ext.yield s.cfg
        spiLog := s.spiLog ++
          [.xfer [s.cfg.cmdRead, a] ((List.range k).map fun i => Memory.read (s.ext.yield s.cfg).regs (a.toNat + i))] }) ∧
    ∃ e miso, exec (.spiRead a k) s = .next { s with ext := e, spiLog := s.spiLog ++ [.xfer [s.cfg.cmdRead, a] miso] } ∧
      miso.length = k ∧ e.regs = (s.ext.yield s.cfg).regs

/-- SPI_WRITE (R203): register `A + i` takes `D[i]`; every other register keeps the value it has at the transaction; no block state changes. That this
also holds before the settle time has passed (R320) is the model's choice (log 20). -/
def Obligations.SpiWriteWritesConsecutiveRegisters : Prop :=
  ∀ (s : State) (a : Byte) (d : List Byte), 1 ≤ d.length → a.toNat + d.length ≤ 256 → Memory.wf s.ext.regs →
    ∃ regs, exec (.spiWrite a d) s = .next { s with
        ext := { s.ext.yield s.cfg with regs := regs }
        spiLog := s.spiLog ++ [.xfer (s.cfg.cmdWrite :: a :: d) []] } ∧
      (∀ i (h : i < d.length), Memory.read regs (a.toNat + i) = d[i]) ∧
      ∀ b, b < a.toNat ∨ a.toNat + d.length ≤ b → Memory.read regs b = Memory.read (s.ext.yield s.cfg).regs b

/-- SPI_BITMOD (R204): the masked bits of the register take the data's bits, the others and every other register keep theirs; no block state
changes. R204 says that the chip bit-modifies only some registers and does not list them: that every register is one of them is the model's
presumption (log 26); that this also holds before the settle time has passed (R320) is its choice (log 20). -/
def Obligations.SpiBitmodChangesTheMaskedBits : Prop :=
  ∀ (s : State) (a m d : Byte), Memory.wf s.ext.regs →
    ∃ regs, exec (.spiBitmod a m d) s = .next { s with
        ext := { s.ext.yield s.cfg with regs := regs }
        spiLog := s.spiLog ++ [.xfer [s.cfg.cmdBitmod, a, m, d] []] } ∧
      (∀ i, i < 8 → (Memory.read regs a.toNat).getLsbD i =
        if m.getLsbD i then d.getLsbD i else (Memory.read (s.ext.yield s.cfg).regs a.toNat).getLsbD i) ∧
      ∀ b, b ≠ a.toNat → Memory.read regs b = Memory.read (s.ext.yield s.cfg).regs b

/-- SPI_READ_STATUS (R205): one byte comes back; no register and no block state changes. That its receive bits are CANINTF's flags is the model's
reading of R287 (log 10); before the settle time has passed the byte is unconstrained (R320). -/
def Obligations.SpiReadStatusShowsTheReceiveFlags : Prop :=
  ∀ s : State, s.cfg.wf → s.cfg.bitStRx0if ≠ s.cfg.bitStRx1if →
    ∃ (e : External) (st : Byte), exec .spiReadStatus s = .next { s with
        ext := e
        spiLog := s.spiLog ++ [.xfer [s.cfg.cmdReadStatus] [st]] } ∧
      e.regs = (s.ext.yield s.cfg).regs ∧
      (s.ext.settleLeft = 0 →
        e = s.ext.yield s.cfg ∧ st.getLsbD s.cfg.bitStRx0if = (Memory.read e.regs s.cfg.regCanintf.toNat).getLsbD s.cfg.bitRx0if ∧
        st.getLsbD s.cfg.bitStRx1if = (Memory.read e.regs s.cfg.regCanintf.toNat).getLsbD s.cfg.bitRx1if)

/-- The model's stops (log 13): a bare READ or WRITE of no register is refused, one that runs past address 0xFF faults. -/
def Obligations.BareSpiRangeStops : Prop :=
  ∀ (s : State) (a : Byte),
    exec (.spiRead a 0) s = .refused .spiFormat ∧ exec (.spiWrite a []) s = .refused .spiFormat ∧
    (∀ k, 256 < a.toNat + k → k ≠ 0 → exec (.spiRead a k) s = .fault (.noSuchRegister a.toNat k)) ∧
    ∀ d : List Byte, 256 < a.toNat + d.length → d ≠ [] → exec (.spiWrite a d) s = .fault (.noSuchRegister a.toNat d.length)

/-! ### Identifiers -/

/-- PackId (R220) and UnpackId (R221), as numbers: the register bytes of an identifier; the marker bit selects the layout; SIDL bits 4 and 2 are ignored,
and for a standard frame the EID bytes and SIDL bits 1 and 0; unpacking what was packed gives the identifier and the flag back, whatever pads a standard
header. -/
def Obligations.IdentifiersPackAndUnpack : Prop :=
  (∀ id : BitVec 29,
    (id.toNat < 2 ^ 11 → (packId id false).map BitVec.toNat = [id.toNat / 8, id.toNat % 8 * 32]) ∧
    (packId id true).map BitVec.toNat =
      [id.toNat / 2 ^ 21, id.toNat / 2 ^ 18 % 8 * 32 + 8 + id.toNat / 2 ^ 16 % 4, id.toNat / 2 ^ 8 % 256, id.toNat % 256]) ∧
  (∀ sidh sidl eid8 eid0 : Byte,
    (sidl.getLsbD 3 = true →
      (unpackId sidh sidl eid8 eid0).2 = true ∧
      (unpackId sidh sidl eid8 eid0).1.toNat =
        sidh.toNat * 2 ^ 21 + sidl.toNat / 32 * 2 ^ 18 + sidl.toNat % 4 * 2 ^ 16 + eid8.toNat * 2 ^ 8 + eid0.toNat) ∧
    (sidl.getLsbD 3 = false →
      (unpackId sidh sidl eid8 eid0).2 = false ∧ (unpackId sidh sidl eid8 eid0).1.toNat = sidh.toNat * 8 + sidl.toNat / 32)) ∧
  ∀ (id : BitVec 29) (ext : Bool) (pad0 pad1 : Byte), (ext = false → id.toNat < 2 ^ 11) →
    ∀ b0 b1 b2 b3, (packId id ext ++ if ext then [] else [pad0, pad1]) = [b0, b1, b2, b3] → unpackId b0 b1 b2 b3 = (id, ext)

/-! ### The CAN operations -/

/-- CAN_RESET (R223): the reset command, then the settle wait after which the controller is settled; CAN is offline; always OK; no other block state
changes. That this also settles a controller whose earlier settle time has not passed (R320) is the model's choice (log 20). -/
def Obligations.CanResetSettlesAndGoesOffline : Prop :=
  ∀ s : State, ∃ e, exec .canReset s = .next { s with
      ext := e
      canOnline := false
      spiLog := s.spiLog ++ [.xfer [s.cfg.cmdReset] [], .wait s.cfg.settleMs]
      replies := s.replies ++ [{ status := .ok, value := .nothing }] } ∧
    e.settleLeft = 0

/-- CAN_INIT (R222): from every state and at every bitrate the port can carry, the whole sequence for every reply of the controller, its status, and
`can_online` true exactly on OK (`CanInitRun`); no other block state changes. -/
def Obligations.CanInitFollowsItsSequence : Prop :=
  ∀ (s : State) (r : BitVec 32), ∃ t st, CanInitRun s r.toNat t st ∧
    exec (.canInit r) s = .next { t with replies := s.replies ++ [{ status := st, value := .nothing }] }

/-- CAN_INIT completes (R222, R27): where the controller keeps still but for entering normal mode at the first poll, a supported bitrate brings CAN
online with OK, after eleven transactions and the wait. Where the eight registers it programs and polls are distinct, they then hold the timing bytes, the
receive enables, the receive filters and the normal-mode request, the request register's other bits and every other register what they held before; the
scratch register holds the sentinel unless it is programmed too. That the reset itself leaves every register but CANSTAT as the controller's moves do, so that
registers keep values from before it, is the model's reading of R42, which allows any value there (log 9); that a reset started before an earlier one's settle
time has passed (R320) acts as any other is its choice (log 20). -/
def Obligations.CanInitBringsCanOnline : Prop :=
  ∀ (s : State) (r : BitVec 32) (t : BitTiming) (m : Byte) (rest : List (List Move)), s.cfg.wf → Memory.wf s.ext.regs →
    s.cfg.bitTiming.find? (fun x => x.rate = r.toNat) = some t →
    s.ext.env = List.replicate 12 [] ++ [.register s.cfg.regCanstat m] :: rest →
    field3 m s.cfg.bitOpmod = s.cfg.opmodeNormal →
    let c := s.cfg
    ∃ regs, exec (.canInit r) s = .next { s with
      ext := { s.ext with env := rest, tick := (s.ext.tick + c.settleMs) % 2 ^ c.tickBits, settleLeft := 0, regs := regs }
      canOnline := true
      spiLog := s.spiLog ++ [.xfer [c.cmdReset] [], .wait c.settleMs,
          .xfer [c.cmdWrite, c.regScratch, c.sentinel] [], .xfer [c.cmdRead, c.regScratch] [c.sentinel]] ++
        programXfers c t ++ [.xfer [c.cmdRead, c.regCanstat] [m]]
      replies := s.replies ++ [{ status := .ok, value := .nothing }] } ∧
    let programmed := [c.regCnf1, c.regCnf2, c.regCnf3, c.regCaninte, c.regRxb0ctrl, c.regRxb1ctrl, c.regCanctrl, c.regCanstat]
    let before := fun b : Nat => if b = c.regScratch.toNat then c.sentinel else Memory.read s.ext.regs b
    (programmed.Nodup →
      Memory.read regs c.regCnf1.toNat = t.cnf1 ∧ Memory.read regs c.regCnf2.toNat = t.cnf2 ∧ Memory.read regs c.regCnf3.toNat = t.cnf3 ∧
      Memory.read regs c.regCaninte.toNat = 1#8 <<< c.bitRx0ie ||| 1#8 <<< c.bitRx1ie ∧
      Memory.read regs c.regRxb0ctrl.toNat = c.rxmAny.setWidth 8 <<< c.bitRxm ||| 1#8 <<< c.bitBukt ∧
      Memory.read regs c.regRxb1ctrl.toNat = c.rxmAny.setWidth 8 <<< c.bitRxm ∧
      field3 (Memory.read regs c.regCanctrl.toNat) c.bitReqop = c.opmodeNormal ∧
      (∀ i, i < 8 → ¬(c.bitReqop ≤ i ∧ i < c.bitReqop + 3) →
        (Memory.read regs c.regCanctrl.toNat).getLsbD i = (before c.regCanctrl.toNat).getLsbD i) ∧
      Memory.read regs c.regCanstat.toNat = m ∧
      ∀ b, b ∉ programmed.map BitVec.toNat → Memory.read regs b = before b)

/-- CAN_TX (R224): online, with legal operands and the slot free, the identifier, the length clamped to 8 and at most 8 data bytes are written, then
the transmit request is set; OK; no block state changes. -/
def Obligations.CanTxProgramsAndRequests : Prop :=
  ∀ (s : State) (f : Byte) (id : BitVec 32) (d : List Byte), s.cfg.wf → s.canOnline = true → s.ext.settleLeft = 0 → f.toNat < 2 →
    id.toNat < (if f = 1#8 then 2 ^ 29 else 2 ^ 11) →
    let ctrl := Memory.read (s.ext.yield s.cfg).regs s.cfg.regTxb0ctrl.toNat
    ctrl.getLsbD s.cfg.bitTxreq = false →
    ∃ e, exec (.canTx f id d) s = .next { s with
      ext := e
      spiLog := s.spiLog ++
        [.xfer [s.cfg.cmdRead, s.cfg.regTxb0ctrl] [ctrl],
         .xfer (s.cfg.cmdWrite :: s.cfg.regTxb0sidh :: packId (id.setWidth 29) (f == 1#8)) [],
         .xfer (s.cfg.cmdWrite :: (s.cfg.regTxb0sidh + 4#8) :: BitVec.ofNat 8 (min d.length 8 * 2 ^ s.cfg.bitDlc) :: d.take 8) [],
         .xfer [s.cfg.cmdBitmod, s.cfg.regTxb0ctrl, 1#8 <<< s.cfg.bitTxreq, 1#8 <<< s.cfg.bitTxreq] []]
      replies := s.replies ++ [{ status := .ok, value := .nothing }] }

/-- What CAN_TX leaves in the controller while it keeps still (R224, R87): identifier, length and data in the transmit slot, `TXREQ` set with
TXB0CTRL's other bits as they were, and every other register as it was (for a standard frame EID8 and EID0 too). -/
def Obligations.CanTxLeavesTheSlotProgrammed : Prop :=
  ∀ (s : State) (f : Byte) (id : BitVec 32) (d : List Byte), s.cfg.wf → s.canOnline = true → s.ext.settleLeft = 0 → f.toNat < 2 →
    id.toNat < (if f = 1#8 then 2 ^ 29 else 2 ^ 11) → Memory.wf s.ext.regs → s.still 4 →
    s.cfg.regTxb0ctrl.toNat < s.cfg.regTxb0sidh.toNat →
    (Memory.read s.ext.regs s.cfg.regTxb0ctrl.toNat).getLsbD s.cfg.bitTxreq = false →
    let a := s.cfg.regTxb0sidh.toNat
    let ident := packId (id.setWidth 29) (f == 1#8)
    ∃ t, exec (.canTx f id d) s = .next t ∧
      (∀ i (h : i < ident.length), Memory.read t.ext.regs (a + i) = ident[i]) ∧
      Memory.read t.ext.regs (a + 4) = BitVec.ofNat 8 (min d.length 8 * 2 ^ s.cfg.bitDlc) ∧
      (∀ i (h : i < d.length), i < 8 → Memory.read t.ext.regs (a + 5 + i) = d[i]) ∧
      Memory.read t.ext.regs s.cfg.regTxb0ctrl.toNat =
        Memory.read s.ext.regs s.cfg.regTxb0ctrl.toNat ||| 1#8 <<< s.cfg.bitTxreq ∧
      ∀ b, b ≠ s.cfg.regTxb0ctrl.toNat → ¬(a ≤ b ∧ b < a + ident.length) → ¬(a + 4 ≤ b ∧ b < a + 5 + min d.length 8) →
        Memory.read t.ext.regs b = Memory.read s.ext.regs b

/-- R227: with a transmit request still pending, CAN_TX returns BUFFER_BUSY after exactly one transaction, and writes no register. -/
def Obligations.CanTxBusyWritesNothing : Prop :=
  ∀ (s : State) (f : Byte) (id : BitVec 32) (d : List Byte), s.cfg.wf → s.canOnline = true → s.ext.settleLeft = 0 → f.toNat < 2 →
    id.toNat < (if f = 1#8 then 2 ^ 29 else 2 ^ 11) →
    let ctrl := Memory.read (s.ext.yield s.cfg).regs s.cfg.regTxb0ctrl.toNat
    ctrl.getLsbD s.cfg.bitTxreq = true →
    exec (.canTx f id d) s = .next { s with
      ext := s.ext.yield s.cfg
      spiLog := s.spiLog ++ [.xfer [s.cfg.cmdRead, s.cfg.regTxb0ctrl] [ctrl]]
      replies := s.replies ++ [{ status := .bufferBusy, value := .nothing }] }

/-- The checks before the link (R92, R224, R229, R283): a reserved flag bit or an identifier out of range makes CAN_TX return BAD_OPERAND, online or not;
offline, CAN_TX with legal operands, CAN_RX and CAN_ERRCNT return CAN_OFFLINE; none performs an SPI transaction or changes anything else. -/
def Obligations.CanChecksComeBeforeTheLink : Prop :=
  ∀ s : State,
    (∀ (f : Byte) (id : BitVec 32) (d : List Byte), (2 ≤ f.toNat ∨ (f = 0#8 ∧ 2 ^ 11 ≤ id.toNat) ∨ 2 ^ 29 ≤ id.toNat) →
      exec (.canTx f id d) s = .next { s with replies := s.replies ++ [{ status := .badOperand, value := .nothing }] }) ∧
    (s.canOnline = false →
      let t : State := { s with replies := s.replies ++ [{ status := .canOffline, value := .nothing }] }
      (∀ (f : Byte) (id : BitVec 32) (d : List Byte), f.toNat < 2 → id.toNat < (if f = 1#8 then 2 ^ 29 else 2 ^ 11) →
        exec (.canTx f id d) s = .next t) ∧
      exec .canRx s = .next t ∧ exec .canErrcnt s = .next t)

/-- CAN_RX with no slot pending (R225): one status read, NOTHING, no register changed. -/
def Obligations.CanRxReturnsNothing : Prop :=
  ∀ s : State, s.canOnline = true → s.ext.settleLeft = 0 →
    let e := s.ext.yield s.cfg
    let st := statusByte s.cfg e
    st.getLsbD s.cfg.bitStRx0if = false → st.getLsbD s.cfg.bitStRx1if = false →
    exec .canRx s = .next { s with
      ext := e
      spiLog := s.spiLog ++ [.xfer [s.cfg.cmdReadStatus] [st]]
      replies := s.replies ++ [{ status := .nothing, value := .nothing }] }

/-- CAN_RX with a slot pending (R225, R328): slot 0 if it is pending, else slot 1; five header bytes, then `min(DLC, 8)` data bytes (no read for
0), then that slot's flag alone is cleared by bit-modify; the frame is returned with OK; no block state changes. -/
def Obligations.CanRxReadsOneSlot : Prop :=
  ∀ s : State, s.cfg.wf → Memory.wf s.ext.regs → s.canOnline = true → s.ext.settleLeft = 0 →
    let c := s.cfg
    let st := statusByte c (s.ext.yield c)
    (st.getLsbD c.bitStRx0if = true ∨ st.getLsbD c.bitStRx1if = true) →
    let base := if st.getLsbD c.bitStRx0if then c.rxBase0 else c.rxBase1
    let mask : Byte := if st.getLsbD c.bitStRx0if then 1#8 <<< c.bitRx0if else 1#8 <<< c.bitRx1if
    let h := fun i => Memory.read (External.yields c 2 s.ext).regs (base.toNat + 1 + i)
    let n := min ((h 4).toNat / 2 ^ c.bitDlc % 16) 8
    let data := (List.range n).map fun i => Memory.read (External.yields c 3 s.ext).regs (base.toNat + 6 + i)
    let last := External.yields c (if n = 0 then 3 else 4) s.ext
    let ident := unpackId (h 0) (h 1) (h 2) (h 3)
    ∃ regs, exec .canRx s = .next { s with
        ext := { last with regs := regs }
        spiLog := s.spiLog ++ [.xfer [c.cmdReadStatus] [st], .xfer [c.cmdRead, base + 1#8] [h 0, h 1, h 2, h 3, h 4]] ++
          (if n = 0 then [] else [.xfer [c.cmdRead, base + 6#8] data]) ++ [.xfer [c.cmdBitmod, c.regCanintf, mask, 0#8] []]
        replies := s.replies ++ [{ status := .ok, value := .can { id := ident.1, extended := ident.2, data := data } }] } ∧
      Memory.read regs c.regCanintf.toNat = Memory.read last.regs c.regCanintf.toNat &&& ~~~mask ∧
      ∀ b, b ≠ c.regCanintf.toNat → Memory.read regs b = Memory.read last.regs b

/-- CAN_ERRCNT (R226): TEC, REC and EFLG read verbatim in three transactions, in this order; no register and no block state changes. Before the settle time
has passed the three bytes are unconstrained (R320). -/
def Obligations.CanErrcntReadsThreeRegisters : Prop :=
  ∀ s : State, s.canOnline = true →
    let c := s.cfg
    ∃ (e : External) (tec rxc eflg : Byte), exec .canErrcnt s = .next { s with
        ext := e
        spiLog := s.spiLog ++ [.xfer [c.cmdRead, c.regTec] [tec], .xfer [c.cmdRead, c.regRec] [rxc], .xfer [c.cmdRead, c.regEflg] [eflg]]
        replies := s.replies ++ [{ status := .ok, value := .counters tec rxc eflg }] } ∧
      (s.ext.settleLeft = 0 →
        e = External.yields c 3 s.ext ∧ tec = Memory.read (External.yields c 1 s.ext).regs c.regTec.toNat ∧
        rxc = Memory.read (External.yields c 2 s.ext).regs c.regRec.toNat ∧ eflg = Memory.read (External.yields c 3 s.ext).regs c.regEflg.toNat)

/-- R206: no SPI transaction of a block operation moves more than 11 bytes. -/
def Obligations.SpiTransactionsAreBounded : Prop :=
  ∀ (i : Instr) (s t : State),
    (match i with | .spiRead _ _ => False | .spiWrite _ _ => False | _ => True) → exec i s = .next t →
    ∃ new, t.spiLog = s.spiLog ++ new ∧ ∀ x ∈ new, x.byteCount ≤ 11

/-! ### The sequencer -/

/-- SCHED_STEP (R260, R267): the four steps in their order, and OK. -/
def Obligations.SchedStepRunsTheFourStepsInOrder : Prop :=
  ∀ s : State, ∃ s1 s2 s3 s4,
    s1 = dispatchCommands s ∧ s2 = avcDrain s1 ∧ s3 = canDrain s2 ∧ s4 = flushCheck (decodePass s3) ∧
    exec .schedStep s = .next { s4 with replies := s4.replies ++ [{ status := .ok, value := .nothing }] }

/-- Command dispatch (R266, R185): the commands available at the start of the step leave the queue and are executed in arrival order; each has the effect and
the status of its operation on the state it finds (ENCODE_TX for an AVC-LAN request, CAN_TX for a CAN request, BAD_OPERAND and nothing else for numbers
outside R182's or R224's bounds, BAD_COMMAND and nothing else for one that could not be parsed), returns nothing on the command port, and gets exactly one
status event. The model's choice (log 25): that a status event's information is the command, and that an unparsed one carries no text; that numbers beyond
the operand widths of R91 are bad operands too; and that a CAN request with more than 255 data bytes, of which R224 says nothing, is clamped to 8 and sent
as every longer list is. -/
def Obligations.EveryCommandGetsOneStatusEvent : Prop :=
  (∀ s : State,
    let commands := (s.ext.yield s.cfg).hostIn
    dispatchCommands s = commands.foldl dispatchCommand { s with ext := { s.ext.yield s.cfg with hostIn := [] } } ∧
    (∃ statuses : List Status, statuses.length = commands.length ∧
      (dispatchCommands s).events = s.events ++ List.zipWith (fun st c => Event.status st (.command c)) statuses commands) ∧
    (s.still (4 * s.ext.hostIn.length + 1) → commands = s.ext.hostIn ∧ (dispatchCommands s).ext.hostIn = [])) ∧
  ∀ (s : State) (c : HostCommand), ∃ (t : State) (st : Status),
    dispatchCommand s c = { t with
      events := t.events ++ [.status st (.command c)]
      ext := { t.ext with eventsUnread := t.ext.eventsUnread + 1 } } ∧
    t.events = s.events ∧ t.replies = s.replies ∧
    match c with
    | .avcTx m sl ctl d =>
      (∀ (i j : BitVec 16) (k : Byte), i.toNat = m → j.toNat = sl → k.toNat = ctl →
        exec (.encodeTx i j k d) s = .next { t with replies := t.replies ++ [{ status := st, value := .nothing }] }) ∧
      (2 ^ 12 ≤ m ∨ 2 ^ 12 ≤ sl ∨ 2 ^ 4 ≤ ctl ∨ 32 < d.length → t = s ∧ st = .badOperand)
    | .canTx id ext d =>
      (∀ i : BitVec 32, i.toNat = id →
        exec (.canTx (if ext then 1#8 else 0#8) i d) s = .next { t with replies := t.replies ++ [{ status := st, value := .nothing }] }) ∧
      ((ext = false ∧ 2 ^ 11 ≤ id) ∨ 2 ^ 29 ≤ id → t = s ∧ st = .badOperand)
    | .unparsed => t = s ∧ st = .badCommand

/-- The AVC-LAN drain (R261): turns of the loop (`DrainTurn`) that take the words `ws`, at most AVC_DRAIN_MAX of them and fewer only when the source is then
empty; so each is pushed or dropped as RING_PUSH says, and the timestamp is the counter's value in the turn that took the last word, or stays with none
taken. While the agents keep still they are the source's oldest words, in order, and the timestamp is the counter's value. Nothing else of the block
changes. -/
def Obligations.AvcDrainPushesWhatItTakes : Prop :=
  ∀ s : State, ∃ (ws : List Word) (v : State) (e : External), DrainTurns ws s v ∧
    ((ws.length = s.cfg.avcDrainMax ∧ avcDrain s = v) ∨ (ws.length < s.cfg.avcDrainMax ∧ v.yield.ext.src = [] ∧ avcDrain s = v.yield)) ∧
    avcDrain s = { ws.foldl (fun u w => ringPush w u) s with lastRxTs := if ws = [] then s.lastRxTs else v.ext.tick, ext := e } ∧
    (s.still (2 * s.cfg.avcDrainMax + 1) →
      ws = s.ext.src.take s.cfg.avcDrainMax ∧ e.src = s.ext.src.drop s.cfg.avcDrainMax ∧ v.ext.tick = s.ext.tick ∧ e.tick = s.ext.tick)

/-- The CAN drain (R263): skipped while CAN is offline or the line, sampled once, is low; else CAN_RX is repeated, each frame emitted as a CAN event, until
a result is not OK or CAN_DRAIN_MAX frames are emitted, when no further CAN_RX runs; so at most four transactions for each are added to the link's log, and
no other block state changes. -/
def Obligations.CanDrainEmitsBoundedFrames : Prop :=
  ∀ s : State,
    ((s.canOnline = false ∨ (s.ext.yield s.cfg).canIrq = false) → canDrain s = { s with ext := s.ext.yield s.cfg }) ∧
    (s.canOnline = true → (s.ext.yield s.cfg).canIrq = true →
      canDrain s = canDrainLoop s.cfg.canDrainMax { s with ext := s.ext.yield s.cfg }) ∧
    (∀ u, canDrainLoop 0 u = u) ∧
    (∀ (n : Nat) (u : State),
      (∀ f, (canRx u).2 = { status := .ok, value := .can f } → canDrainLoop (n + 1) u = canDrainLoop n ((canRx u).1.emit (.can f))) ∧
      ((canRx u).2.status ≠ .ok → canDrainLoop (n + 1) u = (canRx u).1)) ∧
    ∃ (frames : List CanFrame) (e : External) (new : List SpiEvent), frames.length ≤ s.cfg.canDrainMax ∧
      canDrain s = { s with events := s.events ++ frames.map .can, ext := e, spiLog := s.spiLog ++ new } ∧
      new.length ≤ 4 * s.cfg.canDrainMax ∧ ∀ x ∈ new, ∃ mosi miso, x = .xfer mosi miso

/-- The decode trigger and pass (R262): more than 75 percent full, or not empty and quiet for more than IDLE_MS: a scan and the ring reset; else nothing. -/
def Obligations.DecodePassRunsOnItsTrigger : Prop :=
  ∀ s : State,
    let u : State := { s with ext := s.ext.yield s.cfg }
    let quiet := elapsedTicks s.cfg.tickBits u.ext.tick s.lastRxTs
    ((3 * s.cfg.ringWords < 4 * s.ringFill ∨ (0 < s.ringFill ∧ s.cfg.idleMs < quiet)) →
      decodePass s = { scan u with ringFill := 0, cursor := 0 }) ∧
    (4 * s.ringFill ≤ 3 * s.cfg.ringWords → (s.ringFill = 0 ∨ quiet ≤ s.cfg.idleMs) → decodePass s = u)

/-- The flush check (R264): a pending frame is emitted and cleared when the bus has been quiet for more than FLUSH_MS; else nothing. -/
def Obligations.FlushCheckRunsOnItsCondition : Prop :=
  ∀ s : State,
    let u : State := { s with ext := s.ext.yield s.cfg }
    let quiet := elapsedTicks s.cfg.tickBits u.ext.tick s.lastRxTs
    (∀ p, s.pending = some p → s.cfg.flushMs < quiet →
      flushCheck s = { u with
        pending := none
        events := s.events ++ [.avc p.frame p.count]
        ext := { u.ext with eventsUnread := u.ext.eventsUnread + 1 } }) ∧
    ((s.pending = none ∨ quiet ≤ s.cfg.flushMs) → flushCheck s = u)

/-- R268: at the end of an iteration the ring was just cleared or is at most 75 percent full; the next drain adds at most AVC_DRAIN_MAX words; and where
`floor(3 * RING_WORDS / 4) + AVC_DRAIN_MAX ≤ RING_WORDS` it drops none; in every configuration where that fails it drops one from some such state. -/
def Obligations.IterationBoundsRingOccupancy : Prop :=
  (∀ s : State, ((iteration s).ringFill = 0 ∨ 4 * (iteration s).ringFill ≤ 3 * s.cfg.ringWords) ∧ (iteration s).cfg = s.cfg) ∧
  (∀ u : State, (u.ringFill = 0 ∨ 4 * u.ringFill ≤ 3 * u.cfg.ringWords) →
    (avcDrain u).ringFill ≤ u.ringFill + u.cfg.avcDrainMax ∧
    (3 * u.cfg.ringWords / 4 + u.cfg.avcDrainMax ≤ u.cfg.ringWords →
      (avcDrain u).ringFill = u.ringFill + (drainLoop u.cfg.avcDrainMax u).2.length)) ∧
  ∀ c : Config, c.wf → c.ringWords < 3 * c.ringWords / 4 + c.avcDrainMax →
    ∃ u : State, u.cfg = c ∧ u.ring.length = c.ringWords ∧ 4 * u.ringFill ≤ 3 * c.ringWords ∧
      (avcDrain u).ringFill < u.ringFill + (drainLoop u.cfg.avcDrainMax u).2.length

/-- R284: within one iteration, the status events of the commands come first, then the CAN events, then the AVC-LAN events. -/
def Obligations.IterationEventsAreInStepOrder : Prop :=
  ∀ s : State, ∃ statuses cans avcs : List Event, (iteration s).events = s.events ++ statuses ++ cans ++ avcs ∧
    (∀ x ∈ statuses, ∃ st c, x = .status st (.command c)) ∧ (∀ x ∈ cans, ∃ f, x = .can f) ∧ (∀ x ∈ avcs, ∃ f k, x = .avc f k)

/-- R265: `Elapsed` is the unsigned difference modulo `2^TICK_BITS`, exact across one wrap, and a quiet time of a full wrap or more reads as its
remainder. -/
def Obligations.ElapsedIsTheModularDifference : Prop :=
  ∀ bits now t : Nat, now < 2 ^ bits → t < 2 ^ bits →
    (t ≤ now → elapsedTicks bits now t = now - t) ∧ (now < t → elapsedTicks bits now t = now + 2 ^ bits - t) ∧
    ∀ d, elapsedTicks bits ((t + d) % 2 ^ bits) t = d % 2 ^ bits

/-! ### Reset, boot, invariants -/

/-- R45: the reset values, for every configuration and every state of the agents; nothing is said of the ring's words, which R45 leaves unspecified. -/
def Obligations.ResetSetsTheBlockState : Prop :=
  ∀ (c : Config) (e : External),
    let s := State.resetWith c e
    s.cfg = c ∧ s.ringFill = 0 ∧ s.cursor = 0 ∧ s.pending = none ∧ s.lastRxTs = e.tick ∧ s.canOnline = false ∧ s.acc = [] ∧ s.events = [] ∧
      s.phase = .boot ∧ s.ext = e

/-- R310: device reset puts the block in its reset state and leaves the agents' queues alone; nothing is said of the ring's words but their number. That it
is presented on the port, and that the histories of outputs start again, is the model's choice (log 18, 22). -/
def Obligations.DeviceResetResetsTheBlock : Prop :=
  ∀ (s : State) (rest : List Request), s.cfg.wf → s.phase = .loop → s.ext.port = .deviceReset :: rest →
    let e := ({ s.ext with port := rest } : External).yield s.cfg
    ∃ ring : List Word, ring.length = s.cfg.ringWords ∧
      step s = .next { State.resetWith s.cfg { e with eventsUnread := 0 } with ring := ring }

/-- R311, R312: the boot step runs CAN_INIT at the boot bitrate, a natural of any size (R8), and then emits exactly one event, READY with the firmware version
and CAN_INIT's status; CAN is online exactly if that is OK; the loop follows. At a bitrate the port can carry it is the CAN_INIT of the port. -/
def Obligations.BootInitialisesCanThenAnnouncesReady : Prop :=
  ∀ s : State, s.cfg.wf → s.phase = .boot →
    ∃ u st, CanInitRun s s.cfg.canBitrate u st ∧ (u.canOnline = true ↔ st = .ok) ∧
      step s = .next { u with
        phase := .loop
        events := s.events ++ [.status .ready (.startup s.cfg.fwVersion st)]
        ext := { u.ext with eventsUnread := u.ext.eventsUnread + 1 } } ∧
      ∀ r : BitVec 32, r.toNat = s.cfg.canBitrate →
        exec (.canInit r) s = .next { u with replies := s.replies ++ [{ status := st, value := .nothing }] }

/-- R312: no step of the loop emits READY, until a device reset. -/
def Obligations.LoopNeverEmitsReady : Prop :=
  ∀ s t : State, s.phase = .loop → s.ext.port.head? ≠ some .deviceReset → step s = .next t →
    t.phase = .loop ∧ ∃ new, t.events = s.events ++ new ∧ ∀ x ∈ new, x.isReady = false

/-- Every step keeps the invariant of the machine (R21 to R30, R123). -/
def Obligations.EveryStepKeepsTheInvariant : Prop :=
  ∀ s t : State, s.Inv → step s = .next t → t.Inv

/-- The invariant holds right after reset: at State.reset (whose configuration and agents are the log's choice, log 1, 6, 7, 8), and for every well-formed
configuration and agents in range. -/
def Obligations.InvariantHoldsAtReset : Prop :=
  State.reset = State.resetWith Config.atReset External.atReset ∧ State.reset.Inv ∧
  ∀ (c : Config) (e : External), c.wf → External.Inv c e → e.eventsUnread = 0 → (State.resetWith c e).Inv

/-! ### Results -/

/-- R280: the thirteen statuses have the codes of its table, pairwise distinct; and every operation of the command port returns exactly one status, one
the table gives it (ILLEGAL_OP, BAD_COMMAND and READY belong to the port, the host command parser and the boot sequence). -/
def Obligations.EveryOperationReturnsOneStatus : Prop :=
  ([.ok, .noFrame, .nothing, .badOperand, .illegalOp, .badCommand, .sinkFull, .canOffline, .bufferBusy, .initVerifyFail, .unsupportedBitrate,
      .modeTimeout, .ready] : List Status).map Status.code =
    [0x00#8, 0x01#8, 0x02#8, 0x10#8, 0x11#8, 0x12#8, 0x20#8, 0x30#8, 0x31#8, 0x32#8, 0x33#8, 0x34#8, 0x40#8] ∧
  (∀ a b : Status, a.code = b.code → a = b) ∧
  ∀ (i : Instr) (s : State), i.onCommandPort = true →
    ∃ t st v, exec i s = .next t ∧ t.replies = s.replies ++ [{ status := st, value := v }] ∧ st ∈ i.statuses ∧ (st ≠ .ok → v = .nothing)

/-- R94: the bytes of a result: the status byte, then the fields in order, most significant byte first, a payload as its length byte and its bytes. The
widths of every field that is not a byte, and the byte of `extended`, are the model's choice (log 17). -/
def Obligations.ReplyBytesFollowTheResultFormat : Prop :=
  (∀ st, (Reply.bytes { status := st, value := .nothing }) = [st.code]) ∧
  (∀ (f : AvcFrame) (n : Nat), f.wf → n < 2 ^ 32 →
    (Reply.bytes { status := .ok, value := .frame f n }).map BitVec.toNat =
      [0, f.master.toNat / 256, f.master.toNat % 256, f.slave.toNat / 256, f.slave.toNat % 256, f.control.toNat, f.payload.length] ++
        f.payload.map BitVec.toNat ++ [n / 2 ^ 24, n / 2 ^ 16 % 256, n / 2 ^ 8 % 256, n % 256]) ∧
  (∀ n, n < 2 ^ 32 →
    (Reply.bytes { status := .ok, value := .cursor n }).map BitVec.toNat = [0, n / 2 ^ 24, n / 2 ^ 16 % 256, n / 2 ^ 8 % 256, n % 256]) ∧
  (∀ f : CanFrame, f.wf →
    (Reply.bytes { status := .ok, value := .can f }).map BitVec.toNat =
      [0, f.id.toNat / 2 ^ 24, f.id.toNat / 2 ^ 16 % 256, f.id.toNat / 2 ^ 8 % 256, f.id.toNat % 256, f.extended.toNat, f.data.length] ++
        f.data.map BitVec.toNat) ∧
  ∀ a b c : Byte, Reply.bytes { status := .ok, value := .counters a b c } = [0x00#8, a, b, c]
end

