-- ==== Sys2Proof/Laws/Memory.lean ====
section
/-! SUPPORT. The controller's register memory: every operation keeps the canonical form; a read after a write. -/

namespace Sys2Proof.Machine

theorem Memory.wf_nil : Memory.wf [] := by simp [Memory.wf]

theorem Memory.wf_tail {c : Host.Cell} {m : Memory} (h : Memory.wf (c :: m)) : Memory.wf m :=
  ⟨(List.pairwise_cons.1 h.1).2, fun d hd => h.2 d (List.mem_cons_of_mem _ hd)⟩

theorem Memory.wf_head_lt {c : Host.Cell} {m : Memory} (h : Memory.wf (c :: m)) : ∀ d ∈ m, c.1 < d.1 :=
  (List.pairwise_cons.1 h.1).1

/-- Below its first address a canonical memory lists nothing. -/
theorem Memory.read_of_lt {m : Memory} {a : Nat} (h : ∀ d ∈ m, a < d.1) : Memory.read m a = Memory.unlisted := by
  induction m with
  | nil => rfl
  | cons c m ih =>
    obtain ⟨b, v⟩ := c
    have hb : a < b := h (b, v) (by simp)
    simp only [Memory.read, if_neg (Nat.ne_of_gt hb)]
    exact ih fun d hd => h d (List.mem_cons_of_mem _ hd)

theorem Memory.write_mem {m : Memory} {a : Nat} {v : Byte} {d : Host.Cell} (h : d ∈ Memory.write m a v) :
    (d = (a, v) ∧ v ≠ Memory.unlisted) ∨ d ∈ m := by
  induction m with
  | nil =>
    simp only [Memory.write] at h
    split at h
    · exact absurd h (by simp)
    · exact .inl ⟨by simpa using h, ‹_›⟩
  | cons c m ih =>
    obtain ⟨b, w⟩ := c
    simp only [Memory.write] at h
    split at h
    · split at h
      · exact .inr h
      · rcases List.mem_cons.1 h with h | h
        · exact .inl ⟨h, ‹_›⟩
        · exact .inr h
    · split at h
      · split at h
        · exact .inr (List.mem_cons_of_mem _ h)
        · rcases List.mem_cons.1 h with h | h
          · exact .inl ⟨h, ‹_›⟩
          · exact .inr (List.mem_cons_of_mem _ h)
      · rcases List.mem_cons.1 h with h | h
        · exact .inr (by simp [h])
        · exact (ih h).imp_right (List.mem_cons_of_mem _)

/-- A write to an existing register keeps the canonical form. -/
theorem Memory.write_wf {m : Memory} {a : Nat} {v : Byte} (hm : Memory.wf m) (ha : a < 256) : Memory.wf (Memory.write m a v) := by
  refine ⟨?_, fun d hd => ?_⟩
  · induction m with
    | nil => simp only [Memory.write]; split <;> simp
    | cons c m ih =>
      obtain ⟨b, w⟩ := c
      have hlt := Memory.wf_head_lt hm
      simp only [Memory.write]
      split
      · rename_i hab
        split
        · exact hm.1
        · refine List.pairwise_cons.2 ⟨fun d hd => ?_, hm.1⟩
          rcases List.mem_cons.1 hd with rfl | hd
          · exact hab
          · exact Nat.lt_trans hab (hlt d hd)
      · split
        · rename_i hab
          split
          · exact (Memory.wf_tail hm).1
          · exact List.pairwise_cons.2 ⟨fun d hd => hab ▸ hlt d hd, (Memory.wf_tail hm).1⟩
        · refine List.pairwise_cons.2 ⟨fun d hd => ?_, ih (Memory.wf_tail hm)⟩
          rcases Memory.write_mem hd with ⟨rfl, -⟩ | hd
          · show b < a
            omega
          · exact hlt d hd
  · rcases Memory.write_mem hd with ⟨rfl, hv⟩ | hd
    · exact ⟨ha, hv⟩
    · exact hm.2 d hd

/-- Reading a register after a write: the value written, or what it held. -/
theorem Memory.read_write {m : Memory} {a : Nat} {v : Byte} (hm : Memory.wf m) (b : Nat) :
    Memory.read (Memory.write m a v) b = if b = a then v else Memory.read m b := by
  induction m with
  | nil =>
    simp only [Memory.write]
    by_cases hv : v = Memory.unlisted
    · simp [hv, Memory.read]
    · by_cases hb : b = a
      · simp [hv, Memory.read, hb]
      · simp [hv, Memory.read, hb, Ne.symm hb]
  | cons c m ih =>
    obtain ⟨d, w⟩ := c
    have hlt := Memory.wf_head_lt hm
    have ih := ih (Memory.wf_tail hm)
    simp only [Memory.write]
    by_cases had : a < d
    · have hbelow : Memory.read ((d, w) :: m) a = Memory.unlisted := by
        refine Memory.read_of_lt fun e he => ?_
        rcases List.mem_cons.1 he with rfl | he
        · exact had
        · exact Nat.lt_trans had (hlt e he)
      by_cases hv : v = Memory.unlisted
      · by_cases hb : b = a
        · simp [had, hv, hb, hbelow]
        · simp [had, hv, hb]
      · by_cases hb : b = a
        · simp [had, hv, hb, Memory.read]
        · simp [had, hv, hb, Memory.read, Ne.symm hb]
    · by_cases hd : a = d
      · subst hd
        have hrest : Memory.read m a = Memory.unlisted := Memory.read_of_lt hlt
        by_cases hv : v = Memory.unlisted
        · by_cases hb : b = a
          · simp [hv, hb, hrest]
          · simp [hv, hb, Memory.read, Ne.symm hb]
        · by_cases hb : b = a
          · simp [hv, hb, Memory.read]
          · simp [hv, hb, Memory.read, Ne.symm hb]
      · simp only [had, hd, if_false, Memory.read, ih]
        by_cases hb : b = a
        · simp [hb, Ne.symm hd]
        · simp [hb]

theorem Memory.readBytes_length (m : Memory) (a k : Nat) : (Memory.readBytes m a k).length = k := by
  simp [Memory.readBytes]

/-- Writes to consecutive existing registers keep the canonical form. -/
theorem Memory.writeBytes_wf {m : Memory} {a : Nat} {d : List Byte} (hm : Memory.wf m) (ha : a + d.length ≤ 256) :
    Memory.wf (Memory.writeBytes m a d) := by
  induction d generalizing m a with
  | nil => exact hm
  | cons v d ih =>
    simp only [List.length_cons] at ha
    exact ih (Memory.write_wf hm (by omega)) (by omega)

/-- Reading a register after consecutive writes. -/
theorem Memory.read_writeBytes {m : Memory} {a : Nat} {d : List Byte} (hm : Memory.wf m) (ha : a + d.length ≤ 256) (b : Nat) :
    Memory.read (Memory.writeBytes m a d) b = if h : a ≤ b ∧ b - a < d.length then d[b - a] else Memory.read m b := by
  induction d generalizing m a with
  | nil => simp [Memory.writeBytes]
  | cons v d ih =>
    simp only [List.length_cons] at ha
    simp only [Memory.writeBytes]
    rw [ih (Memory.write_wf hm (by omega)) (by omega), Memory.read_write hm]
    by_cases h1 : b = a
    · subst h1
      simp
    · by_cases h2 : a ≤ b ∧ b - a < d.length + 1
      · have h3 : a + 1 ≤ b ∧ b - (a + 1) < d.length := by omega
        have h4 : b - a = (b - (a + 1)) + 1 := by omega
        simp [h2.1, h3.1, h3.2, h4]
      · have h3 : ¬(a + 1 ≤ b ∧ b - (a + 1) < d.length) := by omega
        rw [dif_neg h3, if_neg h1, dif_neg (by simpa only [List.length_cons] using h2)]

end Sys2Proof.Machine
end

