-- ==== Sys2Proof/Laws/Agents.lean ====
section
/-! SUPPORT. What the agents' moves can and cannot do to the external state. -/

namespace Sys2Proof.Machine

/-- A property every single move keeps, and that does not look at the model's own fields, is kept by `External.yield`. -/
theorem External.yield_keeps {c : Config} {P : External → Prop} (hmove : ∀ e m, P e → P (applyMove c e m))
    (henv : ∀ e env draws, P e → P { e with env := env, draws := draws }) {e : External} (h : P e) : P (e.yield c) := by
  have fold : ∀ (ms : List Move) (e : External), P e → P (ms.foldl (applyMove c) e) := by
    intro ms
    induction ms with
    | nil => intro e he; exact he
    | cons m ms ih => intro e he; exact ih _ (hmove e m he)
  unfold External.yield
  split
  · exact fold _ _ (henv e e.env (e.draws + 1) h)
  · rename_i batch rest _
    exact fold _ _ (henv e rest e.draws h)

/-- The controller's memory stays canonical. -/
theorem External.yield_regs_wf (c : Config) {e : External} (h : Memory.wf e.regs) : Memory.wf (e.yield c).regs := by
  refine External.yield_keeps (P := fun e => Memory.wf e.regs) (fun e m he => ?_) (fun _ _ _ he => he) h
  cases m with
  | register a v => exact Memory.write_wf he a.isLt
  | _ => exact he

/-- The tick keeps its width. -/
theorem External.yield_tick_lt (c : Config) {e : External} (h : e.tick < 2 ^ c.tickBits) : (e.yield c).tick < 2 ^ c.tickBits := by
  refine External.yield_keeps (P := fun e => e.tick < 2 ^ c.tickBits) (fun e m he => ?_) (fun _ _ _ he => he) h
  cases m with
  | tick ms => exact Nat.mod_lt _ (Nat.two_pow_pos _)
  | _ => exact he

theorem External.yield_inv (c : Config) {e : External} (h : External.Inv c e) : External.Inv c (e.yield c) :=
  ⟨External.yield_tick_lt c h.tick, External.yield_regs_wf c h.regs⟩

/-- The settle time never grows by itself (R320). -/
theorem External.yield_settle_le (c : Config) (e : External) : (e.yield c).settleLeft ≤ e.settleLeft := by
  refine External.yield_keeps (P := fun x => x.settleLeft ≤ e.settleLeft) (fun x m hx => ?_) (fun _ _ _ hx => hx) (Nat.le_refl _)
  cases m with
  | tick ms => exact Nat.le_trans (Nat.sub_le _ _) hx
  | _ => exact hx

/-- A settled controller stays settled. -/
@[simp] theorem External.yield_settled (c : Config) {e : External} (h : e.settleLeft = 0) : (e.yield c).settleLeft = 0 :=
  Nat.le_zero.1 (h ▸ External.yield_settle_le c e)

/-- The sink only ever consumes (R34). -/
theorem External.yield_sinkHeld_le (c : Config) (e : External) : (e.yield c).sinkHeld ≤ e.sinkHeld := by
  refine External.yield_keeps (P := fun x => x.sinkHeld ≤ e.sinkHeld) (fun x m hx => ?_) (fun _ _ _ hx => hx) (Nat.le_refl _)
  cases m with
  | sink n => exact Nat.le_trans (Nat.sub_le _ _) hx
  | _ => exact hx

/-- The host only ever reads events (R31). -/
theorem External.yield_unread_le (c : Config) (e : External) : (e.yield c).eventsUnread ≤ e.eventsUnread := by
  refine External.yield_keeps (P := fun x => x.eventsUnread ≤ e.eventsUnread) (fun x m hx => ?_) (fun _ _ _ hx => hx) (Nat.le_refl _)
  cases m with
  | readEvents n => exact Nat.le_trans (Nat.sub_le _ _) hx
  | _ => exact hx

/-- With no move scripted for it, an observation changes only the script. -/
theorem External.yield_of_empty (c : Config) {e : External} {rest : List (List Move)} (h : e.env = [] :: rest) :
    e.yield c = { e with env := rest } := by
  unfold External.yield
  rw [h]
  rfl

/-- Agents that keep still for one more observation: it changes only the script, and they keep still for the rest. -/
theorem State.still_succ {n : Nat} {s : State} (h : s.still (n + 1)) :
    ∃ rest, s.ext.env = [] :: rest ∧ s.ext.yield s.cfg = { s.ext with env := rest } ∧ rest.take n = List.replicate n [] := by
  unfold State.still at h
  cases he : s.ext.env with
  | nil => simp [he, List.replicate_succ] at h
  | cons batch rest =>
    rw [he, List.take_succ_cons, List.replicate_succ, List.cons.injEq] at h
    obtain ⟨rfl, h⟩ := h
    exact ⟨rest, rfl, External.yield_of_empty _ he, h⟩

/-- Agents that keep still for a while keep still for less. -/
theorem State.still_mono {m n : Nat} {s : State} (h : s.still m) (hn : n ≤ m) : s.still n := by
  have := congrArg (List.take n) h
  rwa [List.take_take, List.take_replicate, Nat.min_eq_left hn] at this

/-- Room in the sink is never taken away by an agent. -/
theorem State.yield_hasRoom {s : State} {n : Nat} (h : s.sinkHasRoom n = true) : s.yield.sinkHasRoom n = true := by
  have hle := External.yield_sinkHeld_le s.cfg s.ext
  have key : ∀ d : Option Nat, ∀ a b : Nat, b ≤ a →
      (match d with | none => true | some depth => decide (n ≤ depth - a)) = true →
      (match d with | none => true | some depth => decide (n ≤ depth - b)) = true := by
    intro d a b hab
    cases d with
    | none => exact id
    | some depth => simp only [decide_eq_true_eq]; omega
  exact key _ _ _ hle h

end Sys2Proof.Machine
end

