-- ==== Sys2Proof/Laws/Decode.lean ====
section
/-! SUPPORT. The decoder of the command port: which byte names which operation, and what a success says of the bytes. -/

namespace Sys2Proof

/-- An opcode byte names the operation R91's map lists for it. -/
theorem opcodeOf_some {b : Byte} {o : Opcode} (h : opcodeOf b = some o) : (b, o) ∈ opcodeMap := by
  obtain ⟨row, hr, rfl⟩ := Option.map_eq_some_iff.1 h
  obtain rfl : row.1 = b := by simpa using List.find?_some hr
  exact List.mem_of_find?_eq_some hr

/-- A decoded operation says: its first byte is an opcode and the rest holds its operands (R90, R91). -/
theorem decodeOp_ok {bytes : List Byte} {i : Instr} (h : decodeOp bytes = .ok i) :
    ∃ op rest o, bytes = op :: rest ∧ opcodeOf op = some o ∧ decodeOperands o rest = some i := by
  cases bytes with
  | nil => simp [decodeOp] at h
  | cons op rest =>
    simp only [decodeOp] at h
    split at h
    · simp at h
    · rename_i o ho
      split at h
      · simp at h
      · rename_i i' hi
        obtain rfl := Except.ok.inj h
        exact ⟨op, rest, o, rfl, ho, hi⟩

/-- Counted bytes are a leading part of what follows the length byte, of that length (R90). -/
theorem countedBytes_some {n : Byte} {rest d : List Byte} (h : countedBytes n rest = some d) :
    n.toNat ≤ rest.length ∧ d = rest.take n.toNat ∧ d.length = n.toNat := by
  unfold countedBytes at h
  split at h
  · obtain rfl := Option.some.inj h
    exact ⟨‹_›, rfl, by rw [List.length_take]; omega⟩
  · simp at h

/-- The two bytes of a 16-bit value spell it (R90). -/
theorem ofBytes16_bytes16 (v : BitVec 16) : ofBytes16 (v.extractLsb' 8 8) (v.extractLsb' 0 8) = v := by
  refine BitVec.eq_of_getLsbD_eq fun i hi => ?_
  simp only [ofBytes16, BitVec.getLsbD_append, BitVec.getLsbD_extractLsb']
  interval_cases i <;> rfl

/-- The four bytes of a 32-bit value spell it (R90). -/
theorem ofBytes32_bytes32 (v : BitVec 32) :
    ofBytes32 (v.extractLsb' 24 8) (v.extractLsb' 16 8) (v.extractLsb' 8 8) (v.extractLsb' 0 8) = v := by
  refine BitVec.eq_of_getLsbD_eq fun i hi => ?_
  simp only [ofBytes32, BitVec.getLsbD_append, BitVec.getLsbD_extractLsb']
  interval_cases i <;> rfl

theorem lengthByte_toNat {d : List Byte} (h : d.length ≤ 255) : (lengthByte d).toNat = d.length := by
  simp only [lengthByte, BitVec.toNat_ofNat]
  omega

end Sys2Proof
end

