-- ==== Sys2Proof/Laws/State.lean ====
section
/-! SUPPORT. One lemma per field per update of `State`, each true by `rfl`, so that no later proof unfolds a record update. -/

namespace Sys2Proof.Machine

/-! `State.yield` changes `ext`. -/

@[simp] theorem State.yield_cfg (s : State) : s.yield.cfg = s.cfg := rfl
@[simp] theorem State.yield_ring (s : State) : s.yield.ring = s.ring := rfl
@[simp] theorem State.yield_ringFill (s : State) : s.yield.ringFill = s.ringFill := rfl
@[simp] theorem State.yield_cursor (s : State) : s.yield.cursor = s.cursor := rfl
@[simp] theorem State.yield_pending (s : State) : s.yield.pending = s.pending := rfl
@[simp] theorem State.yield_lastRxTs (s : State) : s.yield.lastRxTs = s.lastRxTs := rfl
@[simp] theorem State.yield_canOnline (s : State) : s.yield.canOnline = s.canOnline := rfl
@[simp] theorem State.yield_acc (s : State) : s.yield.acc = s.acc := rfl
@[simp] theorem State.yield_phase (s : State) : s.yield.phase = s.phase := rfl
@[simp] theorem State.yield_events (s : State) : s.yield.events = s.events := rfl
@[simp] theorem State.yield_sink (s : State) : s.yield.sink = s.sink := rfl
@[simp] theorem State.yield_spiLog (s : State) : s.yield.spiLog = s.spiLog := rfl
@[simp] theorem State.yield_replies (s : State) : s.yield.replies = s.replies := rfl
@[simp] theorem State.yield_ext (s : State) : s.yield.ext = s.ext.yield s.cfg := rfl

/-! `State.emit` changes `events`, `ext`. -/

@[simp] theorem State.emit_cfg (e : Event) (s : State) : (s.emit e).cfg = s.cfg := rfl
@[simp] theorem State.emit_ring (e : Event) (s : State) : (s.emit e).ring = s.ring := rfl
@[simp] theorem State.emit_ringFill (e : Event) (s : State) : (s.emit e).ringFill = s.ringFill := rfl
@[simp] theorem State.emit_cursor (e : Event) (s : State) : (s.emit e).cursor = s.cursor := rfl
@[simp] theorem State.emit_pending (e : Event) (s : State) : (s.emit e).pending = s.pending := rfl
@[simp] theorem State.emit_lastRxTs (e : Event) (s : State) : (s.emit e).lastRxTs = s.lastRxTs := rfl
@[simp] theorem State.emit_canOnline (e : Event) (s : State) : (s.emit e).canOnline = s.canOnline := rfl
@[simp] theorem State.emit_acc (e : Event) (s : State) : (s.emit e).acc = s.acc := rfl
@[simp] theorem State.emit_phase (e : Event) (s : State) : (s.emit e).phase = s.phase := rfl
@[simp] theorem State.emit_events (e : Event) (s : State) : (s.emit e).events = s.events ++ [e] := rfl
@[simp] theorem State.emit_sink (e : Event) (s : State) : (s.emit e).sink = s.sink := rfl
@[simp] theorem State.emit_spiLog (e : Event) (s : State) : (s.emit e).spiLog = s.spiLog := rfl
@[simp] theorem State.emit_replies (e : Event) (s : State) : (s.emit e).replies = s.replies := rfl
@[simp] theorem State.emit_ext (e : Event) (s : State) : (s.emit e).ext = { s.ext with eventsUnread := s.ext.eventsUnread + 1 } := rfl

/-! `State.reply` changes `replies`. -/

@[simp] theorem State.reply_cfg (st : Status) (v : Value) (s : State) : (s.reply st v).cfg = s.cfg := rfl
@[simp] theorem State.reply_ring (st : Status) (v : Value) (s : State) : (s.reply st v).ring = s.ring := rfl
@[simp] theorem State.reply_ringFill (st : Status) (v : Value) (s : State) : (s.reply st v).ringFill = s.ringFill := rfl
@[simp] theorem State.reply_cursor (st : Status) (v : Value) (s : State) : (s.reply st v).cursor = s.cursor := rfl
@[simp] theorem State.reply_pending (st : Status) (v : Value) (s : State) : (s.reply st v).pending = s.pending := rfl
@[simp] theorem State.reply_lastRxTs (st : Status) (v : Value) (s : State) : (s.reply st v).lastRxTs = s.lastRxTs := rfl
@[simp] theorem State.reply_canOnline (st : Status) (v : Value) (s : State) : (s.reply st v).canOnline = s.canOnline := rfl
@[simp] theorem State.reply_acc (st : Status) (v : Value) (s : State) : (s.reply st v).acc = s.acc := rfl
@[simp] theorem State.reply_phase (st : Status) (v : Value) (s : State) : (s.reply st v).phase = s.phase := rfl
@[simp] theorem State.reply_events (st : Status) (v : Value) (s : State) : (s.reply st v).events = s.events := rfl
@[simp] theorem State.reply_sink (st : Status) (v : Value) (s : State) : (s.reply st v).sink = s.sink := rfl
@[simp] theorem State.reply_spiLog (st : Status) (v : Value) (s : State) : (s.reply st v).spiLog = s.spiLog := rfl
@[simp] theorem State.reply_replies (st : Status) (v : Value) (s : State) : (s.reply st v).replies = s.replies ++ [{ status := st, value := v }] := rfl
@[simp] theorem State.reply_ext (st : Status) (v : Value) (s : State) : (s.reply st v).ext = s.ext := rfl

/-! `State.sinkPush` changes `sink`, `ext`. -/

@[simp] theorem State.sinkPush_cfg (w : Word) (s : State) : (s.sinkPush w).cfg = s.cfg := rfl
@[simp] theorem State.sinkPush_ring (w : Word) (s : State) : (s.sinkPush w).ring = s.ring := rfl
@[simp] theorem State.sinkPush_ringFill (w : Word) (s : State) : (s.sinkPush w).ringFill = s.ringFill := rfl
@[simp] theorem State.sinkPush_cursor (w : Word) (s : State) : (s.sinkPush w).cursor = s.cursor := rfl
@[simp] theorem State.sinkPush_pending (w : Word) (s : State) : (s.sinkPush w).pending = s.pending := rfl
@[simp] theorem State.sinkPush_lastRxTs (w : Word) (s : State) : (s.sinkPush w).lastRxTs = s.lastRxTs := rfl
@[simp] theorem State.sinkPush_canOnline (w : Word) (s : State) : (s.sinkPush w).canOnline = s.canOnline := rfl
@[simp] theorem State.sinkPush_acc (w : Word) (s : State) : (s.sinkPush w).acc = s.acc := rfl
@[simp] theorem State.sinkPush_phase (w : Word) (s : State) : (s.sinkPush w).phase = s.phase := rfl
@[simp] theorem State.sinkPush_events (w : Word) (s : State) : (s.sinkPush w).events = s.events := rfl
@[simp] theorem State.sinkPush_sink (w : Word) (s : State) : (s.sinkPush w).sink = s.sink ++ [w] := rfl
@[simp] theorem State.sinkPush_spiLog (w : Word) (s : State) : (s.sinkPush w).spiLog = s.spiLog := rfl
@[simp] theorem State.sinkPush_replies (w : Word) (s : State) : (s.sinkPush w).replies = s.replies := rfl
@[simp] theorem State.sinkPush_ext (w : Word) (s : State) : (s.sinkPush w).ext = { s.ext with sinkHeld := s.ext.sinkHeld + 1 } := rfl

/-! `State.logXfer` changes `spiLog`. -/

@[simp] theorem State.logXfer_cfg (mosi miso : List Byte) (s : State) : (s.logXfer mosi miso).cfg = s.cfg := rfl
@[simp] theorem State.logXfer_ring (mosi miso : List Byte) (s : State) : (s.logXfer mosi miso).ring = s.ring := rfl
@[simp] theorem State.logXfer_ringFill (mosi miso : List Byte) (s : State) : (s.logXfer mosi miso).ringFill = s.ringFill := rfl
@[simp] theorem State.logXfer_cursor (mosi miso : List Byte) (s : State) : (s.logXfer mosi miso).cursor = s.cursor := rfl
@[simp] theorem State.logXfer_pending (mosi miso : List Byte) (s : State) : (s.logXfer mosi miso).pending = s.pending := rfl
@[simp] theorem State.logXfer_lastRxTs (mosi miso : List Byte) (s : State) : (s.logXfer mosi miso).lastRxTs = s.lastRxTs := rfl
@[simp] theorem State.logXfer_canOnline (mosi miso : List Byte) (s : State) : (s.logXfer mosi miso).canOnline = s.canOnline := rfl
@[simp] theorem State.logXfer_acc (mosi miso : List Byte) (s : State) : (s.logXfer mosi miso).acc = s.acc := rfl
@[simp] theorem State.logXfer_phase (mosi miso : List Byte) (s : State) : (s.logXfer mosi miso).phase = s.phase := rfl
@[simp] theorem State.logXfer_events (mosi miso : List Byte) (s : State) : (s.logXfer mosi miso).events = s.events := rfl
@[simp] theorem State.logXfer_sink (mosi miso : List Byte) (s : State) : (s.logXfer mosi miso).sink = s.sink := rfl
@[simp] theorem State.logXfer_spiLog (mosi miso : List Byte) (s : State) : (s.logXfer mosi miso).spiLog = s.spiLog ++ [.xfer mosi miso] := rfl
@[simp] theorem State.logXfer_replies (mosi miso : List Byte) (s : State) : (s.logXfer mosi miso).replies = s.replies := rfl
@[simp] theorem State.logXfer_ext (mosi miso : List Byte) (s : State) : (s.logXfer mosi miso).ext = s.ext := rfl

/-! `State.withRegs` changes `ext`. -/

@[simp] theorem State.withRegs_cfg (m : Memory) (s : State) : (s.withRegs m).cfg = s.cfg := rfl
@[simp] theorem State.withRegs_ring (m : Memory) (s : State) : (s.withRegs m).ring = s.ring := rfl
@[simp] theorem State.withRegs_ringFill (m : Memory) (s : State) : (s.withRegs m).ringFill = s.ringFill := rfl
@[simp] theorem State.withRegs_cursor (m : Memory) (s : State) : (s.withRegs m).cursor = s.cursor := rfl
@[simp] theorem State.withRegs_pending (m : Memory) (s : State) : (s.withRegs m).pending = s.pending := rfl
@[simp] theorem State.withRegs_lastRxTs (m : Memory) (s : State) : (s.withRegs m).lastRxTs = s.lastRxTs := rfl
@[simp] theorem State.withRegs_canOnline (m : Memory) (s : State) : (s.withRegs m).canOnline = s.canOnline := rfl
@[simp] theorem State.withRegs_acc (m : Memory) (s : State) : (s.withRegs m).acc = s.acc := rfl
@[simp] theorem State.withRegs_phase (m : Memory) (s : State) : (s.withRegs m).phase = s.phase := rfl
@[simp] theorem State.withRegs_events (m : Memory) (s : State) : (s.withRegs m).events = s.events := rfl
@[simp] theorem State.withRegs_sink (m : Memory) (s : State) : (s.withRegs m).sink = s.sink := rfl
@[simp] theorem State.withRegs_spiLog (m : Memory) (s : State) : (s.withRegs m).spiLog = s.spiLog := rfl
@[simp] theorem State.withRegs_replies (m : Memory) (s : State) : (s.withRegs m).replies = s.replies := rfl
@[simp] theorem State.withRegs_ext (m : Memory) (s : State) : (s.withRegs m).ext = { s.ext with regs := m } := rfl

/-! `State.withOnline` changes `canOnline`. -/

@[simp] theorem State.withOnline_cfg (b : Bool) (s : State) : (s.withOnline b).cfg = s.cfg := rfl
@[simp] theorem State.withOnline_ring (b : Bool) (s : State) : (s.withOnline b).ring = s.ring := rfl
@[simp] theorem State.withOnline_ringFill (b : Bool) (s : State) : (s.withOnline b).ringFill = s.ringFill := rfl
@[simp] theorem State.withOnline_cursor (b : Bool) (s : State) : (s.withOnline b).cursor = s.cursor := rfl
@[simp] theorem State.withOnline_pending (b : Bool) (s : State) : (s.withOnline b).pending = s.pending := rfl
@[simp] theorem State.withOnline_lastRxTs (b : Bool) (s : State) : (s.withOnline b).lastRxTs = s.lastRxTs := rfl
@[simp] theorem State.withOnline_canOnline (b : Bool) (s : State) : (s.withOnline b).canOnline = b := rfl
@[simp] theorem State.withOnline_acc (b : Bool) (s : State) : (s.withOnline b).acc = s.acc := rfl
@[simp] theorem State.withOnline_phase (b : Bool) (s : State) : (s.withOnline b).phase = s.phase := rfl
@[simp] theorem State.withOnline_events (b : Bool) (s : State) : (s.withOnline b).events = s.events := rfl
@[simp] theorem State.withOnline_sink (b : Bool) (s : State) : (s.withOnline b).sink = s.sink := rfl
@[simp] theorem State.withOnline_spiLog (b : Bool) (s : State) : (s.withOnline b).spiLog = s.spiLog := rfl
@[simp] theorem State.withOnline_replies (b : Bool) (s : State) : (s.withOnline b).replies = s.replies := rfl
@[simp] theorem State.withOnline_ext (b : Bool) (s : State) : (s.withOnline b).ext = s.ext := rfl

/-! `State.wait` changes `ext`, `spiLog`. -/

@[simp] theorem State.wait_cfg (ms : Nat) (s : State) : (s.wait ms).cfg = s.cfg := rfl
@[simp] theorem State.wait_ring (ms : Nat) (s : State) : (s.wait ms).ring = s.ring := rfl
@[simp] theorem State.wait_ringFill (ms : Nat) (s : State) : (s.wait ms).ringFill = s.ringFill := rfl
@[simp] theorem State.wait_cursor (ms : Nat) (s : State) : (s.wait ms).cursor = s.cursor := rfl
@[simp] theorem State.wait_pending (ms : Nat) (s : State) : (s.wait ms).pending = s.pending := rfl
@[simp] theorem State.wait_lastRxTs (ms : Nat) (s : State) : (s.wait ms).lastRxTs = s.lastRxTs := rfl
@[simp] theorem State.wait_canOnline (ms : Nat) (s : State) : (s.wait ms).canOnline = s.canOnline := rfl
@[simp] theorem State.wait_acc (ms : Nat) (s : State) : (s.wait ms).acc = s.acc := rfl
@[simp] theorem State.wait_phase (ms : Nat) (s : State) : (s.wait ms).phase = s.phase := rfl
@[simp] theorem State.wait_events (ms : Nat) (s : State) : (s.wait ms).events = s.events := rfl
@[simp] theorem State.wait_sink (ms : Nat) (s : State) : (s.wait ms).sink = s.sink := rfl
@[simp] theorem State.wait_spiLog (ms : Nat) (s : State) : (s.wait ms).spiLog = s.spiLog ++ [.wait ms] := rfl
@[simp] theorem State.wait_replies (ms : Nat) (s : State) : (s.wait ms).replies = s.replies := rfl
@[simp] theorem State.wait_ext (ms : Nat) (s : State) : (s.wait ms).ext = (s.ext.yield s.cfg).advance s.cfg ms := rfl

/-! `State.taken` changes `ext`. -/

@[simp] theorem State.taken_cfg (s : State) : s.taken.cfg = s.cfg := rfl
@[simp] theorem State.taken_ring (s : State) : s.taken.ring = s.ring := rfl
@[simp] theorem State.taken_ringFill (s : State) : s.taken.ringFill = s.ringFill := rfl
@[simp] theorem State.taken_cursor (s : State) : s.taken.cursor = s.cursor := rfl
@[simp] theorem State.taken_pending (s : State) : s.taken.pending = s.pending := rfl
@[simp] theorem State.taken_lastRxTs (s : State) : s.taken.lastRxTs = s.lastRxTs := rfl
@[simp] theorem State.taken_canOnline (s : State) : s.taken.canOnline = s.canOnline := rfl
@[simp] theorem State.taken_acc (s : State) : s.taken.acc = s.acc := rfl
@[simp] theorem State.taken_phase (s : State) : s.taken.phase = s.phase := rfl
@[simp] theorem State.taken_events (s : State) : s.taken.events = s.events := rfl
@[simp] theorem State.taken_sink (s : State) : s.taken.sink = s.sink := rfl
@[simp] theorem State.taken_spiLog (s : State) : s.taken.spiLog = s.spiLog := rfl
@[simp] theorem State.taken_replies (s : State) : s.taken.replies = s.replies := rfl
@[simp] theorem State.taken_ext (s : State) : s.taken.ext = { s.ext with port := s.ext.port.tail } := rfl

/-! `State.presenting` changes `phase`, `ext`. -/

@[simp] theorem State.presenting_cfg (r : Request) (s : State) : (s.presenting r).cfg = s.cfg := rfl
@[simp] theorem State.presenting_ring (r : Request) (s : State) : (s.presenting r).ring = s.ring := rfl
@[simp] theorem State.presenting_ringFill (r : Request) (s : State) : (s.presenting r).ringFill = s.ringFill := rfl
@[simp] theorem State.presenting_cursor (r : Request) (s : State) : (s.presenting r).cursor = s.cursor := rfl
@[simp] theorem State.presenting_pending (r : Request) (s : State) : (s.presenting r).pending = s.pending := rfl
@[simp] theorem State.presenting_lastRxTs (r : Request) (s : State) : (s.presenting r).lastRxTs = s.lastRxTs := rfl
@[simp] theorem State.presenting_canOnline (r : Request) (s : State) : (s.presenting r).canOnline = s.canOnline := rfl
@[simp] theorem State.presenting_acc (r : Request) (s : State) : (s.presenting r).acc = s.acc := rfl
@[simp] theorem State.presenting_phase (r : Request) (s : State) : (s.presenting r).phase = .loop := rfl
@[simp] theorem State.presenting_events (r : Request) (s : State) : (s.presenting r).events = s.events := rfl
@[simp] theorem State.presenting_sink (r : Request) (s : State) : (s.presenting r).sink = s.sink := rfl
@[simp] theorem State.presenting_spiLog (r : Request) (s : State) : (s.presenting r).spiLog = s.spiLog := rfl
@[simp] theorem State.presenting_replies (r : Request) (s : State) : (s.presenting r).replies = s.replies := rfl
@[simp] theorem State.presenting_ext (r : Request) (s : State) : (s.presenting r).ext = { s.ext with port := r :: s.ext.port } := rfl

/-! `ringClear` changes `ringFill` and `cursor`. -/

@[simp] theorem ringClear_cfg (s : State) : (ringClear s).cfg = s.cfg := rfl
@[simp] theorem ringClear_ring (s : State) : (ringClear s).ring = s.ring := rfl
@[simp] theorem ringClear_ringFill (s : State) : (ringClear s).ringFill = 0 := rfl
@[simp] theorem ringClear_cursor (s : State) : (ringClear s).cursor = 0 := rfl
@[simp] theorem ringClear_pending (s : State) : (ringClear s).pending = s.pending := rfl
@[simp] theorem ringClear_lastRxTs (s : State) : (ringClear s).lastRxTs = s.lastRxTs := rfl
@[simp] theorem ringClear_canOnline (s : State) : (ringClear s).canOnline = s.canOnline := rfl
@[simp] theorem ringClear_acc (s : State) : (ringClear s).acc = s.acc := rfl
@[simp] theorem ringClear_phase (s : State) : (ringClear s).phase = s.phase := rfl
@[simp] theorem ringClear_events (s : State) : (ringClear s).events = s.events := rfl
@[simp] theorem ringClear_sink (s : State) : (ringClear s).sink = s.sink := rfl
@[simp] theorem ringClear_spiLog (s : State) : (ringClear s).spiLog = s.spiLog := rfl
@[simp] theorem ringClear_replies (s : State) : (ringClear s).replies = s.replies := rfl
@[simp] theorem ringClear_ext (s : State) : (ringClear s).ext = s.ext := rfl

end Sys2Proof.Machine
end

