-- ==== Sys2Proof/Laws/Decoder.lean ====
section
/-! SUPPORT. The decoder: bounds of a parse, and what coalescing, a scan and a flush can do. -/

namespace Sys2Proof.Machine

/-! ### Field reads and parses -/

theorem ringBits_length (ring : List Word) (p n : Nat) : (ringBits ring p n).length = n := by simp [ringBits]

theorem bitsValue_append (bits : List Bool) (b : Bool) : bitsValue (bits ++ [b]) = 2 * bitsValue bits + b.toNat := by
  simp [bitsValue]

theorem bitsValue_lt (bits : List Bool) : bitsValue bits < 2 ^ bits.length := by
  induction bits using List.reverseRecOn with
  | nil => simp [bitsValue]
  | append_singleton bits b ih =>
    rw [bitsValue_append, List.length_append, List.length_singleton, Nat.pow_succ]
    have := b.toNat_le
    omega

/-- Bit `i` of a bit list's value is the list's bit `i` from the end (R61). -/
theorem bitsValue_testBit (bits : List Bool) (i : Nat) : (bitsValue bits).testBit i = bits.reverse.getD i false := by
  induction bits using List.reverseRecOn generalizing i with
  | nil => simp [bitsValue]
  | append_singleton bits b ih =>
    rw [bitsValue_append, List.reverse_append, List.reverse_singleton, List.singleton_append]
    cases i with
    | zero => cases b <;> simp [Nat.testBit_zero, Nat.add_mod]
    | succ i =>
      rw [Nat.testBit_succ, List.getD_cons_succ, ← ih i]
      congr 1
      have := b.toNat_le
      omega

/-- The bits of a field's value are the ring bits from its position on, first bit most significant (R61, R141). -/
theorem fieldValue_getMsbD (ring : List Word) (p : Nat) {n i : Nat} (hi : i < n) : (fieldValue ring p n).getMsbD i = ringBit ring (p + i) := by
  have hl : n - 1 - i < (ringBits ring p n).length := by rw [ringBits_length]; omega
  simp only [BitVec.getMsbD, hi, decide_true, Bool.true_and, fieldValue, BitVec.getLsbD_ofNat, bitsValue_testBit]
  rw [List.getD_eq_getElem _ _ (by rwa [List.length_reverse]), List.getElem_reverse]
  simp only [ringBits, List.getElem_map, List.getElem_range, List.length_map, List.length_range, show n - 1 - i < n by omega, decide_true,
    Bool.true_and]
  congr 2
  omega

/-- What a field read sees of two rings that agree on its positions. -/
theorem field_congr {ring ring' : List Word} {p n : Nat} (h : ∀ b, p ≤ b → b < p + n + 1 → ringBit ring b = ringBit ring' b) :
    fieldValue ring p n = fieldValue ring' p n ∧ fieldValid ring p n = fieldValid ring' p n := by
  have h1 : ringBits ring p n = ringBits ring' p n :=
    List.map_congr_left fun i hi => h _ (Nat.le_add_right _ _) (by have := List.mem_range.1 hi; omega)
  have h2 : fieldValue ring p n = fieldValue ring' p n := by simp only [fieldValue, h1]
  exact ⟨h2, by simp only [fieldValid, h2, h (p + n) (by omega) (by omega)]⟩

/-- ReadField says: the field and its parity bit lie in the filled region and the parity holds, or nothing (R141). -/
theorem readField_some {ring : List Word} {fill p n : Nat} {v : BitVec n} :
    readField ring fill p n = some v ↔ p + n + 1 ≤ fill * 32 ∧ fieldValid ring p n = true ∧ fieldValue ring p n = v := by
  unfold readField wordBits
  by_cases h : p + n + 1 > fill * 32
  · simp only [h, if_true, reduceCtorEq, false_iff]
    omega
  · by_cases hv : fieldValid ring p n = true
    · simp only [h, hv, if_true, if_false, Option.some.injEq, true_and]
      exact ⟨fun e => ⟨by omega, e⟩, fun e => e.2⟩
    · simp [h, hv]

/-- The payload loop says: as many bytes as asked for, all inside the filled region (R142). -/
theorem readPayload_bounds {ring : List Word} {fill : Nat} {count q : Nat} {d : List Byte} (h : readPayload ring fill count q = some d) :
    d.length = count ∧ (0 < count → q + 9 * count ≤ fill * 32) := by
  induction count generalizing q d with
  | zero =>
    simp only [readPayload, Option.some.injEq] at h
    exact ⟨by simp [← h], by simp⟩
  | succ count ih =>
    simp only [readPayload] at h
    cases hb : readField ring fill q 8 with
    | none => simp [hb] at h
    | some b =>
      rw [hb] at h
      obtain ⟨d', hd', rfl⟩ := Option.map_eq_some_iff.1 h
      have hq := (readField_some.1 hb).1
      obtain ⟨hl, hr⟩ := ih hd'
      exact ⟨by simp [hl], fun _ => by by_cases hc : 0 < count <;> [(have := hr hc; omega); omega]⟩

/-- ParseAt says of what it yields: a well-formed frame, its length, inside the filled region (R142, R143). -/
theorem parseAt_bounds {ring : List Word} {fill p : Nat} {f : AvcFrame} {n : Nat} (h : parseAt ring fill p = some (f, n)) :
    f.wf ∧ n = 40 + 9 * f.payload.length ∧ p + n ≤ fill * 32 := by
  unfold parseAt at h
  split at h
  · simp at h
  · split at h
    · simp at h
    · split at h
      · simp at h
      · split at h
        · simp at h
        · rename_i len hlen
          split at h
          · simp at h
          · rename_i hmax
            obtain ⟨d, hd, he⟩ := Option.map_eq_some_iff.1 h
            obtain ⟨rfl, rfl⟩ := Prod.mk.inj he
            obtain ⟨hl, hq⟩ := readPayload_bounds hd
            have hp := (readField_some.1 hlen).1
            refine ⟨?_, by simp only [hl], ?_⟩
            · simp only [AvcFrame.wf, hl]
              omega
            · by_cases hc : 0 < len.toNat
              · have := hq hc
                omega
              · omega

/-- DecodeAt says of what it yields: a well-formed frame that consumes at least 40 positions of the filled region (R145, R24). -/
theorem decodeAt_bounds {ring : List Word} {fill p : Nat} {f : AvcFrame} {n : Nat} (h : decodeAt ring fill p = some (f, n)) :
    f.wf ∧ 40 ≤ n ∧ p + n ≤ fill * 32 := by
  unfold decodeAt at h
  cases hp : parseAt ring fill p with
  | some r =>
    rw [hp] at h
    obtain rfl := Option.some.inj h
    obtain ⟨hw, hn, hb⟩ := parseAt_bounds hp
    exact ⟨hw, by omega, hb⟩
  | none =>
    rw [hp] at h
    obtain ⟨⟨f', n'⟩, hr, he⟩ := Option.map_eq_some_iff.1 h
    obtain ⟨rfl, rfl⟩ := Prod.mk.inj he
    obtain ⟨hw, hn, hb⟩ := parseAt_bounds hr
    exact ⟨hw, by omega, by omega⟩

theorem readField_congr {ring ring' : List Word} {fill : Nat} (h : ∀ b, b < fill * 32 → ringBit ring b = ringBit ring' b) (p n : Nat) :
    readField ring fill p n = readField ring' fill p n := by
  unfold readField wordBits
  split
  · rfl
  · obtain ⟨h1, h2⟩ := field_congr (ring := ring) (ring' := ring') (p := p) (n := n) fun b _ hb => h b (by omega)
    rw [h1, h2]

theorem readPayload_congr {ring ring' : List Word} {fill : Nat} (h : ∀ b, b < fill * 32 → ringBit ring b = ringBit ring' b) (count q : Nat) :
    readPayload ring fill count q = readPayload ring' fill count q := by
  induction count generalizing q with
  | zero => rfl
  | succ count ih => simp only [readPayload, readField_congr h, ih]

/-- A parse looks only at the filled region (R21, R143). -/
theorem parseAt_congr {ring ring' : List Word} {fill : Nat} (h : ∀ b, b < fill * 32 → ringBit ring b = ringBit ring' b) (p : Nat) :
    parseAt ring fill p = parseAt ring' fill p := by
  simp only [parseAt, readField_congr h, readPayload_congr h]

/-! ### Coalescing, scan, flush -/

/-- `t` comes from `s` by decoding alone: the cursor and the pending frame change and AVC-LAN events are emitted; the pending frame and the events stay
well formed (R25, R31). -/
def AvcRun (s t : State) : Prop :=
  ∃ cursor pending new, t = { s with
      cursor := cursor
      pending := pending
      events := s.events ++ new
      ext := { s.ext with eventsUnread := s.ext.eventsUnread + new.length } } ∧
    (∀ x ∈ new, ∃ f k, x = .avc f k) ∧
    ((∀ p, s.pending = some p → p.wf) → (∀ p, pending = some p → p.wf) ∧ ∀ x ∈ new, x.wf)

theorem AvcRun.refl (s : State) : AvcRun s s := ⟨s.cursor, s.pending, [], by simp, by simp, fun h => ⟨h, by simp⟩⟩

theorem AvcRun.trans {s t u : State} (h : AvcRun s t) (h' : AvcRun t u) : AvcRun s u := by
  obtain ⟨c, p, new, rfl, ha, hw⟩ := h
  obtain ⟨c', p', new', rfl, ha', hw'⟩ := h'
  refine ⟨c', p', new ++ new', ?_, fun x hx => ?_, fun hs => ?_⟩
  · simp [Nat.add_assoc]
  · exact (List.mem_append.1 hx).elim (ha x) (ha' x)
  · obtain ⟨hp, he⟩ := hw hs
    obtain ⟨hp', he'⟩ := hw' hp
    exact ⟨hp', fun x hx => (List.mem_append.1 hx).elim (he x) (he' x)⟩

theorem avcRun_cursor (s : State) (c : Nat) : AvcRun s { s with cursor := c } :=
  ⟨c, s.pending, [], by simp, by simp, fun h => ⟨h, by simp⟩⟩

/-- Coalesce says: the frame is pending afterwards; a different frame that was pending is emitted (R147). -/
theorem avcRun_coalesce {f : AvcFrame} (hf : f.wf) (s : State) : AvcRun s (coalesce f s) := by
  unfold coalesce
  cases hp : s.pending with
  | none => exact ⟨s.cursor, _, [], by simp; rfl, by simp, fun _ => ⟨fun p h => by obtain rfl := Option.some.inj h; exact ⟨Nat.le_refl _, hf⟩, by simp⟩⟩
  | some p =>
    by_cases h : p.frame = f
    · simp only [h, if_true]
      exact ⟨s.cursor, _, [], by simp; rfl, by simp,
        fun _ => ⟨fun p' h' => by obtain rfl := Option.some.inj h'; exact ⟨Nat.succ_le_succ (Nat.zero_le _), hf⟩, by simp⟩⟩
    · simp only [h, if_false]
      refine ⟨s.cursor, _, [.avc p.frame p.count], rfl, by simp, fun hw => ⟨fun p' h' => ?_, fun x hx => ?_⟩⟩
      · obtain rfl := Option.some.inj h'
        exact ⟨Nat.le_refl _, hf⟩
      · obtain rfl := List.mem_singleton.1 hx
        exact hw p hp

/-- A scan with a parser whose frames are well formed is decoding alone (R146). -/
theorem avcRun_scanLoop {dec : List Word → Nat → Nat → Option (AvcFrame × Nat)}
    (hdec : ∀ ring fill p f n, dec ring fill p = some (f, n) → f.wf) (fuel : Nat) (s : State) : AvcRun s (scanLoop dec fuel s) := by
  induction fuel generalizing s with
  | zero => exact .refl s
  | succ fuel ih =>
    unfold scanLoop
    split
    · split
      · rename_i f n h
        exact ((avcRun_coalesce (hdec _ _ _ _ _ h) s).trans (avcRun_cursor _ _)).trans (ih _)
      · exact (avcRun_cursor _ _).trans (ih _)
    · exact .refl s

/-- SCAN says: decoding alone (R146). -/
theorem avcRun_scan (s : State) : AvcRun s (scan s) :=
  (avcRun_cursor s 0).trans (avcRun_scanLoop (fun _ _ _ _ _ h => (decodeAt_bounds h).1) _ _)

/-- The scan's cursor never passes the filled length (R24). -/
theorem scanLoop_cursor_le (fuel : Nat) {s : State} (h : s.cursor ≤ s.filledBits) :
    (scanLoop decodeAt fuel s).cursor ≤ (scanLoop decodeAt fuel s).filledBits := by
  induction fuel generalizing s with
  | zero => exact h
  | succ fuel ih =>
    unfold scanLoop
    split
    · rename_i hc
      split
      · rename_i f n hd
        refine ih ?_
        obtain ⟨c, p, new, he, -⟩ := avcRun_coalesce (decodeAt_bounds hd).1 s
        rw [he]
        exact (decodeAt_bounds hd).2.2
      · exact ih (by simp only [State.filledBits, wordBits, minFrameBits] at *; omega)
    · exact h

/-- FLUSH says: the pending frame, if any, is emitted and cleared (R148). -/
theorem avcRun_flush (s : State) : AvcRun s (flush s) := by
  unfold flush
  cases hp : s.pending with
  | none => exact .refl s
  | some p =>
    refine ⟨s.cursor, none, [.avc p.frame p.count], rfl, by simp, fun hw => ⟨by simp, fun x hx => ?_⟩⟩
    obtain rfl := List.mem_singleton.1 hx
    exact hw p hp

end Sys2Proof.Machine
end

