-- ==== Sys2Proof/Laws/Encoder.lean ====
section
/-! SUPPORT. The encoder: what appending bits can do, and what ENCODE_TX can. -/

namespace Sys2Proof.Machine

/-- The bits of chunk `k` of a bit list. -/
def chunk (bits : List Bool) (k : Nat) : List Bool := (bits.drop (32 * k)).take 32

theorem appendBit_of_lt {s : State} (x : Bool) (h : s.acc.length < 31) : appendBit s x = { s with acc := s.acc ++ [x] } := by
  simp only [appendBit, List.length_append, List.length_singleton, wordBits]
  rw [if_neg (by omega)]

theorem appendBit_of_full {s : State} (x : Bool) (h : s.acc.length = 31) :
    appendBit s x = { s.sinkPush (pack (s.acc ++ [x])) with acc := [] } := by
  simp only [appendBit, List.length_append, List.length_singleton, wordBits]
  rw [if_pos (by omega)]

/-- AppendBit says, of a whole bit list at once: every complete chunk is pushed as one word, the rest stays in the accumulator (R181). -/
theorem foldl_appendBit {s : State} (h : s.acc = []) (bits : List Bool) :
    bits.foldl appendBit s = { s with
      acc := bits.drop (32 * (bits.length / 32))
      sink := s.sink ++ (List.range (bits.length / 32)).map fun k => pack (chunk bits k)
      ext := { s.ext with sinkHeld := s.ext.sinkHeld + bits.length / 32 } } := by
  induction bits using List.reverseRecOn with
  | nil =>
    cases s
    simp only at h
    simp [h]
  | append_singleton bits x ih =>
    rw [List.foldl_append, List.foldl_cons, List.foldl_nil, ih]
    have hlen : (bits.drop (32 * (bits.length / 32))).length = bits.length % 32 := by rw [List.length_drop]; omega
    have hold : ∀ k, k < bits.length / 32 → chunk (bits ++ [x]) k = chunk bits k := by
      intro k hk
      simp only [chunk]
      rw [List.drop_append_of_le_length (by omega), List.take_append_of_le_length (by rw [List.length_drop]; omega)]
    have hmap : ∀ n, n ≤ bits.length / 32 →
        ((List.range n).map fun k => pack (chunk (bits ++ [x]) k)) = (List.range n).map fun k => pack (chunk bits k) := by
      intro n hn
      exact List.map_congr_left fun k hk => by rw [hold k (Nat.lt_of_lt_of_le (List.mem_range.1 hk) hn)]
    by_cases hc : bits.length % 32 = 31
    · rw [appendBit_of_full _ (by rw [hlen, hc])]
      have hd : (bits ++ [x]).length / 32 = bits.length / 32 + 1 := by simp; omega
      have hlast : chunk (bits ++ [x]) (bits.length / 32) = bits.drop (32 * (bits.length / 32)) ++ [x] := by
        simp only [chunk]
        rw [List.drop_append_of_le_length (by omega), List.take_of_length_le (by simp; omega)]
      rw [hd, List.range_succ, List.map_append, hmap _ (Nat.le_refl _), List.map_singleton, hlast]
      simp [State.sinkPush, Nat.add_assoc]
      omega
    · rw [appendBit_of_lt _ (by rw [hlen]; omega)]
      have hd : (bits ++ [x]).length / 32 = bits.length / 32 := by simp; omega
      rw [hd, hmap _ (Nat.le_refl _), List.drop_append_of_le_length (by omega)]

/-- Bit `31 - j` of a packed word is bit `j` of the list (R181). -/
theorem pack_getLsbD (bits : List Bool) {j : Nat} (hj : j < 32) : (pack bits).getLsbD (31 - j) = bits.getD j false := by
  have h : (List.range 32).foldl (fun v j => 2 * v + (bits.getD j false).toNat) 0 = bitsValue ((List.range 32).map fun j => bits.getD j false) := by
    rw [bitsValue, List.foldl_map]
  simp only [pack, h, BitVec.getLsbD_ofNat, bitsValue_testBit, show 31 - j < 32 by omega, decide_true, Bool.true_and]
  rw [List.getD_eq_getElem _ _ (by simp; omega), List.getElem_reverse]
  simp only [List.length_map, List.length_range, List.getElem_map, List.getElem_range]
  congr 1
  omega

theorem appendField_eq {n : Nat} (v : BitVec n) (s : State) : appendField v s = (fieldBits v).foldl appendBit s := rfl

theorem fieldBits_length {n : Nat} (v : BitVec n) : (fieldBits v).length = n + 1 := by simp [fieldBits]

/-- Serializing is appending the frame's bits, then pushing the partial word (R182). -/
theorem serialize_eq (f : AvcFrame) (s : State) : serialize f s = pushPartial ((frameBits f).foldl appendBit { s with acc := [] }) := by
  have h : ∀ (d : List Byte) (s : State), d.foldl (fun s b => appendField b s) s = (d.flatMap fieldBits).foldl appendBit s := by
    intro d
    induction d with
    | nil => intro s; rfl
    | cons b d ih => intro s; rw [List.flatMap_cons, List.foldl_append, List.foldl_cons, ih]; rfl
  simp only [serialize, frameBits, List.foldl_append, h]
  rfl

theorem frameBits_length (f : AvcFrame) : (frameBits f).length = 40 + 9 * f.payload.length := by
  have h : ∀ d : List Byte, (d.flatMap fieldBits).length = 9 * d.length := by
    intro d
    induction d with
    | nil => rfl
    | cons b d ih => rw [List.flatMap_cons, List.length_append, ih, fieldBits_length, List.length_cons]; omega
  simp only [frameBits, List.length_append, fieldBits_length, h]

/-- `t` comes from `s` by serializing words to the sink: only the sink, its count and the accumulator change; the accumulator is empty. -/
def SinkRun (s t : State) : Prop :=
  ∃ new, t = { s with
    acc := []
    sink := s.sink ++ new
    ext := { s.ext with sinkHeld := s.ext.sinkHeld + new.length } }

theorem pushPartial_run (s : State) : SinkRun s (pushPartial s) := by
  unfold pushPartial
  split
  · exact ⟨[_], rfl⟩
  · rename_i h
    refine ⟨[], ?_⟩
    have ha : s.acc = [] := List.eq_nil_of_length_eq_zero (Nat.le_zero.1 (Nat.not_lt.1 h))
    cases s
    simp only at ha
    simp [ha]

/-- Serialize says: words are pushed and the accumulator is empty (R182). -/
theorem serialize_run (f : AvcFrame) (s : State) : SinkRun s (serialize f s) := by
  rw [serialize_eq, foldl_appendBit rfl]
  obtain ⟨new, h⟩ := pushPartial_run { s with
    acc := (frameBits f).drop (32 * ((frameBits f).length / 32))
    sink := s.sink ++ (List.range ((frameBits f).length / 32)).map fun k => pack (chunk (frameBits f) k)
    ext := { s.ext with sinkHeld := s.ext.sinkHeld + (frameBits f).length / 32 } }
  exact ⟨((List.range ((frameBits f).length / 32)).map fun k => pack (chunk (frameBits f) k)) ++ new, h.trans (by simp [Nat.add_assoc])⟩

/-- ENCODE_TX says: a bad operand does nothing; else the agents move, and SINK_FULL does nothing more, OK serializes the frame (R182). -/
theorem encodeTx_spec (m sl : BitVec 16) (c : Byte) (d : List Byte) (s : State) :
    encodeTx m sl c d s = (s, .badOperand) ∨ encodeTx m sl c d s = (s.yield, .sinkFull) ∨
      ∃ t, encodeTx m sl c d s = (t, .ok) ∧ SinkRun s.yield t := by
  unfold encodeTx
  split
  · simp only
    split
    · exact .inr (.inr ⟨_, rfl, serialize_run _ _⟩)
    · exact .inr (.inl rfl)
  · exact .inl rfl

end Sys2Proof.Machine
end

