-- ==== Sys2Proof/Laws/Flags.lean ====
section
/-! SUPPORT. The bit fields of a register: reading a bit or a field after a masked write, and the small facts about masks and identifiers. -/

namespace Sys2Proof.Machine

/-- A masked write, bit by bit (R204). -/
theorem maskedWrite_getLsbD (old mask data : Byte) {i : Nat} (hi : i < 8) :
    (maskedWrite old mask data).getLsbD i = if mask.getLsbD i then data.getLsbD i else old.getLsbD i := by
  simp only [maskedWrite, BitVec.getLsbD_or, BitVec.getLsbD_and, BitVec.getLsbD_not, hi, decide_true, Bool.true_and]
  cases mask.getLsbD i <;> simp

theorem bitMask_getLsbD {i j : Nat} (hi : i < 8) (hj : j < 8) : (bitMask i).getLsbD j = decide (j = i) := by
  interval_cases i <;> interval_cases j <;> rfl

/-- Setting one bit, bit by bit. -/
theorem withBit_getLsbD (v : Byte) (b : Bool) {i j : Nat} (hi : i < 8) (hj : j < 8) :
    (withBit v i b).getLsbD j = if j = i then b else v.getLsbD j := by
  rw [withBit, maskedWrite_getLsbD _ _ _ hj, bitMask_getLsbD hi hj]
  by_cases h : j = i
  · cases b <;> simp [h, bitMask_getLsbD hi hi]
  · simp [h]

/-- Testing a register against one bit's mask. -/
theorem and_bitMask_ne_zero (v : Byte) {i : Nat} (hi : i < 8) : v &&& bitMask i ≠ 0#8 ↔ v.getLsbD i = true := by
  revert v
  interval_cases i <;> decide +kernel

/-- A 3-bit field reads back what a masked write put there (R41). -/
theorem field3_maskedWrite (old : Byte) (x : BitVec 3) {lo : Nat} (h : lo ≤ 5) : field3 (maskedWrite old (mask3 lo) (place3 x lo)) lo = x := by
  revert old x
  interval_cases lo <;> decide +kernel

/-- Outside the field, the bits of a masked write of a 3-bit field are the old ones (R204). -/
theorem maskedWrite_mask3_off (old data : Byte) {lo i : Nat} (hlo : lo ≤ 5) (hi : i < 8) (h : ¬(lo ≤ i ∧ i < lo + 3)) :
    (maskedWrite old (mask3 lo) data).getLsbD i = old.getLsbD i := by
  have hm : (mask3 lo).getLsbD i = false := by
    revert h
    interval_cases lo <;> interval_cases i <;> decide
  rw [maskedWrite_getLsbD _ _ _ hi, hm]
  rfl

/-- The received count, as a number (R87, R225). -/
theorem dlcCount_eq (c : Config) (v : Byte) : dlcCount c v = min (v.toNat / 2 ^ c.bitDlc % 16) 8 := by
  rw [dlcCount, field4, BitVec.extractLsb'_toNat, Nat.shiftRight_eq_div_pow]

/-- The transmitted length byte, as a number (R87, R224). -/
theorem dlcByte_eq {c : Config} (h : c.bitDlc ≤ 4) {n : Nat} (hn : n ≤ 8) : dlcByte c n = BitVec.ofNat 8 (n * 2 ^ c.bitDlc) := by
  rw [dlcByte, place4]
  revert h
  generalize c.bitDlc = lo
  intro h
  interval_cases lo <;> interval_cases n <;> rfl

/-- The count that was transmitted is the count received (R87). -/
theorem dlcCount_dlcByte {c : Config} (h : c.bitDlc ≤ 4) {n : Nat} (hn : n ≤ 8) : dlcCount c (dlcByte c n) = n := by
  rw [dlcCount_eq, dlcByte_eq h hn]
  revert h
  generalize c.bitDlc = lo
  intro h
  interval_cases lo <;> interval_cases n <;> rfl

/-- Legal flags of CAN_TX are 0 or 1 (R92). -/
theorem canFlagsOk_iff (f : Byte) : canFlagsOk f = true ↔ f.toNat < 2 := by
  revert f
  decide +kernel

theorem canFlagsExt_of_lt {f : Byte} (h : f.toNat < 2) : canFlagsExt f = (f == 1#8) := by
  revert f
  decide +kernel

end Sys2Proof.Machine
end

