-- ==== Sys2Proof/Laws/PerInstr.lean ====
section
/-! SUPPORT. Statements about every instruction as syntax, one lemma for each constructor. -/

namespace Sys2Proof.Laws

open Sys2Proof.Machine

/-- The encoding of a well-formed instruction has its own form: on the command port exactly the length R91 gives its first byte (and length byte); on the
SPI link one of R88's five command bytes first. -/
def EncodedForm.Statement (i : Instr) : Prop :=
  WellFormed i → ∀ c : Config,
    match encode c i with
    | .op bytes => operationLength bytes = some bytes.length
    | .spi mosi _ => ∃ cmd args, mosi = cmd :: args ∧ cmd ∈ c.cmdBytes
    | .deviceReset => False

theorem EncodedForm.ringPush (w : Word) : EncodedForm.Statement (.ringPush w) := fun _ _ => rfl
theorem EncodedForm.ringClear : EncodedForm.Statement .ringClear := fun _ _ => rfl
theorem EncodedForm.parseAt (p : BitVec 32) : EncodedForm.Statement (.parseAt p) := fun _ _ => rfl
theorem EncodedForm.decodeAt (p : BitVec 32) : EncodedForm.Statement (.decodeAt p) := fun _ _ => rfl
theorem EncodedForm.scan : EncodedForm.Statement .scan := fun _ _ => rfl
theorem EncodedForm.flush : EncodedForm.Statement .flush := fun _ _ => rfl

theorem EncodedForm.encodeTx (m s : BitVec 16) (c : Byte) (d : List Byte) : EncodedForm.Statement (.encodeTx m s c d) := by
  intro h cfg
  have hd : d.length ≤ 255 := by simpa [WellFormed, wellFormed] using h
  show some (7 + (lengthByte d).toNat) = some (d.length + 7)
  rw [lengthByte_toNat hd, Nat.add_comm]

theorem EncodedForm.canReset : EncodedForm.Statement .canReset := fun _ _ => rfl
theorem EncodedForm.canInit (r : BitVec 32) : EncodedForm.Statement (.canInit r) := fun _ _ => rfl

theorem EncodedForm.canTx (f : Byte) (id : BitVec 32) (d : List Byte) : EncodedForm.Statement (.canTx f id d) := by
  intro h cfg
  have hd : d.length ≤ 255 := by simpa [WellFormed, wellFormed] using h
  show some (7 + (lengthByte d).toNat) = some (d.length + 7)
  rw [lengthByte_toNat hd, Nat.add_comm]

theorem EncodedForm.canRx : EncodedForm.Statement .canRx := fun _ _ => rfl
theorem EncodedForm.canErrcnt : EncodedForm.Statement .canErrcnt := fun _ _ => rfl
theorem EncodedForm.schedStep : EncodedForm.Statement .schedStep := fun _ _ => rfl
theorem EncodedForm.spiReset : EncodedForm.Statement .spiReset := fun _ _ => ⟨_, _, rfl, by simp [Config.cmdBytes]⟩
theorem EncodedForm.spiRead (a : Byte) (k : Nat) : EncodedForm.Statement (.spiRead a k) := fun _ _ => ⟨_, _, rfl, by simp [Config.cmdBytes]⟩
theorem EncodedForm.spiWrite (a : Byte) (d : List Byte) : EncodedForm.Statement (.spiWrite a d) := fun _ _ => ⟨_, _, rfl, by simp [Config.cmdBytes]⟩
theorem EncodedForm.spiBitmod (a m d : Byte) : EncodedForm.Statement (.spiBitmod a m d) := fun _ _ => ⟨_, _, rfl, by simp [Config.cmdBytes]⟩
theorem EncodedForm.spiReadStatus : EncodedForm.Statement .spiReadStatus := fun _ _ => ⟨_, _, rfl, by simp [Config.cmdBytes]⟩

end Sys2Proof.Laws
end

