-- ==== Sys2Proof/Laws/Ring.lean ====
section
/-! SUPPORT. The bit ring: what a push can do, and which words a bit read looks at. -/

namespace Sys2Proof.Machine

theorem ringPush_of_lt {s : State} (w : Word) (h : s.ringFill < s.cfg.ringWords) :
    ringPush w s = { s with ring := s.ring.set s.ringFill w, ringFill := s.ringFill + 1 } := if_pos h

theorem ringPush_of_full {s : State} (w : Word) (h : s.cfg.ringWords ≤ s.ringFill) : ringPush w s = s :=
  if_neg (Nat.not_lt.2 h)

/-- RING_PUSH says: only the ring and its fill change; the ring keeps its size, the fill grows by at most one and stays within the capacity; no word below
the fill changes (R121). -/
theorem ringPush_spec (w : Word) (s : State) :
    ∃ ring fill, ringPush w s = { s with ring := ring, ringFill := fill } ∧ ring.length = s.ring.length ∧ s.ringFill ≤ fill ∧
      fill ≤ s.ringFill + 1 ∧ (s.ringFill ≤ s.cfg.ringWords → fill ≤ s.cfg.ringWords) ∧ ∀ i, i < s.ringFill → ring[i]? = s.ring[i]? := by
  by_cases h : s.ringFill < s.cfg.ringWords
  · exact ⟨_, _, ringPush_of_lt w h, by simp, Nat.le_succ _, Nat.le_refl _, fun _ => h, fun i hi => List.getElem?_set_ne (Nat.ne_of_gt hi)⟩
  · exact ⟨s.ring, s.ringFill, ringPush_of_full w (Nat.not_lt.1 h), rfl, Nat.le_refl _, Nat.le_succ _, id, fun _ _ => rfl⟩

/-- A bit read looks at one word (R60, R120). -/
theorem ringBit_congr {ring ring' : List Word} {b : Nat} (h : ring[b / 32]? = ring'[b / 32]?) : ringBit ring b = ringBit ring' b := by
  simp only [ringBit, List.getD_eq_getElem?_getD, h]

/-- A bit of the filled region depends only on the filled words (R21). -/
theorem ringBit_of_take {ring ring' : List Word} {fill b : Nat} (h : ring.take fill = ring'.take fill) (hb : b < fill * 32) :
    ringBit ring b = ringBit ring' b := by
  have hk : b / 32 < fill := by omega
  refine ringBit_congr ?_
  rw [← List.getElem?_take_of_lt hk, ← List.getElem?_take_of_lt (l := ring') hk, h]

end Sys2Proof.Machine
end

