-- ==== Sys2Proof/Laws/SpiLink.lean ====
section
/-! SUPPORT. What an SPI transaction, and a sequence of them, can do: the agents' state and the link's log change, nothing else of the machine does. -/

namespace Sys2Proof.Machine

/-- From `e` the agents can be at `e'` after transactions and moves: the invariant is kept and the host has only read events. -/
structure External.Follows (c : Config) (e e' : External) : Prop where
  inv : External.Inv c e → External.Inv c e'
  unread : e'.eventsUnread ≤ e.eventsUnread

theorem External.Follows.refl (c : Config) (e : External) : External.Follows c e e := ⟨id, Nat.le_refl _⟩

theorem External.Follows.trans {c : Config} {e e' e'' : External} (h : External.Follows c e e') (h' : External.Follows c e' e'') :
    External.Follows c e e'' :=
  ⟨fun i => h'.inv (h.inv i), Nat.le_trans h'.unread h.unread⟩

theorem External.follows_yield (c : Config) (e : External) : External.Follows c e (e.yield c) :=
  ⟨External.yield_inv c, External.yield_unread_le c e⟩

/-- `t` comes from `s` by SPI transactions of at most 11 bytes each (R206), waits and moves of the agents alone. -/
def SpiRun (s t : State) : Prop :=
  ∃ e log, t = { s with ext := e, spiLog := s.spiLog ++ log } ∧ (s.cfg.wf → External.Follows s.cfg s.ext e) ∧ ∀ x ∈ log, x.byteCount ≤ 11

theorem SpiRun.refl (s : State) : SpiRun s s := ⟨s.ext, [], by simp, fun _ => .refl _ _, by simp⟩

theorem SpiRun.trans {s t u : State} (h : SpiRun s t) (h' : SpiRun t u) : SpiRun s u := by
  obtain ⟨e, log, rfl, hf, hb⟩ := h
  obtain ⟨e', log', rfl, hf', hb'⟩ := h'
  refine ⟨e', log ++ log', by simp, fun w => (hf w).trans (hf' w), fun x hx => ?_⟩
  rcases List.mem_append.1 hx with hx | hx
  · exact hb x hx
  · exact hb' x hx

theorem SpiRun.cfg {s t : State} (h : SpiRun s t) : t.cfg = s.cfg := by obtain ⟨e, log, rfl, -⟩ := h; rfl

theorem spiRun_yield (s : State) : SpiRun s s.yield :=
  ⟨s.ext.yield s.cfg, [], by simp [State.yield], fun _ => External.follows_yield _ _, by simp⟩

theorem spiRun_wait (ms : Nat) (s : State) : SpiRun s (s.wait ms) :=
  ⟨_, [.wait ms], rfl, fun _ => (External.follows_yield s.cfg s.ext).trans
    ⟨fun i => ⟨Nat.mod_lt _ (Nat.two_pow_pos _), i.regs⟩, Nat.le_refl _⟩, by simp [SpiEvent.byteCount]⟩

/-- SPI_READ says: the log's one transaction, the reply's length, and no register changed; once settled, the registers' values and nothing else. -/
theorem spiRead_spec (a : Byte) (k : Nat) (s : State) :
    ∃ e miso, spiRead a k s = ({ s with ext := e, spiLog := s.spiLog ++ [.xfer [s.cfg.cmdRead, a] miso] }, miso) ∧
      miso.length = k ∧ e = { s.ext.yield s.cfg with draws := e.draws } ∧
      (s.ext.settleLeft = 0 → e = s.ext.yield s.cfg ∧ miso = Memory.readBytes (s.ext.yield s.cfg).regs a.toNat k) := by
  by_cases h : (s.ext.yield s.cfg).settleLeft = 0
  · refine ⟨s.ext.yield s.cfg, Memory.readBytes (s.ext.yield s.cfg).regs a.toNat k, ?_, Memory.readBytes_length _ _ _, rfl,
      fun _ => ⟨rfl, rfl⟩⟩
    simp only [spiRead, State.spiReply, State.yield, h, if_true, State.logXfer]
  · refine ⟨{ s.ext.yield s.cfg with draws := (s.ext.yield s.cfg).draws + 1 },
      (List.range (Memory.readBytes (s.ext.yield s.cfg).regs a.toNat k).length).map (Config.freeReply (s.ext.yield s.cfg).draws),
      ?_, ?_, rfl, fun h0 => absurd (External.yield_settled _ h0) h⟩
    · simp only [spiRead, State.spiReply, State.yield, h, if_false, State.logXfer]
    · simp [Memory.readBytes_length]

theorem External.follows_of_draws {c : Config} {e e' : External} {n : Nat} (h : External.Follows c e e') :
    External.Follows c e { e' with draws := n } := ⟨fun i => ⟨(h.inv i).tick, (h.inv i).regs⟩, h.unread⟩

theorem spiRun_spiRead (a : Byte) {k : Nat} (s : State) (hk : k ≤ 9) : SpiRun s (spiRead a k s).1 := by
  obtain ⟨e, miso, h, hl, he, -⟩ := spiRead_spec a k s
  refine ⟨e, _, by rw [h], fun _ => ?_, fun x hx => ?_⟩
  · rw [he]
    exact External.follows_of_draws (External.follows_yield _ _)
  · obtain rfl := List.mem_singleton.1 hx
    simp only [SpiEvent.byteCount, List.length_cons, List.length_nil, hl]
    omega

theorem spiRead_length (a : Byte) (k : Nat) (s : State) : (spiRead a k s).2.length = k := by
  obtain ⟨e, miso, h, hl, -⟩ := spiRead_spec a k s
  rw [h]
  exact hl

/-- Once settled, a one-byte read returns the register's value (R202, R320). -/
theorem spiReadByte_settled (a : Byte) {s : State} (h : s.ext.settleLeft = 0) :
    spiReadByte a s = ({ s with
      ext := s.ext.yield s.cfg
      spiLog := s.spiLog ++ [.xfer [s.cfg.cmdRead, a] [Memory.read (s.ext.yield s.cfg).regs a.toNat]] },
      Memory.read (s.ext.yield s.cfg).regs a.toNat) := by
  obtain ⟨e, miso, h1, -, -, hs⟩ := spiRead_spec a 1 s
  obtain ⟨he, hm⟩ := hs h
  simp only [spiReadByte, h1, he, hm]
  rfl

/-- A one-byte read says: one transaction in the log with the byte it answers, and the agents' state (R202). -/
theorem spiReadByte_spec (a : Byte) (s : State) :
    ∃ e v, spiReadByte a s = ({ s with ext := e, spiLog := s.spiLog ++ [.xfer [s.cfg.cmdRead, a] [v]] }, v) ∧
      (s.ext.settleLeft = 0 → e = s.ext.yield s.cfg ∧ v = Memory.read (s.ext.yield s.cfg).regs a.toNat) := by
  obtain ⟨e, miso, h, hl, -, hs⟩ := spiRead_spec a 1 s
  obtain ⟨v, rfl⟩ := List.length_eq_one_iff.1 hl
  refine ⟨e, v, by simp only [spiReadByte, h, List.headD_cons], fun h0 => ?_⟩
  obtain ⟨he, hm⟩ := hs h0
  exact ⟨he, List.cons.inj hm |>.1⟩

/-- SPI_WRITE says: the registers written at the transaction, and its entry in the log. -/
theorem spiWrite_eq (a : Byte) (d : List Byte) (s : State) :
    spiWrite a d s = { s with
      ext := { s.ext.yield s.cfg with regs := Memory.writeBytes (s.ext.yield s.cfg).regs a.toNat d }
      spiLog := s.spiLog ++ [.xfer (s.cfg.cmdWrite :: a :: d) []] } := rfl

theorem spiRun_spiWrite {a : Byte} {d : List Byte} (s : State) (hd : d.length ≤ 9) (ha : s.cfg.wf → a.toNat + d.length ≤ 256) :
    SpiRun s (spiWrite a d s) := by
  refine ⟨_, _, spiWrite_eq a d s, fun w => ⟨fun i => ?_, External.yield_unread_le _ _⟩, fun x hx => ?_⟩
  · exact ⟨External.yield_tick_lt _ i.tick, Memory.writeBytes_wf (External.yield_regs_wf _ i.regs) (ha w)⟩
  · obtain rfl := List.mem_singleton.1 hx
    simp only [SpiEvent.byteCount, List.length_cons, List.length_nil]
    omega

theorem spiRun_spiWrite_one (a v : Byte) (s : State) : SpiRun s (spiWrite a [v] s) :=
  spiRun_spiWrite s (by simp) fun _ => by have := a.isLt; simp only [List.length_cons, List.length_nil]; omega

/-- SPI_BITMOD says: one register written at the transaction, and its entry in the log. -/
theorem spiBitmod_eq (a m d : Byte) (s : State) :
    spiBitmod a m d s = { s with
      ext := { s.ext.yield s.cfg with
        regs := Memory.write (s.ext.yield s.cfg).regs a.toNat (maskedWrite (Memory.read (s.ext.yield s.cfg).regs a.toNat) m d) }
      spiLog := s.spiLog ++ [.xfer [s.cfg.cmdBitmod, a, m, d] []] } := rfl

theorem spiRun_spiBitmod (a m d : Byte) (s : State) : SpiRun s (spiBitmod a m d s) := by
  refine ⟨_, _, spiBitmod_eq a m d s, fun _ => ⟨fun i => ?_, External.yield_unread_le _ _⟩, fun x hx => ?_⟩
  · exact ⟨External.yield_tick_lt _ i.tick, Memory.write_wf (External.yield_regs_wf _ i.regs) a.isLt⟩
  · obtain rfl := List.mem_singleton.1 hx
    simp [SpiEvent.byteCount]

/-- SPI_READ_STATUS says: one byte in the log; once settled, the status byte and nothing else. -/
theorem spiReadStatus_spec (s : State) :
    ∃ e st, spiReadStatus s = ({ s with ext := e, spiLog := s.spiLog ++ [.xfer [s.cfg.cmdReadStatus] [st]] }, st) ∧
      e = { s.ext.yield s.cfg with draws := e.draws } ∧
      (s.ext.settleLeft = 0 → e = s.ext.yield s.cfg ∧ st = statusByte s.cfg (s.ext.yield s.cfg)) := by
  by_cases h : (s.ext.yield s.cfg).settleLeft = 0
  · refine ⟨s.ext.yield s.cfg, statusByte s.cfg (s.ext.yield s.cfg), ?_, rfl, fun _ => ⟨rfl, rfl⟩⟩
    simp only [spiReadStatus, State.spiReply, State.yield, h, if_true, State.logXfer, List.headD_cons]
  · refine ⟨{ s.ext.yield s.cfg with draws := (s.ext.yield s.cfg).draws + 1 }, Config.freeReply (s.ext.yield s.cfg).draws 0, ?_, rfl,
      fun h0 => absurd (External.yield_settled _ h0) h⟩
    simp [spiReadStatus, State.spiReply, State.yield, h, State.logXfer]

theorem spiRun_spiReadStatus (s : State) : SpiRun s (spiReadStatus s).1 := by
  obtain ⟨e, st, h, he, -⟩ := spiReadStatus_spec s
  refine ⟨e, _, by rw [h], fun _ => ?_, fun x hx => ?_⟩
  · rw [he]
    exact External.follows_of_draws (External.follows_yield _ _)
  · obtain rfl := List.mem_singleton.1 hx
    simp [SpiEvent.byteCount]

/-- SPI_RESET says: moves, the settle time set, moves again, and configuration mode; one entry in the log (R201). -/
theorem spiReset_eq (s : State) :
    let e := ({ s.ext.yield s.cfg with settleLeft := s.cfg.settleMs } : External).yield s.cfg
    spiReset s = { s with
      ext := { e with
        regs := Memory.write e.regs s.cfg.regCanstat.toNat
          (maskedWrite (Memory.read e.regs s.cfg.regCanstat.toNat) (mask3 s.cfg.bitOpmod) (place3 s.cfg.opmodeConfig s.cfg.bitOpmod)) }
      spiLog := s.spiLog ++ [.xfer [s.cfg.cmdReset] []] } := rfl

theorem spiRun_spiReset (s : State) : SpiRun s (spiReset s) := by
  refine ⟨(spiReset s).ext, [.xfer [s.cfg.cmdReset] []], rfl, fun _ => ⟨fun i => ?_, ?_⟩, by simp [SpiEvent.byteCount]⟩
  · have i1 := External.yield_inv s.cfg i
    have i2 : External.Inv s.cfg { s.ext.yield s.cfg with settleLeft := s.cfg.settleMs } := ⟨i1.tick, i1.regs⟩
    have i3 := External.yield_inv s.cfg i2
    exact ⟨i3.tick, Memory.write_wf i3.regs s.cfg.regCanstat.isLt⟩
  · exact Nat.le_trans (External.yield_unread_le s.cfg _) (External.yield_unread_le s.cfg s.ext)

/-! ### The CAN operations as SPI runs -/

theorem spiReadByte_fst (a : Byte) (s : State) : (spiReadByte a s).1 = (spiRead a 1 s).1 := rfl

theorem spiRun_spiReadByte (a : Byte) (s : State) : SpiRun s (spiReadByte a s).1 := spiRun_spiRead a s (by omega)

theorem spiRun_canResetBody (s : State) : SpiRun s (canResetBody s) := (spiRun_spiReset s).trans (spiRun_wait _ _)

theorem spiRun_canProgram (t : BitTiming) (s : State) : SpiRun s (canProgram t s) :=
  (spiRun_spiWrite_one _ _ _).trans <| (spiRun_spiWrite_one _ _ _).trans <| (spiRun_spiWrite_one _ _ _).trans <|
    (spiRun_spiWrite_one _ _ _).trans <| (spiRun_spiWrite_one _ _ _).trans <| (spiRun_spiWrite_one _ _ _).trans (spiRun_spiBitmod _ _ _ _)

theorem State.withOnline_self {s : State} {b : Bool} (h : s.canOnline = b) : s.withOnline b = s := by
  cases s
  simp only [State.withOnline] at *
  rw [h]

/-- The mode poll says: an SPI run, online exactly on OK. -/
theorem modePoll_spec (n : Nat) (s : State) (h : s.canOnline = false) :
    ∃ u, SpiRun s u ∧ modePoll n s = (u.withOnline ((modePoll n s).2 == .ok), (modePoll n s).2) ∧
      ((modePoll n s).2 = .ok ∨ (modePoll n s).2 = .modeTimeout) := by
  induction n generalizing s with
  | zero => exact ⟨s, .refl s, Prod.ext (State.withOnline_self h).symm rfl, .inr rfl⟩
  | succ n ih =>
    have hr := spiRun_spiReadByte s.cfg.regCanstat s
    have ho : (spiReadByte s.cfg.regCanstat s).1.canOnline = false := by
      obtain ⟨e, log, heq, -⟩ := hr
      rw [heq]
      exact h
    by_cases hm : field3 (spiReadByte s.cfg.regCanstat s).2 (spiReadByte s.cfg.regCanstat s).1.cfg.bitOpmod =
        (spiReadByte s.cfg.regCanstat s).1.cfg.opmodeNormal
    · refine ⟨_, hr, ?_, ?_⟩
      · simp only [modePoll, hm, if_true]
        rfl
      · simp only [modePoll, hm, if_true, true_or]
    · obtain ⟨u, hu, he, hs⟩ := ih _ ho
      refine ⟨u, hr.trans hu, ?_, ?_⟩
      · simpa only [modePoll, hm, if_false] using he
      · simpa only [modePoll, hm, if_false] using hs

/-- CAN_INIT says: an SPI run, online exactly on OK, and one of its four statuses (R222). -/
theorem canInit_spec (r : Nat) (s : State) :
    ∃ u, SpiRun (s.withOnline false) u ∧ canInit r s = (u.withOnline ((canInit r s).2 == .ok), (canInit r s).2) ∧
      ((canInit r s).2 = .ok ∨ (canInit r s).2 = .initVerifyFail ∨ (canInit r s).2 = .unsupportedBitrate ∨ (canInit r s).2 = .modeTimeout) := by
  have h1 : SpiRun (s.withOnline false) (spiReadByte s.cfg.regScratch (spiWrite s.cfg.regScratch [s.cfg.sentinel] (canResetBody (s.withOnline false)))).1 :=
    (spiRun_canResetBody _).trans ((spiRun_spiWrite_one _ _ _).trans (spiRun_spiReadByte _ _))
  have honl : ∀ {u : State}, SpiRun (s.withOnline false) u → u.canOnline = false := by
    rintro u ⟨e, log, rfl, -⟩
    rfl
  by_cases hb : (spiReadByte s.cfg.regScratch (spiWrite s.cfg.regScratch [s.cfg.sentinel] (canResetBody (s.withOnline false)))).2 = s.cfg.sentinel
  · cases ht : bitTimingOf s.cfg r with
    | none =>
      have he : canInit r s = ((spiReadByte s.cfg.regScratch (spiWrite s.cfg.regScratch [s.cfg.sentinel] (canResetBody (s.withOnline false)))).1,
          .unsupportedBitrate) := by simp only [canInit, hb, ht, ne_eq, not_true_eq_false, if_false]
      rw [he]
      exact ⟨_, h1, Prod.ext (State.withOnline_self (honl h1)).symm rfl, by simp⟩
    | some t =>
      have h2 := h1.trans (spiRun_canProgram t _)
      obtain ⟨u, hu, hpe, hps⟩ := modePoll_spec s.cfg.modePollMax _ (honl h2)
      have he : canInit r s = modePoll s.cfg.modePollMax (canProgram t (spiReadByte s.cfg.regScratch
          (spiWrite s.cfg.regScratch [s.cfg.sentinel] (canResetBody (s.withOnline false)))).1) := by
        simp only [canInit, hb, ht, ne_eq, not_true_eq_false, if_false]
      rw [he]
      exact ⟨u, h2.trans hu, hpe, by rcases hps with h | h <;> simp [h]⟩
  · have he : canInit r s = ((spiReadByte s.cfg.regScratch (spiWrite s.cfg.regScratch [s.cfg.sentinel] (canResetBody (s.withOnline false)))).1,
        .initVerifyFail) := by simp only [canInit, hb, ne_eq, not_false_eq_true, if_true]
    rw [he]
    exact ⟨_, h1, Prod.ext (State.withOnline_self (honl h1)).symm rfl, by simp⟩

theorem packId_length (id : BitVec 29) (ext : Bool) : (packId id ext).length = if ext then 4 else 2 := by
  cases ext <;> rfl

/-- CAN_TX says: an SPI run, and one of its four statuses (R224). -/
theorem canTx_spec (id : BitVec 32) (ext : Bool) (d : List Byte) (s : State) :
    SpiRun s (canTx id ext d s).1 ∧
      ((canTx id ext d s).2 = .ok ∨ (canTx id ext d s).2 = .badOperand ∨ (canTx id ext d s).2 = .canOffline ∨ (canTx id ext d s).2 = .bufferBusy) := by
  unfold canTx
  split
  · split
    · have h1 := spiRun_spiReadByte s.cfg.regTxb0ctrl s
      by_cases hc : (spiReadByte s.cfg.regTxb0ctrl s).2 &&& maskTxreq s.cfg ≠ 0#8
      · rw [if_pos hc]
        exact ⟨h1, by simp⟩
      · rw [if_neg hc]
        refine ⟨h1.trans (SpiRun.trans (spiRun_spiWrite _ ?_ ?_) (SpiRun.trans (spiRun_spiWrite _ ?_ ?_) (spiRun_spiBitmod _ _ _ _))), by simp⟩
        · rw [packId_length]; split <;> omega
        · intro w
          rw [h1.cfg] at w
          have := w.2.2.2.1.1
          rw [packId_length]
          split <;> omega
        · simp only [List.length_cons, List.length_take]; omega
        · intro w
          rw [spiWrite_eq] at w
          have hw : s.cfg.wf := by rw [h1.cfg] at w; exact w
          have := hw.2.2.2.1.1
          have h4 : (s.cfg.regTxb0sidh + 4#8).toNat = s.cfg.regTxb0sidh.toNat + 4 := by
            rw [BitVec.toNat_add]
            simp only [BitVec.toNat_ofNat]
            omega
          simp only [List.length_cons, List.length_take]
          omega
    · exact ⟨.refl s, by simp⟩
  · exact ⟨.refl s, by simp⟩

/-- A standard header holds an 11-bit identifier (R221). -/
theorem unpackId_standard (sidh sidl eid8 eid0 : Byte) (h : (unpackId sidh sidl eid8 eid0).2 = false) :
    (unpackId sidh sidl eid8 eid0).1.toNat < 2 ^ 11 := by
  unfold unpackId at *
  by_cases hb : sidl.getLsbD 3 = true
  · rw [if_pos hb] at h
    exact absurd h (by simp)
  · rw [if_neg hb, BitVec.toNat_setWidth]
    exact Nat.lt_of_le_of_lt (Nat.mod_le _ _) (BitVec.isLt _)

theorem dlcCount_le (c : Config) (dlc : Byte) : dlcCount c dlc ≤ 8 := Nat.min_le_right _ _

theorem receiveSlot_run (slot1 : Bool) (s : State) : SpiRun s (receiveSlot slot1 s).1 := by
  simp only [receiveSlot]
  generalize hb : (if slot1 = true then s.cfg.rxBase1 else s.cfg.rxBase0) = b
  refine (spiRun_spiRead (b + 1#8) s (k := 5) (by omega)).trans (SpiRun.trans ?_ (spiRun_spiBitmod _ _ _ _))
  have hn := dlcCount_le s.cfg ((spiRead (b + 1#8) 5 s).2.getD 4 0#8)
  generalize dlcCount s.cfg ((spiRead (b + 1#8) 5 s).2.getD 4 0#8) = n at hn
  by_cases h : n > 0
  · rw [if_pos h]
    exact spiRun_spiRead _ _ (by omega)
  · rw [if_neg h]
    exact .refl _

/-- Every frame a slot yields is well formed (R29). -/
theorem receiveSlot_wf (slot1 : Bool) (s : State) : (receiveSlot slot1 s).2.wf := by
  simp only [receiveSlot]
  generalize (if slot1 = true then s.cfg.rxBase1 else s.cfg.rxBase0) = b
  have hn := dlcCount_le s.cfg ((spiRead (b + 1#8) 5 s).2.getD 4 0#8)
  generalize dlcCount s.cfg ((spiRead (b + 1#8) 5 s).2.getD 4 0#8) = n at hn
  refine ⟨?_, fun h => unpackId_standard _ _ _ _ h⟩
  by_cases h : n > 0
  · simp only [if_pos h, spiRead_length]
    exact hn
  · simp [if_neg h]

/-- CAN_RX says: an SPI run; OK with a well-formed frame, NOTHING, or CAN_OFFLINE (R225). -/
theorem canRx_spec (s : State) :
    SpiRun s (canRx s).1 ∧
      ((∃ f : CanFrame, (canRx s).2 = { status := .ok, value := .can f } ∧ f.wf) ∨ (canRx s).2 = { status := .nothing, value := .nothing } ∨
        (canRx s).2 = { status := .canOffline, value := .nothing }) := by
  unfold canRx
  split
  · have h1 := spiRun_spiReadStatus s
    by_cases h0 : (spiReadStatus s).2.getLsbD s.cfg.bitStRx0if = true
    · simp only [h0, if_true]
      exact ⟨h1.trans (receiveSlot_run _ _), .inl ⟨_, rfl, receiveSlot_wf _ _⟩⟩
    · by_cases h0' : (spiReadStatus s).2.getLsbD s.cfg.bitStRx1if = true
      · simp only [h0, h0', if_true]
        exact ⟨h1.trans (receiveSlot_run _ _), .inl ⟨_, rfl, receiveSlot_wf _ _⟩⟩
      · simp only [h0, h0']
        exact ⟨h1, .inr (.inl rfl)⟩
  · exact ⟨.refl s, .inr (.inr rfl)⟩

/-- CAN_ERRCNT says: an SPI run; OK with three counters, or CAN_OFFLINE (R226). -/
theorem canErrcnt_spec (s : State) :
    SpiRun s (canErrcnt s).1 ∧
      ((∃ a b c, (canErrcnt s).2 = { status := .ok, value := .counters a b c }) ∨ (canErrcnt s).2 = { status := .canOffline, value := .nothing }) := by
  unfold canErrcnt
  split
  · exact ⟨(spiRun_spiReadByte _ _).trans ((spiRun_spiReadByte _ _).trans (spiRun_spiReadByte _ _)), .inl ⟨_, _, _, rfl⟩⟩
  · exact ⟨.refl s, .inr rfl⟩

end Sys2Proof.Machine
end

