-- ==== Sys2Proof/Laws/Sequencer.lean ====
section
/-! SUPPORT. The four steps of an iteration: what each can do. -/

namespace Sys2Proof.Machine

/-- A host command says: an SPI run, or words to the sink after the agents' moves, or nothing; never the startup status (R266, R312). -/
theorem runCommand_spec (h : HostCommand) (s : State) :
    (SpiRun s (runCommand h s).1 ∨ SinkRun s.yield (runCommand h s).1) ∧ (runCommand h s).2 ≠ .ready := by
  cases h with
  | avcTx m sl c d =>
    simp only [runCommand]
    split
    · rcases encodeTx_spec (BitVec.ofNat 16 m) (BitVec.ofNat 16 sl) (BitVec.ofNat 8 c) d s with h | h | ⟨t, h, ht⟩
      · rw [h]
        exact ⟨.inl (.refl s), by simp⟩
      · rw [h]
        exact ⟨.inl (spiRun_yield s), by simp⟩
      · rw [h]
        exact ⟨.inr ht, by simp⟩
    · exact ⟨.inl (.refl s), by simp⟩
  | canTx id ext d =>
    simp only [runCommand]
    split
    · obtain ⟨h, hs⟩ := canTx_spec (BitVec.ofNat 32 id) ext d s
      exact ⟨.inl h, by rcases hs with h | h | h | h <;> (rw [h]; simp)⟩
    · exact ⟨.inl (.refl s), by simp⟩
  | unparsed => exact ⟨.inl (.refl s), by simp [runCommand]⟩

/-- One turn of the drain says: after the agents' moves, either the source is empty and nothing is done, or its oldest word is taken and pushed, and the
receive timestamp is the counter's (R261). -/
theorem drainLoop_succ (n : Nat) (s : State) :
    (s.yield.ext.src = [] ∧ drainLoop (n + 1) s = (s.yield, [])) ∨
      ∃ w rest, s.yield.ext.src = w :: rest ∧
        let p := (ringPush w { s.yield with ext := { s.yield.ext with src := rest } }).yield
        drainLoop (n + 1) s =
          ((drainLoop n { p with lastRxTs := p.ext.tick }).1, w :: (drainLoop n { p with lastRxTs := p.ext.tick }).2) := by
  cases h : s.yield.ext.src with
  | nil => exact .inl ⟨rfl, by rw [drainLoop]; simp only [h]⟩
  | cons w rest => exact .inr ⟨w, rest, rfl, by rw [drainLoop]; simp only [h]⟩

/-- One turn of the CAN drain says: a frame is emitted and the loop goes on, or the loop ends (R263). -/
theorem canDrainLoop_succ (n : Nat) (s : State) :
    (∃ f, (canRx s).2 = { status := .ok, value := .can f } ∧ canDrainLoop (n + 1) s = canDrainLoop n ((canRx s).1.emit (.can f))) ∨
      ((canRx s).2.status ≠ .ok ∧ canDrainLoop (n + 1) s = (canRx s).1) := by
  have hr : ∀ r, (canRx s).2 = r → canRx s = ((canRx s).1, r) := fun r h => Prod.ext rfl h
  rcases (canRx_spec s).2 with ⟨f, h, -⟩ | h | h
  · exact .inl ⟨f, h, by rw [canDrainLoop, hr _ h]⟩
  · exact .inr ⟨by rw [h]; simp, by rw [canDrainLoop, hr _ h]⟩
  · exact .inr ⟨by rw [h]; simp, by rw [canDrainLoop, hr _ h]⟩

/-- The decode pass says: the agents' moves, and where it is due decoding alone and an emptied ring (R262). -/
theorem decodePass_spec (s : State) :
    decodePass s = s.yield ∨ ∃ t, AvcRun s.yield t ∧ decodePass s = ringClear t := by
  unfold decodePass
  simp only
  split
  · exact .inr ⟨_, avcRun_scan _, rfl⟩
  · exact .inl rfl

/-- The flush check says: the agents' moves, and decoding alone (R264). -/
theorem flushCheck_spec (s : State) : AvcRun s.yield (flushCheck s) := by
  unfold flushCheck
  simp only
  split
  · exact avcRun_flush _
  · exact .refl _

/-! ### What every part of an iteration can do -/

/-- The pending frame, if any, is well formed (R25). -/
abbrev State.pendingOk (s : State) : Prop := ∀ p, s.pending = some p → p.wf

/-- `t` comes from `s` by parts of an iteration: parameters, phase, results and ring size stay; events and SPI transactions are appended, none of them the
startup event, none of more than 11 bytes; and every clause of the invariant that holds of `s` is kept. -/
structure BlockRun (s t : State) : Prop where
  cfg : t.cfg = s.cfg
  phase : t.phase = s.phase
  replies : t.replies = s.replies
  ring : t.ring.length = s.ring.length
  fill : s.ringFill ≤ s.cfg.ringWords → t.ringFill ≤ s.cfg.ringWords
  cursor : s.cursor ≤ s.filledBits → t.cursor ≤ t.filledBits
  pending : s.pendingOk → t.pendingOk
  acc : s.acc = [] → t.acc = []
  log : ∃ log, t.spiLog = s.spiLog ++ log ∧ ∀ x ∈ log, x.byteCount ≤ 11
  events : ∃ new, t.events = s.events ++ new ∧ (s.cfg.wf → t.ext.eventsUnread ≤ s.ext.eventsUnread + new.length) ∧
    (∀ x ∈ new, x.isReady = false) ∧ (s.pendingOk → ∀ x ∈ new, x.wf)
  ext : s.cfg.wf → External.Inv s.cfg s.ext → External.Inv s.cfg t.ext
  lastRx : s.cfg.wf → External.Inv s.cfg s.ext → s.lastRxTs < 2 ^ s.cfg.tickBits → t.lastRxTs < 2 ^ s.cfg.tickBits

theorem BlockRun.refl (s : State) : BlockRun s s :=
  ⟨rfl, rfl, rfl, rfl, id, id, id, id, ⟨[], by simp, by simp⟩, ⟨[], by simp, by simp, by simp, by simp⟩, fun _ => id, fun _ _ => id⟩

theorem BlockRun.trans {s t u : State} (h : BlockRun s t) (h' : BlockRun t u) : BlockRun s u := by
  obtain ⟨log, hl, hb⟩ := h.log
  obtain ⟨log', hl', hb'⟩ := h'.log
  obtain ⟨new, he, hu, hr, hw⟩ := h.events
  obtain ⟨new', he', hu', hr', hw'⟩ := h'.events
  have hc := h.cfg
  refine ⟨h'.cfg.trans hc, h'.phase.trans h.phase, h'.replies.trans h.replies, h'.ring.trans h.ring, fun x => hc ▸ h'.fill (hc ▸ h.fill x),
    fun x => h'.cursor (h.cursor x), fun x => h'.pending (h.pending x), fun x => h'.acc (h.acc x), ⟨log ++ log', ?_, fun x hx => ?_⟩,
    ⟨new ++ new', ?_, fun w => ?_, fun x hx => ?_, fun hp x hx => ?_⟩, fun w i => hc ▸ h'.ext (hc ▸ w) (hc ▸ h.ext w i),
    fun w i l => hc ▸ h'.lastRx (hc ▸ w) (hc ▸ h.ext w i) (hc ▸ h.lastRx w i l)⟩
  · rw [hl', hl, List.append_assoc]
  · exact (List.mem_append.1 hx).elim (hb x) (hb' x)
  · rw [he', he, List.append_assoc]
  · rw [List.length_append]
    have := hu w
    have := hu' (hc ▸ w)
    omega
  · exact (List.mem_append.1 hx).elim (hr x) (hr' x)
  · exact (List.mem_append.1 hx).elim (hw hp x) (hw' (h.pending hp) x)

theorem SpiRun.blockRun {s t : State} (h : SpiRun s t) : BlockRun s t := by
  obtain ⟨e, log, rfl, hf, hb⟩ := h
  exact ⟨rfl, rfl, rfl, rfl, id, id, id, id, ⟨log, rfl, hb⟩, ⟨[], by simp, fun w => (hf w).unread, by simp, by simp⟩,
    fun w => (hf w).inv, fun _ _ => id⟩

theorem blockRun_yield (s : State) : BlockRun s s.yield := (spiRun_yield s).blockRun

theorem AvcRun.blockRun {s t : State} (h : AvcRun s t) (hc : s.cursor ≤ s.filledBits → t.cursor ≤ t.filledBits) : BlockRun s t := by
  obtain ⟨c, p, new, rfl, ha, hw⟩ := h
  refine ⟨rfl, rfl, rfl, rfl, id, hc, fun hs => (hw hs).1, id, ⟨[], by simp, by simp⟩, ⟨new, rfl, fun _ => Nat.le_refl _, fun x hx => ?_, fun hs => (hw hs).2⟩,
    fun _ i => ⟨i.tick, i.regs⟩, fun _ _ => id⟩
  obtain ⟨f, k, rfl⟩ := ha x hx
  rfl

theorem SinkRun.blockRun {s t : State} (h : SinkRun s t) : BlockRun s t := by
  obtain ⟨new, rfl⟩ := h
  exact ⟨rfl, rfl, rfl, rfl, id, id, id, fun _ => rfl, ⟨[], by simp, by simp⟩, ⟨[], by simp, by simp, by simp, by simp⟩,
    fun _ i => ⟨i.tick, i.regs⟩, fun _ _ => id⟩

/-- Emitting a well-formed event that is not the startup event. -/
theorem blockRun_emit {e : Event} (hr : e.isReady = false) (hw : e.wf) (s : State) : BlockRun s (s.emit e) :=
  ⟨rfl, rfl, rfl, rfl, id, id, id, id, ⟨[], by simp, by simp⟩,
    ⟨[e], rfl, fun _ => Nat.le_refl _, by simpa using hr, by simpa using fun _ => hw⟩, fun _ i => ⟨i.tick, i.regs⟩, fun _ _ => id⟩

theorem blockRun_ringPush (w : Word) (s : State) : BlockRun s (ringPush w s) := by
  obtain ⟨ring, fill, h, hl, hle, -, hf, -⟩ := ringPush_spec w s
  rw [h]
  refine ⟨rfl, rfl, rfl, hl, hf, fun hc => Nat.le_trans hc ?_, id, id, ⟨[], by simp, by simp⟩, ⟨[], by simp, by simp, by simp, by simp⟩, fun _ => id, fun _ _ => id⟩
  exact Nat.mul_le_mul_right _ hle

theorem blockRun_ringClear (s : State) : BlockRun s (ringClear s) :=
  ⟨rfl, rfl, rfl, rfl, fun _ => Nat.zero_le _, fun _ => Nat.zero_le _, id, id, ⟨[], by simp, by simp⟩,
    ⟨[], by simp, by simp, by simp, by simp⟩, fun _ => id, fun _ _ => id⟩

/-- A change of the agents' state that keeps its invariant and lets the host only read events. -/
theorem blockRun_ext {s : State} {e : External} (h : External.Follows s.cfg s.ext e) : BlockRun s { s with ext := e } :=
  ⟨rfl, rfl, rfl, rfl, id, id, id, id, ⟨[], by simp, by simp⟩, ⟨[], by simp, fun _ => h.unread, by simp, by simp⟩, fun _ => h.inv, fun _ _ => id⟩

/-- The receive timestamp takes the counter's value (R261). -/
theorem blockRun_timestamp (s : State) : BlockRun s { s with lastRxTs := s.ext.tick } :=
  ⟨rfl, rfl, rfl, rfl, id, id, id, id, ⟨[], by simp, by simp⟩, ⟨[], by simp, by simp, by simp, by simp⟩, fun _ => id, fun _ i _ => i.tick⟩

theorem blockRun_dispatchCommand (h : HostCommand) (s : State) : BlockRun s (dispatchCommand s h) := by
  obtain ⟨hr, hs⟩ := runCommand_spec h s
  have hrun : BlockRun s (runCommand h s).1 := hr.elim SpiRun.blockRun fun hr => (blockRun_yield s).trans hr.blockRun
  refine hrun.trans (blockRun_emit (e := .status (runCommand h s).2 (.command h)) ?_ trivial _)
  revert hs
  cases (runCommand h s).2 <;> simp [Event.isReady]

/-- Step 1 of an iteration (R266). -/
theorem blockRun_dispatchCommands (s : State) : BlockRun s (dispatchCommands s) := by
  have h : ∀ (hs : List HostCommand) (s : State), BlockRun s (hs.foldl dispatchCommand s) := by
    intro hs
    induction hs with
    | nil => exact BlockRun.refl
    | cons c hs ih => exact fun s => (blockRun_dispatchCommand c s).trans (ih _)
  have hy : BlockRun s.yield { s.yield with ext := { s.yield.ext with hostIn := [] } } := blockRun_ext ⟨fun i => ⟨i.tick, i.regs⟩, Nat.le_refl _⟩
  exact ((blockRun_yield s).trans hy).trans (h _ _)

/-- Step 2 of an iteration (R261). -/
theorem blockRun_avcDrain (s : State) : BlockRun s (avcDrain s) := by
  have h : ∀ (n : Nat) (s : State), BlockRun s (drainLoop n s).1 := by
    intro n
    induction n with
    | zero => exact BlockRun.refl
    | succ n ih =>
      intro s
      rcases drainLoop_succ n s with ⟨-, h⟩ | ⟨w, rest, -, h⟩
      · rw [h]
        exact blockRun_yield s
      · simp only [h]
        have hy : BlockRun s.yield { s.yield with ext := { s.yield.ext with src := rest } } := blockRun_ext ⟨fun i => ⟨i.tick, i.regs⟩, Nat.le_refl _⟩
        exact ((((((blockRun_yield s).trans hy).trans (blockRun_ringPush w _)).trans (blockRun_yield _))).trans (blockRun_timestamp _)).trans (ih _)
  exact h _ s

/-- Step 3 of an iteration (R263). -/
theorem blockRun_canDrain (s : State) : BlockRun s (canDrain s) := by
  have h : ∀ (n : Nat) (s : State), BlockRun s (canDrainLoop n s) := by
    intro n
    induction n with
    | zero => exact BlockRun.refl
    | succ n ih =>
      intro s
      obtain ⟨hr, hc⟩ := canRx_spec s
      rcases canDrainLoop_succ n s with ⟨f, hf, h⟩ | ⟨-, h⟩
      · rw [h]
        have hw : f.wf := by
          rcases hc with ⟨f', hf', hw⟩ | hc | hc
          · rw [hf] at hf'
            cases hf'
            exact hw
          · rw [hf] at hc
            cases hc
          · rw [hf] at hc
            cases hc
        exact (hr.blockRun.trans (blockRun_emit (e := .can f) rfl hw _)).trans (ih _)
      · rw [h]
        exact hr.blockRun
  unfold canDrain
  simp only
  split
  · exact (blockRun_yield s).trans (h _ _)
  · exact blockRun_yield s

/-- Step 4 of an iteration (R262, R264). -/
theorem blockRun_decode (s : State) : BlockRun s (flushCheck (decodePass s)) := by
  have hd : BlockRun s (decodePass s) := by
    unfold decodePass
    simp only
    split
    · refine ((blockRun_yield s).trans ((avcRun_scan _).blockRun fun _ => scanLoop_cursor_le _ (Nat.zero_le _))).trans (blockRun_ringClear _)
    · exact blockRun_yield s
  refine (hd.trans (blockRun_yield _)).trans ?_
  refine (flushCheck_spec _).blockRun ?_
  unfold flushCheck flush
  simp only
  split
  · split <;> exact id
  · exact id

/-- An iteration says: all of the above (R260). -/
theorem blockRun_iteration (s : State) : BlockRun s (iteration s) :=
  ((blockRun_dispatchCommands s).trans (blockRun_avcDrain _)).trans ((blockRun_canDrain _).trans (blockRun_decode _))

end Sys2Proof.Machine
end

