-- ==== Sys2Proof/Laws/Step.lean ====
section
/-! SUPPORT. What a step does, case by case. -/

namespace Sys2Proof.Machine

/-- In a well-formed configuration a step is `stepConfigured` (R89). -/
theorem step_of_wf {s : State} (h : s.cfg.wf) : step s = stepConfigured s := if_pos h

/-- Outside one, a refusal (R89). -/
theorem step_of_not_wf {s : State} (h : ¬ s.cfg.wf) : step s = .refused .configuration := if_neg h

/-- A step that answers a state had a well-formed configuration. -/
theorem wf_of_step_next {s t : State} (h : step s = .next t) : s.cfg.wf := by
  by_cases w : s.cfg.wf
  · exact w
  · rw [step_of_not_wf w] at h
    cases h

theorem stepConfigured_boot {s : State} (h : s.phase = .boot) : stepConfigured s = .next (boot s) := by
  unfold stepConfigured
  rw [h]

theorem stepConfigured_idle {s : State} (h : s.phase = .loop) (hp : s.ext.port = []) : stepConfigured s = .next (iteration s) := by
  unfold stepConfigured
  rw [h, hp]

theorem stepConfigured_request {s : State} {r : Request} {rest : List Request} (h : s.phase = .loop) (hp : s.ext.port = r :: rest) :
    stepConfigured s = runRequest r { s with ext := { s.ext with port := rest } } := by
  simp only [stepConfigured, h, hp, State.taken, List.tail_cons]

end Sys2Proof.Machine
end

