-- ==== Sys2Proof/Tests/Slice0.lean ====
section
/-! SUPPORT. Tests: expected values are those of spec/95_test_vectors.md (the vector named in each docstring), or written out by hand from the
encodings of spec/30_encoding.md. The theorems are elaborated one after another: in parallel their kernel evaluations take more threads than the
check's memory limit leaves stacks for. -/

set_option Elab.async false

namespace Sys2Proof.Tests

open Sys2Proof.Machine

/-! ### Helpers -/

/-- The reset state in its loop, the agents scripted by `env`. -/
def base (env : List (List Move)) : State :=
  { State.reset with phase := .loop, ext := { External.atReset with env := env } }

/-- `base` with the given words in the ring. -/
def withRing (ws : List Word) : State :=
  { base [] with cfg := { Config.atReset with ringWords := 8 }, ring := ws ++ List.replicate (8 - ws.length) 0#32, ringFill := ws.length }

/-- `base` with CAN online. -/
def online (env : List (List Move)) : State := { base env with canOnline := true }

/-- `n` observations at which no agent moves. -/
def still (n : Nat) : List (List Move) := List.replicate n []

/-- What a result's next state shows, if it is one. -/
def view {α : Type} (f : State → α) (r : Result) : Option α :=
  match r with
  | .next s => some (f s)
  | .fault _ => none
  | .refused _ => none

/-- The frame `F` of 95_test_vectors.md. -/
def frameF : AvcFrame := { master := 0x123#12, slave := 0x456#12, control := 1#4, payload := [0xAA#8, 0xBB#8] }

/-- The frame `G` of 95_test_vectors.md. -/
def frameG : AvcFrame := { master := 0x001#12, slave := 0x002#12, control := 3#4, payload := [0x80#8] }

/-- The zero frame `Z` of 95_test_vectors.md. -/
def frameZ : AvcFrame := { master := 0#12, slave := 0#12, control := 0#4, payload := [] }

/-- F's words (V-E1). -/
def wordsF : List Word := [0x12322B46#32, 0x05AA5D80#32]

/-! ### Well-formedness: each check refuses an ill-formed term -/

theorem test_wellFormed_encodeTx : ¬ WellFormed (.encodeTx 0#16 0#16 0#8 (List.replicate 256 0#8)) := by decide +kernel
theorem test_wellFormed_canTx : ¬ WellFormed (.canTx 0#8 0#32 (List.replicate 256 0#8)) := by decide +kernel
theorem test_wellFormed_spiRead_none : ¬ WellFormed (.spiRead 0x30#8 0) := by decide +kernel
theorem test_wellFormed_spiRead_past : ¬ WellFormed (.spiRead 0xFF#8 2) := by decide +kernel
theorem test_wellFormed_spiWrite_none : ¬ WellFormed (.spiWrite 0x30#8 []) := by decide +kernel
theorem test_wellFormed_spiWrite_past : ¬ WellFormed (.spiWrite 0xFF#8 [1#8, 2#8]) := by decide +kernel
theorem test_wellFormed_spiRead_last : WellFormed (.spiRead 0xFF#8 1) := by decide +kernel

/-! ### Decoding: bytes written out from R91 and R88 -/

/-- P1 line 2. -/
theorem test_decode_ringPush : decodeOp [0x01#8, 0x12#8, 0x32#8, 0x2B#8, 0x46#8] = .ok (.ringPush 0x12322B46#32) := by decide +kernel
theorem test_decode_ringClear : decodeOp [0x02#8] = .ok .ringClear := by decide +kernel
theorem test_decode_parseAt : decodeOp [0x10#8, 0x01#8, 0x02#8, 0x03#8, 0x04#8] = .ok (.parseAt 0x01020304#32) := by decide +kernel
/-- P2 line 5. -/
theorem test_decode_decodeAt : decodeOp [0x11#8, 0x00#8, 0x00#8, 0x00#8, 0x3F#8] = .ok (.decodeAt 63#32) := by decide +kernel
theorem test_decode_scan : decodeOp [0x12#8] = .ok .scan := by decide +kernel
theorem test_decode_flush : decodeOp [0x13#8] = .ok .flush := by decide +kernel
/-- P1 line 1. -/
theorem test_decode_encodeTx :
    decodeOp [0x20#8, 0x01#8, 0x23#8, 0x04#8, 0x56#8, 0x01#8, 0x02#8, 0xAA#8, 0xBB#8] =
      .ok (.encodeTx 0x123#16 0x456#16 1#8 [0xAA#8, 0xBB#8]) := by decide +kernel
theorem test_decode_canReset : decodeOp [0x30#8] = .ok .canReset := by decide +kernel
/-- P3 line 1. -/
theorem test_decode_canInit : decodeOp [0x31#8, 0x00#8, 0x07#8, 0xA1#8, 0x20#8] = .ok (.canInit 500000#32) := by decide +kernel
/-- P3 line 2. -/
theorem test_decode_canTx :
    decodeOp [0x32#8, 0x00#8, 0x00#8, 0x00#8, 0x07#8, 0xFF#8, 0x03#8, 0x01#8, 0x02#8, 0x03#8] =
      .ok (.canTx 0#8 0x7FF#32 [1#8, 2#8, 3#8]) := by decide +kernel
theorem test_decode_canRx : decodeOp [0x33#8] = .ok .canRx := by decide +kernel
theorem test_decode_canErrcnt : decodeOp [0x34#8] = .ok .canErrcnt := by decide +kernel
theorem test_decode_schedStep : decodeOp [0x40#8] = .ok .schedStep := by decide +kernel
/-- R201, defaults. -/
theorem test_decode_spiReset : decodeSpi Config.atReset [0xC0#8] 0 = .ok .spiReset := by decide +kernel
/-- R202's example. -/
theorem test_decode_spiRead : decodeSpi Config.atReset [0x03#8, 0x71#8] 5 = .ok (.spiRead 0x71#8 5) := by decide +kernel
/-- R203's example. -/
theorem test_decode_spiWrite : decodeSpi Config.atReset [0x02#8, 0x2B#8, 0x03#8] 0 = .ok (.spiWrite 0x2B#8 [0x03#8]) := by decide +kernel
/-- R204's example. -/
theorem test_decode_spiBitmod :
    decodeSpi Config.atReset [0x05#8, 0x30#8, 0x08#8, 0x08#8] 0 = .ok (.spiBitmod 0x30#8 0x08#8 0x08#8) := by decide +kernel
theorem test_decode_spiReadStatus : decodeSpi Config.atReset [0xA0#8] 1 = .ok .spiReadStatus := by decide +kernel
/-- P5 lines 1 to 3. -/
theorem test_decode_illegal :
    decodeOp [0x00#8] = .error (.illegalOpcode 0x00#8) ∧ decodeOp [0x21#8] = .error (.illegalOpcode 0x21#8) ∧
      decodeOp [0x01#8, 0x12#8, 0x32#8] = .error (.truncated 0x01#8) := by decide +kernel
/-- The table's word for SPI_READ: one register of the address in the second byte. -/
theorem test_table_spiRead : decodeTableWord 8 0x03 = some (.spiRead 0#8 1) := by decide +kernel
theorem test_table_encodeTx : decodeTableWord 8 0x20 = some (.encodeTx 0#16 0#16 0#8 []) := by decide +kernel

/-! ### Parity, ring bits, identifiers -/

/-- V-P1, V-P2, V-P3, V-P6, V-P10. -/
theorem test_parity :
    (parity 0x123#12, parity 0x456#12, parity 1#4, parity 0xBB#8, parity 0x80#8) = (false, true, true, false, true) := by decide +kernel
/-- V-R1. -/
theorem test_ringBit :
    (ringBit [0x00000001#32, 0x80000000#32] 31, ringBit [0x00000001#32, 0x80000000#32] 32, ringBit [0x00000001#32, 0x80000000#32] 33) =
      (true, true, false) := by decide +kernel
/-- V-K2, V-K7. -/
theorem test_packId : packId 0x123#29 false = [0x24#8, 0x60#8] ∧ packId 0x18DAF110#29 true = [0xC6#8, 0xCA#8, 0xF1#8, 0x10#8] := by decide +kernel
/-- V-K11, V-K12. -/
theorem test_unpackId :
    unpackId 0xFF#8 0xF7#8 0x12#8 0x34#8 = (0x7FF#29, false) ∧ unpackId 0x00#8 0x1C#8 0x00#8 0x01#8 = (0x00001#29, true) := by decide +kernel

/-! ### The ring -/

/-- V-R4 and R121's example. -/
theorem test_ringPush_stores :
    view (fun s => (s.ring.take 1, s.ringFill)) (exec (.ringPush 0x12322B46#32) (base [])) = some ([0x12322B46#32], 1) := by decide +kernel
/-- V-R2: a full ring drops the newest word. -/
theorem test_ringPush_drops :
    view (fun s => (s.ring, s.ringFill))
        (exec (.ringPush 0x33333333#32)
          { base [] with cfg := { Config.atReset with ringWords := 2 }, ring := [0x11111111#32, 0x22222222#32], ringFill := 2 }) =
      some ([0x11111111#32, 0x22222222#32], 2) := by decide +kernel
/-- V-R3. -/
theorem test_ringClear :
    view (fun s => (s.ringFill, s.cursor, s.pending))
        (exec .ringClear { withRing wordsF with cursor := 58, pending := some { frame := frameF, count := 1 } }) =
      some (0, 0, some { frame := frameF, count := 1 }) := by decide +kernel

/-! ### The decoder -/

/-- V-D1. -/
theorem test_parseAt : view (·.replies) (exec (.parseAt 0#32) (withRing wordsF)) = some [{ status := .ok, value := .frame frameF 58 }] := by
  decide +kernel
/-- V-D8a: the primary parse fails, the rescue finds F one position later. -/
theorem test_parseAt_skew :
    view (·.replies) (exec (.parseAt 0#32) (withRing [0x891915A3#32, 0x02D52EC0#32])) = some [{ status := .noFrame, value := .nothing }] := by
  decide +kernel
/-- V-D8a. -/
theorem test_decodeAt_rescue :
    view (·.replies) (exec (.decodeAt 0#32) (withRing [0x891915A3#32, 0x02D52EC0#32])) =
      some [{ status := .ok, value := .frame frameF 59 }] := by decide +kernel
/-- V-D9b and V-D9c: a frame may end exactly at the filled length. -/
theorem test_decodeAt_end :
    view (·.replies) (exec (.decodeAt 24#32) (withRing [0#32, 0#32])) = some [{ status := .ok, value := .frame frameZ 40 }] ∧
      view (·.replies) (exec (.decodeAt 25#32) (withRing [0#32, 0#32])) = some [{ status := .noFrame, value := .nothing }] := by decide +kernel
/-- V-S3: the scan's stop test (D6). -/
theorem test_scan_zeros :
    view (fun s => (s.pending, s.cursor, s.replies)) (exec .scan (withRing [0#32, 0#32, 0#32, 0#32, 0#32])) =
      some (some { frame := frameZ, count := 4 }, 160, [{ status := .ok, value := .cursor 160 }]) := by decide +kernel
/-- V-S5: F then G, the second by a rescue. -/
theorem test_scan_two :
    view (fun s => (s.pending, s.cursor, s.events)) (exec .scan (withRing (wordsF ++ [0x0018014C#32, 0x03808000#32]))) =
      some (some { frame := frameG, count := 1 }, 113, [.avc frameF 1]) := by decide +kernel
/-- V-S10. -/
theorem test_flush :
    view (fun s => (s.pending, s.events)) (exec .flush { base [] with pending := some { frame := frameF, count := 3 } }) =
      some (none, [.avc frameF 3]) := by decide +kernel

/-! ### The encoder -/

/-- V-E1. -/
theorem test_encodeTx :
    view (fun s => (s.sink, s.acc, s.replies)) (exec (.encodeTx 0x123#16 0x456#16 1#8 [0xAA#8, 0xBB#8]) (base (still 1))) =
      some (wordsF, [], [{ status := .ok, value := .nothing }]) := by decide +kernel
/-- P5 lines 4 and 5: operands are checked before the sink. -/
theorem test_encodeTx_fails :
    let s : State := { base (still 1) with cfg := { Config.atReset with sinkDepth := some 1 } }
    view (fun s => (s.sink, s.replies)) (exec (.encodeTx 0x1000#16 0#16 0#8 []) s) = some ([], [{ status := .badOperand, value := .nothing }]) ∧
      view (fun s => (s.sink, s.replies)) (exec (.encodeTx 0x123#16 0x456#16 1#8 [0xAA#8, 0xBB#8]) s) =
        some ([], [{ status := .sinkFull, value := .nothing }]) := by decide +kernel

/-! ### The SPI transaction kinds -/

/-- R201: configuration mode after the reset, whatever CANSTAT held. -/
theorem test_spiReset :
    view (fun s => (s.spiLog, Memory.read s.ext.regs 0x0E)) (exec .spiReset (base (still 1 ++ [[.register 0x0E#8 0x1F#8]]))) =
      some ([.xfer [0xC0#8] []], 0x9F#8) := by decide +kernel
/-- R202's example: the five header bytes of slot 1. -/
theorem test_spiRead :
    view (·.spiLog) (exec (.spiRead 0x71#8 5) (base [[.register 0x71#8 0xC6#8, .register 0x75#8 0x02#8]])) =
      some [.xfer [0x03#8, 0x71#8] [0xC6#8, 0x00#8, 0x00#8, 0x00#8, 0x02#8]] := by decide +kernel
/-- Two registers, the second at the next address. -/
theorem test_spiWrite :
    view (fun s => (Memory.readBytes s.ext.regs 0x2A 3, s.spiLog)) (exec (.spiWrite 0x2A#8 [0x11#8, 0x22#8]) (base (still 1))) =
      some ([0x11#8, 0x22#8, 0x00#8], [.xfer [0x02#8, 0x2A#8, 0x11#8, 0x22#8] []]) := by decide +kernel
/-- R204: only the masked bits change. -/
theorem test_spiBitmod :
    view (fun s => Memory.read s.ext.regs 0x30) (exec (.spiBitmod 0x30#8 0x0C#8 0x08#8) (base [[.register 0x30#8 0xC7#8]])) = some 0xCB#8 := by
  decide +kernel
/-- R205's example: only slot 1 is pending. -/
theorem test_spiReadStatus :
    view (·.spiLog) (exec .spiReadStatus (base [[.register 0x2C#8 0x02#8]])) = some [.xfer [0xA0#8] [0x02#8]] := by decide +kernel

/-! ### The CAN operations -/

/-- V-C18 (R222's example): 11 transactions and the settle wait. -/
theorem test_canInit :
    view (fun s => (s.spiLog, s.canOnline, s.replies)) (exec (.canInit 500000#32) (base (still 12 ++ [[.register 0x0E#8 0x00#8]]))) =
      some ([.xfer [0xC0#8] [], .wait 2, .xfer [0x02#8, 0x36#8, 0x5A#8] [], .xfer [0x03#8, 0x36#8] [0x5A#8],
          .xfer [0x02#8, 0x2A#8, 0x00#8] [], .xfer [0x02#8, 0x29#8, 0x90#8] [], .xfer [0x02#8, 0x28#8, 0x02#8] [],
          .xfer [0x02#8, 0x2B#8, 0x03#8] [], .xfer [0x02#8, 0x60#8, 0x64#8] [], .xfer [0x02#8, 0x70#8, 0x60#8] [],
          .xfer [0x05#8, 0x0F#8, 0xE0#8, 0x00#8] [], .xfer [0x03#8, 0x0E#8] [0x00#8]],
        true, [{ status := .ok, value := .nothing }]) := by decide +kernel
/-- V-C21: the mode never becomes normal. -/
theorem test_canInit_timeout :
    view (fun s => (s.spiLog.drop 11, s.canOnline, s.replies)) (exec (.canInit 500000#32) (online (still 15))) =
      some (List.replicate 3 (.xfer [0x03#8, 0x0E#8] [0x80#8]), false, [{ status := .modeTimeout, value := .nothing }]) := by decide +kernel
/-- V-C17. -/
theorem test_canReset :
    view (fun s => (s.spiLog, s.canOnline, s.ext.settleLeft)) (exec .canReset (online (still 3))) =
      some ([.xfer [0xC0#8] [], .wait 2], false, 0) := by decide +kernel
/-- V-C2: an extended identifier, and ten data bytes clamped to eight. -/
theorem test_canTx :
    view (·.spiLog) (exec (.canTx 1#8 0x18DAF110#32 [0#8, 1#8, 2#8, 3#8, 4#8, 5#8, 6#8, 7#8, 8#8, 9#8]) (online (still 4))) =
      some [.xfer [0x03#8, 0x30#8] [0x00#8], .xfer [0x02#8, 0x31#8, 0xC6#8, 0xCA#8, 0xF1#8, 0x10#8] [],
        .xfer [0x02#8, 0x35#8, 0x08#8, 0#8, 1#8, 2#8, 3#8, 4#8, 5#8, 6#8, 7#8] [], .xfer [0x05#8, 0x30#8, 0x08#8, 0x08#8] []] := by decide +kernel
/-- V-C4, V-C5 and P5 line 6. -/
theorem test_canTx_fails :
    view (fun s => (s.spiLog, s.replies)) (exec (.canTx 0#8 0x7FF#32 [1#8]) (online [[.register 0x30#8 0x08#8]])) =
        some ([.xfer [0x03#8, 0x30#8] [0x08#8]], [{ status := .bufferBusy, value := .nothing }]) ∧
      view (fun s => (s.spiLog, s.replies)) (exec (.canTx 0#8 0x7FF#32 [1#8]) (base [])) =
        some ([], [{ status := .canOffline, value := .nothing }]) ∧
      view (fun s => (s.spiLog, s.replies)) (exec (.canTx 2#8 0x7FF#32 []) (base [])) =
        some ([], [{ status := .badOperand, value := .nothing }]) := by decide +kernel
/-- V-C9: both slots pending, slot 0 is read and only its flag is cleared. -/
theorem test_canRx :
    view (fun s => (s.spiLog, s.replies, Memory.read s.ext.regs 0x2C))
        (exec .canRx (online ([[.register 0x2C#8 0x03#8, .register 0x61#8 0x24#8, .register 0x62#8 0x60#8, .register 0x65#8 0x01#8,
          .register 0x66#8 0xAA#8]] ++ still 3))) =
      some ([.xfer [0xA0#8] [0x03#8], .xfer [0x03#8, 0x61#8] [0x24#8, 0x60#8, 0#8, 0#8, 0x01#8], .xfer [0x03#8, 0x66#8] [0xAA#8],
          .xfer [0x05#8, 0x2C#8, 0x01#8, 0x00#8] []],
        [{ status := .ok, value := .can { id := 0x123#29, extended := false, data := [0xAA#8] } }], 0x02#8) := by decide +kernel
/-- V-C12 and V-C13: no data read with DLC 0; nothing available. -/
theorem test_canRx_empty :
    view (fun s => (s.spiLog, s.replies)) (exec .canRx (online ([[.register 0x2C#8 0x01#8, .register 0x62#8 0x20#8]] ++ still 2))) =
        some ([.xfer [0xA0#8] [0x01#8], .xfer [0x03#8, 0x61#8] [0#8, 0x20#8, 0#8, 0#8, 0#8], .xfer [0x05#8, 0x2C#8, 0x01#8, 0x00#8] []],
          [{ status := .ok, value := .can { id := 1#29, extended := false, data := [] } }]) ∧
      view (·.replies) (exec .canRx (online (still 1))) = some [{ status := .nothing, value := .nothing }] := by decide +kernel
/-- V-C15. -/
theorem test_canErrcnt :
    view (fun s => (s.spiLog, s.replies)) (exec .canErrcnt (online ([[.register 0x1C#8 0x05#8]] ++ still 2))) =
      some ([.xfer [0x03#8, 0x1C#8] [0x05#8], .xfer [0x03#8, 0x1D#8] [0x00#8], .xfer [0x03#8, 0x2D#8] [0x00#8]],
        [{ status := .ok, value := .counters 0x05#8 0x00#8 0x00#8 }]) := by decide +kernel

/-! ### The sequencer -/

/-- V-Q1. -/
theorem test_elapsed : (elapsedTicks 32 0x10 0xFFFFFFF0, elapsedTicks 32 5 5, elapsedTicks 32 5 6) = (0x20, 0, 2 ^ 32 - 1) := by decide +kernel
/-- P4 iteration 2: two words drained, the fill trigger decodes F, F, and the ring is cleared. -/
theorem test_schedStep_decodes :
    view (fun s => (s.ringFill, s.lastRxTs, s.pending, s.events, s.replies.length))
        (exec .schedStep
          { base ([[.tick 101]] ++ still 8) with
            ring := wordsF ++ [0#32, 0#32], ringFill := 2, ext := { External.atReset with env := [[.tick 101]] ++ still 8, src := wordsF } }) =
      some (0, 101, some { frame := frameF, count := 2 }, [], 1) := by decide +kernel
/-- P4 iteration 6: a CAN command while offline. -/
theorem test_schedStep_command :
    view (·.events) (exec .schedStep (base ([[.command (.canTx 0x7FF false [1#8])]] ++ still 4))) =
      some [.status .canOffline (.command (.canTx 0x7FF false [1#8]))] := by decide +kernel
/-- P4 boot: the scratch register does not read back. -/
theorem test_boot_fails :
    view (fun s => (s.events.length, s.phase, s.canOnline, s.spiLog.length))
        (step { State.reset with ext := { External.atReset with env := still 4 ++ [[.register 0x36#8 0x00#8]] } }) =
      some (1, .loop, false, 4) := by decide +kernel
/-- P5 line 1 through `step`: the reserved opcode is reported and nothing else changes. -/
theorem test_step_illegal : step ((base []).presenting (.op [0x00#8])) = .next ((base []).reply .illegalOp .nothing) := rfl

/-! ### The table's words as the first instruction after reset -/

/-- Every byte of the opcode table decodes, and a step of the reset state with it presented answers a next state. -/
theorem test_fetch_words :
    ([0x01, 0x02, 0x10, 0x11, 0x12, 0x13, 0x20, 0x30, 0x31, 0x32, 0x33, 0x34, 0x40, 0xC0, 0x03, 0x05, 0xA0].all fun w =>
      (decodeTableWord 8 w).isSome && (view (fun _ => ()) (step (State.reset.withFetchWord 8 w))).isSome) = true := by decide +kernel

/-! ### Witnesses: for every obligation with hypotheses, states and operands that meet them, at the boundaries of its clauses -/

/-- A well-formed configuration; what most witnesses below rest on. -/
theorem witness_config : Config.atReset.wf := by decide +kernel
theorem witness_EncodedInstructionDecodesBack :
    WellFormed (.encodeTx 0xFFFF#16 0#16 0xFF#8 (List.replicate 255 0#8)) ∧ WellFormed (.canTx 0xFF#8 0#32 []) ∧
      WellFormed (.spiRead 0x00#8 256) ∧ WellFormed (.spiWrite 0xFF#8 [0#8]) := by decide +kernel
theorem witness_AcceptedBytesBeginWithTheEncoding : decodeOp [0x02#8, 0x55#8] = .ok .ringClear := by decide +kernel
theorem witness_IllegalOrShortOperationReturnsIllegalOp :
    operationLength [] = none ∧ operationLength [0x21#8] = none ∧ operationLength [0x01#8, 0#8, 0#8, 0#8] = some 5 ∧
      operationLength [0x20#8, 0#8, 0#8, 0#8, 0#8, 0#8, 2#8, 0#8] = some 9 ∧ ((base []).presenting (.op [])).ext.port = [.op []] := by decide +kernel
theorem witness_StepRunsTheDecodedInstruction :
    ((base []).presenting (.op [0x12#8])).ext.port = [.op [0x12#8]] ∧ (base []).ext.port = [] ∧ (base []).phase = .loop ∧
      decodeRequest Config.atReset (.op [0x12#8]) = .ok .scan := by decide +kernel
theorem witness_EqualSpiCommandBytesAreRefused :
    let c : Config := { Config.atReset with cmdReadStatus := 0xC0#8 }
    c.cmdBytes[0]? = c.cmdBytes[4]? := by decide +kernel
theorem witness_RingPushAppendsOrDrops :
    let s : State := { base [] with ringFill := 3 }
    let t : State := { base [] with ringFill := 4 }
    s.ringFill < s.cfg.ringWords ∧ t.cfg.ringWords ≤ t.ringFill := by decide +kernel
theorem witness_FilledWordsAreTheAcceptedPushes : State.reset.ring.length = State.reset.cfg.ringWords := by decide +kernel
/-- A success, a failure inside the region, and the first position at which 40 positions do not remain. -/
theorem witness_ParseAtReportsThePrimaryParse :
    parseAt wordsF 2 0 = some (frameF, 58) ∧ parseAt wordsF 2 1 = none ∧ 2 * 32 < (25#32).toNat + 40 := by decide +kernel
theorem witness_DecodeAtTriesTheRescueParse :
    parseAt [0x891915A3#32, 0x02D52EC0#32] 2 0 = none ∧ parseAt [0x891915A3#32, 0x02D52EC0#32] 2 1 = some (frameF, 58) ∧
      2 * 32 < (24#32).toNat + 41 := by decide +kernel
theorem witness_UnfilledRingWordsAreUnobservable : (wordsF ++ [0xFFFFFFFF#32]).take 2 = (withRing wordsF).ring.take (withRing wordsF).ringFill := by
  decide +kernel
theorem witness_ScanCursorStaysInTheFilledRegion :
    decodeAt [0#32, 0#32] 2 24 = some (frameZ, 40) ∧ decodeAt wordsF 2 24 = none ∧ 24 + 40 ≤ 2 * 32 := by decide +kernel
theorem witness_FlushEmitsThePendingFrame :
    (base []).pending = none ∧ ({ base [] with pending := some { frame := frameF, count := 1 } } : State).pending = some { frame := frameF, count := 1 } := by
  decide +kernel
/-- The first and the last position of F inverted; and a ring whose rescue parse, after one inversion, reads another frame. -/
theorem witness_SingleInvertedBitIsDetected :
    parseAt [0x92322B46#32, 0x05AA5D80#32] 2 0 = none ∧ parseAt [0x12322B46#32, 0x05AA5DC0#32] 2 0 = none ∧
      (parseAt [0x00180000#32, 0#32] 2 0).isSome ∧ parseAt [0x80180000#32, 0#32] 2 0 = none ∧
      (decodeAt [0x80180000#32, 0#32] 2 0).map (fun r => r.1.master) = some 3#12 := by decide +kernel
theorem witness_ZeroWordsScanAsZeroFrames : (withRing [0#32, 0#32]).ring.all (· == 0#32) = true ∧ (withRing [0#32, 0#32]).pending = none := by
  decide +kernel
theorem witness_IdenticalRunEmitsOneEventWithItsCount : 1 ≤ [0, 1].sum ∧ frameG ≠ frameF ∧ frameZ ≠ frameF ∧ (base []).pending = none := by
  decide +kernel
/-- The longest frame, with room for exactly its 11 words. -/
theorem witness_EncodeTxPushesTheFramesBits :
    let f : AvcFrame := { frameF with payload := List.replicate 32 0xFF#8 }
    f.wf ∧ ({ base (still 1) with cfg := { Config.atReset with sinkDepth := some 11 } } : State).yield.sinkHasRoom ((40 + 9 * f.payload.length + 31) / 32) = true := by
  decide +kernel
theorem witness_EncodeTxFailsWithoutPushing :
    2 ^ 12 ≤ (0x1000#16).toNat ∧ 2 ^ 4 ≤ (0x10#8).toNat ∧ 32 < (List.replicate 33 0#8).length ∧
      1 - (((base (still 1)).ext.yield Config.atReset).sinkHeld) < (40 + 9 * [0#8].length + 31) / 32 := by decide +kernel
theorem witness_EncodedFrameDecodesToItself : (withRing wordsF).ringFill = wordsF.length ∧ (withRing wordsF).ring.take 2 = wordsF ∧ frameF.wf := by
  decide +kernel
theorem witness_FrameWordCountAndPadding : ({ frameF with payload := List.replicate 24 0#8 } : AvcFrame).wf ∧ (40 + 9 * 24) % 32 = 0 := by decide +kernel
theorem witness_SpiResetEntersConfigurationMode : (base (still 2)).cfg.wf ∧ Memory.wf (base (still 2)).ext.regs ∧ (base (still 2)).still 2 := by
  unfold State.still
  decide +kernel
theorem witness_SpiReadReturnsTheRegisters : 1 ≤ 1 ∧ (0xFF#8).toNat + 1 ≤ 256 ∧ (0x00#8).toNat + 256 ≤ 256 ∧ (base []).ext.settleLeft = 0 := by
  decide +kernel
theorem witness_SpiWriteWritesConsecutiveRegisters : 1 ≤ [0#8].length ∧ (0xFF#8).toNat + [0#8].length ≤ 256 ∧ Memory.wf [(0x30, 0x08#8)] := by
  decide +kernel
/-- A canonical memory, and a mask with bits of both kinds. -/
theorem witness_SpiBitmodChangesTheMaskedBits :
    Memory.wf [(0x00, 0xFF#8), (0xFF, 0x08#8)] ∧ (0x81#8).getLsbD 7 = true ∧ (0x81#8).getLsbD 6 = false ∧ (0xFF#8).toNat ≠ (0x00#8).toNat := by
  decide +kernel
theorem witness_SpiReadStatusShowsTheReceiveFlags : Config.atReset.bitStRx0if ≠ Config.atReset.bitStRx1if ∧ (base []).ext.settleLeft = 0 := by
  decide +kernel
theorem witness_BareSpiRangeStops : 256 < (0xFF#8).toNat + 2 ∧ 256 < (0x00#8).toNat + 257 := by decide +kernel
theorem witness_IdentifiersPackAndUnpack :
    (0x7FF#29).toNat < 2 ^ 11 ∧ (0x08#8).getLsbD 3 = true ∧ (0xF7#8).getLsbD 3 = false ∧
      packId 0x7FF#29 false ++ [0xFF#8, 0xFF#8] = [0xFF#8, 0xE0#8, 0xFF#8, 0xFF#8] := by decide +kernel
theorem witness_CanInitBringsCanOnline :
    (Config.atReset.bitTiming.find? fun x => x.rate = (500000#32).toNat).isSome ∧
      (base (still 12 ++ [[.register 0x0E#8 0x00#8]])).ext.env = List.replicate 12 [] ++ [.register Config.atReset.regCanstat 0x00#8] :: [] ∧
      field3 0x00#8 Config.atReset.bitOpmod = Config.atReset.opmodeNormal ∧ Memory.wf (base []).ext.regs ∧
      (let c := Config.atReset
       [c.regCnf1, c.regCnf2, c.regCnf3, c.regCaninte, c.regRxb0ctrl, c.regRxb1ctrl, c.regCanctrl, c.regCanstat].Nodup) := by decide +kernel
/-- The slot is free; both largest identifiers. -/
theorem witness_CanTxProgramsAndRequests :
    (online (still 4)).canOnline = true ∧ (1#8).toNat < 2 ∧ (0x7FF#32).toNat < (if 0#8 = 1#8 then 2 ^ 29 else 2 ^ 11) ∧
      (0x1FFFFFFF#32).toNat < (if 1#8 = 1#8 then 2 ^ 29 else 2 ^ 11) ∧
      (Memory.read ((online (still 4)).ext.yield Config.atReset).regs 0x30).getLsbD 3 = false := by decide +kernel
theorem witness_CanTxLeavesTheSlotProgrammed :
    (online (still 4)).still 4 ∧ Config.atReset.regTxb0ctrl.toNat < Config.atReset.regTxb0sidh.toNat ∧
      (Memory.read (online (still 4)).ext.regs Config.atReset.regTxb0ctrl.toNat).getLsbD Config.atReset.bitTxreq = false := by
  unfold State.still
  decide +kernel
theorem witness_CanTxBusyWritesNothing :
    (Memory.read ((online [[.register 0x30#8 0x08#8]]).ext.yield Config.atReset).regs 0x30).getLsbD 3 = true := by decide +kernel
theorem witness_CanChecksComeBeforeTheLink :
    2 ≤ (2#8).toNat ∧ 2 ^ 11 ≤ (0x800#32).toNat ∧ 2 ^ 29 ≤ (0x20000000#32).toNat ∧ (base []).canOnline = false := by decide +kernel
theorem witness_CanRxReturnsNothing :
    (statusByte Config.atReset ((online (still 1)).ext.yield Config.atReset)).getLsbD 0 = false ∧
      (statusByte Config.atReset ((online (still 1)).ext.yield Config.atReset)).getLsbD 1 = false := by decide +kernel
/-- Slot 0 pending, and slot 1 alone. -/
theorem witness_CanRxReadsOneSlot :
    (statusByte Config.atReset ((online [[.register 0x2C#8 0x03#8]]).ext.yield Config.atReset)).getLsbD 0 = true ∧
      (statusByte Config.atReset ((online [[.register 0x2C#8 0x02#8]]).ext.yield Config.atReset)).getLsbD 0 = false ∧
      (statusByte Config.atReset ((online [[.register 0x2C#8 0x02#8]]).ext.yield Config.atReset)).getLsbD 1 = true := by decide +kernel
theorem witness_CanErrcntReadsThreeRegisters : (online []).canOnline = true ∧ (online []).ext.settleLeft = 0 := by decide +kernel
theorem witness_SpiTransactionsAreBounded : (view (fun _ => ()) (exec .canErrcnt (online (still 3)))).isSome := by decide +kernel
/-- Two commands available at once with the agents still; the largest master id and the first beyond it; a control no operand byte could hold; the same
for a CAN identifier. -/
theorem witness_EveryCommandGetsOneStatusEvent :
    let u : State := { base (still 9) with ext := { External.atReset with env := still 9, hostIn := [.unparsed, .avcTx 0 0 300 []] } }
    u.still (4 * u.ext.hostIn.length + 1) ∧
      (dispatchCommands u).events = [.status .badCommand (.command .unparsed), .status .badOperand (.command (.avcTx 0 0 300 []))] ∧
      (dispatchCommands u).ext.hostIn = [] ∧ (dispatchCommand (base (still 1)) (.avcTx 0xFFF 0 0 [])).sink.length = 2 ∧
      (0xFFF#16).toNat = 0xFFF ∧ 2 ^ 12 ≤ 0x1000 ∧ (0x7FF#32).toNat = 0x7FF ∧ 2 ^ 11 ≤ 0x800 ∧ 2 ^ 29 ≤ 2 ^ 40 := by
  unfold State.still
  decide +kernel
/-- One word of two with the agents still, so the source runs empty; and two of three, so it does not. -/
theorem witness_AvcDrainPushesWhatItTakes :
    (base (still 5)).still (2 * (base []).cfg.avcDrainMax + 1) ∧
      (drainLoop 2 { base (still 5) with ext := { External.atReset with env := still 5, src := [1#32] } }).2 = [1#32] ∧
      (drainLoop 2 { base (still 5) with ext := { External.atReset with env := still 5, src := [1#32, 2#32, 3#32] } }).2 = [1#32, 2#32] := by
  unfold State.still
  decide +kernel
theorem witness_CanDrainEmitsBoundedFrames :
    (base []).canOnline = false ∧ ((online (still 1)).ext.yield Config.atReset).canIrq = false ∧
      ((online [[.irq true]]).ext.yield Config.atReset).canIrq = true ∧ (canRx (base [])).2.status ≠ .ok ∧
      (canRx (online ([[.register 0x2C#8 0x01#8]] ++ still 2))).2.status = .ok := by decide +kernel
/-- 75 percent of 4 words is 3: the fill trigger holds at 4 and not at 3; the idle trigger holds at 6 ms and not at 5. -/
theorem witness_DecodePassRunsOnItsTrigger :
    3 * Config.atReset.ringWords < 4 * 4 ∧ 4 * 3 ≤ 3 * Config.atReset.ringWords ∧ Config.atReset.idleMs < elapsedTicks 32 6 0 ∧
      elapsedTicks 32 5 0 ≤ Config.atReset.idleMs := by decide +kernel
theorem witness_FlushCheckRunsOnItsCondition :
    Config.atReset.flushMs < elapsedTicks 32 21 0 ∧ elapsedTicks 32 20 0 ≤ Config.atReset.flushMs := by decide +kernel
/-- 8 words and a drain of 2 meet the no-drop condition exactly; 4 words do not, and the second word taken is dropped. -/
theorem witness_IterationBoundsRingOccupancy : Config.atReset.wf ∧
    Config.atReset.ringWords < 3 * Config.atReset.ringWords / 4 + Config.atReset.avcDrainMax ∧ 3 * 8 / 4 + 2 ≤ 8 ∧ 4 * 6 ≤ 3 * 8 ∧ (base []).ringFill = 0 ∧
    (let u : State := { base [] with ringFill := 3, ext := { External.atReset with env := still 5, src := [1#32, 2#32] } }
     (avcDrain u).ringFill = 4 ∧ (drainLoop u.cfg.avcDrainMax u).2.length = 2) := by decide +kernel
theorem witness_ElapsedIsTheModularDifference : 0xFFFFFFFF < 2 ^ 32 ∧ 0 < 2 ^ 32 ∧ 5 ≤ 5 := by decide +kernel
theorem witness_DeviceResetResetsTheBlock : ((base []).presenting .deviceReset).ext.port = [.deviceReset] := by decide +kernel
theorem witness_BootInitialisesCanThenAnnouncesReady : State.reset.phase = .boot ∧ State.reset.cfg.wf ∧
    (500000#32).toNat = State.reset.cfg.canBitrate := by decide +kernel
theorem witness_LoopNeverEmitsReady :
    (base (still 5)).phase = .loop ∧ (base (still 5)).ext.port.head? ≠ some .deviceReset ∧ (view (fun _ => ()) (step (base (still 5)))).isSome := by
  decide +kernel
/-- A state of the loop that meets the invariant and whose step answers a state. -/
theorem witness_EveryStepKeepsTheInvariant :
    (base (still 5)).Inv ∧ (view (fun _ => ()) (step (base (still 5)))).isSome := by
  refine ⟨⟨witness_config, ?_, ?_, ?_, nofun, ?_, rfl, nofun, ?_, nofun, ?_, ?_⟩, ?_⟩ <;> decide +kernel
theorem witness_InvariantHoldsAtReset : External.atReset.tick < 2 ^ Config.atReset.tickBits ∧ Memory.wf External.atReset.regs ∧
    External.atReset.eventsUnread = 0 := by decide +kernel
theorem witness_EveryOperationReturnsOneStatus : Instr.onCommandPort (.canTx 0#8 0#32 []) = true ∧ Instr.onCommandPort .scan = true := by
  decide +kernel
theorem witness_ReplyBytesFollowTheResultFormat :
    Reply.bytes { status := .ok, value := .frame frameF 58 } =
      [0x00#8, 0x01#8, 0x23#8, 0x04#8, 0x56#8, 0x01#8, 0x02#8, 0xAA#8, 0xBB#8, 0#8, 0#8, 0#8, 58#8] ∧
    Reply.bytes { status := .ok, value := .cursor (2 ^ 32 - 1) } = [0x00#8, 0xFF#8, 0xFF#8, 0xFF#8, 0xFF#8] := by decide +kernel

/-- The source may lose any run of its queued words (N20, D14): here the middle two of four. -/
theorem test_sourceLoss_takes_out_a_run :
    (applyMove Config.atReset { External.atReset with src := [1#32, 2#32, 3#32, 4#32] } (.sourceLoss 1 2)).src = [1#32, 4#32] := by decide

end Sys2Proof.Tests
end

section
/-! PROOFS. The statements on the block's state (spec/10_state.md): the reset values (R45), the ring words no decoder operation observes (R21, R22), the scan
cursor's bound (R24), and the invariant of the machine, at reset and after every step. -/

namespace Sys2Proof.Machine

/-! ### The state after reset -/

/-- Settles O53: `State.resetWith` spells out every value R45 lists. -/
theorem resetSetsTheBlockState : Obligations.ResetSetsTheBlockState := by
  intro c e
  exact ⟨rfl, rfl, rfl, rfl, rfl, rfl, rfl, rfl, rfl, rfl⟩

/-- Reset establishes the invariant whatever the agents' queues hold: the recorded tick is the counter's, and no event is left unread (R45, R310). -/
theorem State.resetWith_inv {c : Config} {e : External} (hc : c.wf) (he : External.Inv c e) (hu : e.eventsUnread = 0) :
    (State.resetWith c e).Inv where
  cfg := hc
  ring := List.length_replicate
  fill := Nat.zero_le _
  cursor := Nat.zero_le _
  pending := nofun
  lastRx := he.tick
  acc := rfl
  events := nofun
  unread := Nat.le_of_eq hu
  replies := nofun
  ext := he

theorem External.atReset_inv (c : Config) : External.Inv c External.atReset := ⟨Nat.two_pow_pos _, Memory.wf_nil⟩

/-- Settles O58: reset establishes the invariant, and the configuration and the agents of the model's reset state meet its premises. -/
theorem invariantHoldsAtReset : Obligations.InvariantHoldsAtReset := by
  have hwf : Config.atReset.wf := by decide
  exact ⟨rfl, State.resetWith_inv hwf (External.atReset_inv _) rfl, fun _ _ => State.resetWith_inv⟩

/-! ### The scan cursor (R24) -/

/-- One iteration of the scan loop keeps the fill, and its cursor stays in the filled region: a decode consumes at most what remains, and a failed one leaves
at least 39 positions. -/
theorem scanStep_bounds {s t : State} (h : ScanStep s t) :
    t.ringFill = s.ringFill ∧ t.cursor ≤ s.ringFill * 32 ∧
      (decodeAt s.ring s.ringFill s.cursor = none → t.cursor + 39 ≤ s.ringFill * 32) := by
  obtain ⟨hroom, ⟨f, n, hdec, rfl⟩ | ⟨hdec, rfl⟩⟩ := h
  · obtain ⟨hwf, -, hend⟩ := decodeAt_bounds hdec
    obtain ⟨_, _, _, hco, -⟩ := avcRun_coalesce hwf s
    exact ⟨by rw [hco], hend, fun hnone => by simp [hdec] at hnone⟩
  · exact ⟨rfl, by simp only; omega, fun _ => by simp only; omega⟩

/-- Every iteration keeps the bound, so it holds at every point of a scan. -/
theorem scanSteps_bounds {s t : State} (h : ScanSteps s t) (hs : s.cursor ≤ s.ringFill * 32) :
    t.ringFill = s.ringFill ∧ t.cursor ≤ s.ringFill * 32 := by
  induction h with
  | refl => exact ⟨rfl, hs⟩
  | tail _ hstep ih =>
    obtain ⟨hfill, -⟩ := ih
    obtain ⟨hfill', hcur, -⟩ := scanStep_bounds hstep
    exact ⟨hfill'.trans hfill, hfill ▸ hcur⟩

/-- Settles O16, by the bound of a decode and an induction over the scan's iterations. -/
theorem scanCursorStaysInTheFilledRegion : Obligations.ScanCursorStaysInTheFilledRegion := by
  refine ⟨fun _ _ _ _ _ h => (decodeAt_bounds h).2.2, fun s t h => ?_⟩
  obtain ⟨hfill, hcur⟩ : t.ringFill = s.ringFill ∧ t.cursor ≤ s.ringFill * 32 :=
    scanSteps_bounds (s := { s with cursor := 0 }) h (Nat.zero_le _)
  refine ⟨hfill ▸ hcur, fun u hu => ?_, fun hcap => ?_⟩
  · obtain ⟨hfill', hcur', hfail⟩ := scanStep_bounds hu
    exact ⟨hfill' ▸ hcur', hfill' ▸ hfail⟩
  · have hlt : t.cursor < s.cfg.ringWords * 32 + 1 := by omega
    exact Nat.lt_of_lt_of_le hlt (Nat.le_pow_clog (by omega) _)

/-! ### Ring words at or above the fill (R21, R22) -/

/-- A decode looks only at the filled region (R21, R145). -/
theorem decodeAt_congr {ring ring' : List Word} {fill : Nat} (h : ∀ b, b < fill * 32 → ringBit ring b = ringBit ring' b) (p : Nat) :
    decodeAt ring fill p = decodeAt ring' fill p := by
  simp only [decodeAt, parseAt_congr h]

/-- `s` with other words in its ring. -/
def State.withRing (ring : List Word) (s : State) : State := { s with ring := ring }

/-- Coalescing does not look at the ring, and leaves it and its fill alone (R147). -/
theorem coalesce_frame (f : AvcFrame) (s : State) :
    (∀ ring, coalesce f (s.withRing ring) = (coalesce f s).withRing ring) ∧ (coalesce f s).ring = s.ring ∧ (coalesce f s).ringFill = s.ringFill := by
  cases hp : s.pending with
  | none => simp [coalesce, State.withRing, hp]
  | some p => by_cases hf : p.frame = f <;> simp [coalesce, State.withRing, hp, hf, State.emit]

section

variable {dec : List Word → Nat → Nat → Option (AvcFrame × Nat)} {s : State} (fuel : Nat)

/-- Fewer than 40 positions remain: the scan loop ends (R146, D6). -/
theorem scanLoop_of_short (h : ¬ s.cursor + minFrameBits ≤ s.filledBits) : scanLoop dec (fuel + 1) s = s := by
  rw [scanLoop, if_neg h]

/-- A frame is coalesced and consumed (R146). -/
theorem scanLoop_of_some (h : s.cursor + minFrameBits ≤ s.filledBits) {f : AvcFrame} {n : Nat}
    (hd : dec s.ring s.ringFill s.cursor = some (f, n)) :
    scanLoop dec (fuel + 1) s = scanLoop dec fuel { coalesce f s with cursor := s.cursor + n } := by
  rw [scanLoop, if_pos h, hd]

/-- Where no frame is found the cursor moves by one position (R146). -/
theorem scanLoop_of_none (h : s.cursor + minFrameBits ≤ s.filledBits) (hd : dec s.ring s.ringFill s.cursor = none) :
    scanLoop dec (fuel + 1) s = scanLoop dec fuel { s with cursor := s.cursor + 1 } := by
  rw [scanLoop, if_pos h, hd]

/-- A scan loop sees of the ring only what its parser does: over two rings the parser cannot tell apart at this fill, it does the same (R146). -/
theorem scanLoop_withRing {ring : List Word} (h : ∀ p, dec ring s.ringFill p = dec s.ring s.ringFill p) :
    scanLoop dec fuel (s.withRing ring) = (scanLoop dec fuel s).withRing ring := by
  induction fuel generalizing s with
  | zero => rfl
  | succ fuel ih =>
    by_cases hroom : s.cursor + minFrameBits ≤ s.filledBits
    · cases hd : dec s.ring s.ringFill s.cursor with
      | none =>
        rw [scanLoop_of_none fuel hroom hd, scanLoop_of_none fuel (s := s.withRing ring) hroom ((h _).trans hd)]
        exact ih (s := { s with cursor := s.cursor + 1 }) h
      | some r =>
        obtain ⟨hcomm, hring, hfill⟩ := coalesce_frame r.1 s
        rw [scanLoop_of_some fuel hroom hd, scanLoop_of_some fuel (s := s.withRing ring) hroom ((h _).trans hd), hcomm]
        exact ih (s := { coalesce r.1 s with cursor := s.cursor + r.2 }) (by simpa only [hring, hfill] using h)
    · rw [scanLoop_of_short fuel hroom, scanLoop_of_short fuel (s := s.withRing ring) hroom]

end

/-- Settles O14: both parses read ring bits of the filled region only, and the scan reads the ring through its parser only. -/
theorem unfilledRingWordsAreUnobservable : Obligations.UnfilledRingWordsAreUnobservable := by
  intro s ring h
  have hbits : ∀ b, b < s.ringFill * 32 → ringBit ring b = ringBit s.ring b := fun _ => ringBit_of_take h
  exact ⟨parseAt_congr hbits, decodeAt_congr hbits, scanLoop_withRing _ (s := { s with cursor := 0 }) (decodeAt_congr hbits)⟩

/-! ### The invariant under the shared operations -/

/-- The controller's registers may be replaced by a canonical memory. -/
theorem External.Follows.withRegs {c : Config} {e e' : External} {m : Memory} (h : External.Follows c e e')
    (hm : Memory.wf e'.regs → Memory.wf m) : External.Follows c e { e' with regs := m } :=
  ⟨fun i => ⟨(h.inv i).tick, hm (h.inv i).regs⟩, h.unread⟩

namespace State.Inv

variable {s t : State}

/-- A run of the block keeps every clause of the invariant. -/
theorem of_blockRun (h : s.Inv) (hr : BlockRun s t) : t.Inv := by
  obtain ⟨new, hevents, hunread, -, hnew⟩ := hr.events
  have hc := hr.cfg
  exact {
    cfg := hc ▸ h.cfg
    ring := by rw [hr.ring, hc, h.ring]
    fill := hc ▸ hr.fill h.fill
    cursor := hr.cursor h.cursor
    pending := hr.pending h.pending
    lastRx := hc ▸ hr.lastRx h.cfg h.ext h.lastRx
    acc := hr.acc h.acc
    events := by
      rw [hevents]
      exact fun e he => (List.mem_append.1 he).elim (h.events e) (hnew h.pending e)
    unread := by
      rw [hevents, List.length_append]
      exact Nat.le_trans (hunread h.cfg) (Nat.add_le_add_right h.unread _)
    replies := hr.replies ▸ h.replies
    ext := hc ▸ hr.ext h.cfg h.ext }

theorem of_spiRun (h : s.Inv) (hr : SpiRun s t) : t.Inv := h.of_blockRun hr.blockRun

/-- The agents move on and the link's log changes, and nothing else does. -/
theorem withExt {e : External} (h : s.Inv) (he : External.Follows s.cfg s.ext e) (log : List SpiEvent) :
    { s with ext := e, spiLog := log }.Inv :=
  { h with unread := Nat.le_trans he.unread h.unread, ext := he.inv h.ext }

theorem withOnline (h : s.Inv) (b : Bool) : (s.withOnline b).Inv := { h with }

theorem withPhase (h : s.Inv) (p : Phase) : { s with phase := p }.Inv := { h with }

theorem taken (h : s.Inv) : s.taken.Inv :=
  h.withExt (e := s.taken.ext) ⟨fun i => ⟨i.tick, i.regs⟩, Nat.le_refl _⟩ s.spiLog

theorem emit {e : Event} (h : s.Inv) (he : e.wf) : (s.emit e).Inv :=
  { h with
    events := List.forall_mem_append.2 ⟨h.events, by simpa using he⟩
    unread := by simpa using h.unread
    ext := ⟨h.ext.tick, h.ext.regs⟩ }

theorem reply (h : s.Inv) (st : Status) {v : Value} (hv : v.wf) : (s.reply st v).Inv :=
  { h with replies := List.forall_mem_append.2 ⟨h.replies, by simpa using hv⟩ }

end State.Inv

/-! ### The invariant under the meanings -/

/-- An answer that is a state meets the invariant. -/
def Answer.Inv (r : Result) : Prop := ∀ t, r = .next t → t.Inv

theorem Answer.inv_next {t : State} (h : t.Inv) : Answer.Inv (.next t) := by
  rintro _ ⟨⟩
  exact h

theorem Answer.inv_fault (f : Fault) : Answer.Inv (.fault f) := nofun

theorem Answer.inv_refused (r : Refusal) : Answer.Inv (.refused r) := nofun

theorem blockRun_scan (s : State) : BlockRun s (scan s) :=
  (avcRun_scan s).blockRun fun _ => scanLoop_cursor_le _ (Nat.zero_le _)

@[simp] theorem flush_cursor (s : State) : (flush s).cursor = s.cursor := by
  unfold flush
  split <;> rfl

@[simp] theorem flush_ringFill (s : State) : (flush s).ringFill = s.ringFill := by
  unfold flush
  split <;> rfl

theorem blockRun_flush (s : State) : BlockRun s (flush s) :=
  (avcRun_flush s).blockRun fun h => by simpa [State.filledBits] using h

theorem blockRun_encodeTx (m sl : BitVec 16) (c : Byte) (d : List Byte) (s : State) : BlockRun s (encodeTx m sl c d s).1 := by
  obtain h | h | ⟨t, h, ht⟩ := encodeTx_spec m sl c d s <;> rw [h]
  · exact .refl s
  · exact blockRun_yield s
  · exact (blockRun_yield s).trans ht.blockRun

section

variable {s : State} (h : s.Inv)
include h

/-- The answer of a parse carries a well-formed frame where the parse yields only such (R94). -/
theorem replyFrame_inv {r : Option (AvcFrame × Nat)} (hr : ∀ f n, r = some (f, n) → f.wf) : (replyFrame r s).Inv := by
  obtain - | ⟨f, n⟩ := r
  · exact h.reply _ trivial
  · exact h.reply _ (v := .frame f n) (hr f n rfl)

theorem canReset_inv : (canReset s).Inv := (h.of_spiRun (spiRun_canResetBody s)).withOnline false

theorem canInit_inv (r : Nat) : (canInit r s).1.Inv := by
  obtain ⟨u, hu, he, -⟩ := canInit_spec r s
  rw [he]
  exact ((h.withOnline false).of_spiRun hu).withOnline _

theorem execCanTx_inv (f : Byte) (id : BitVec 32) (d : List Byte) : Answer.Inv (execCanTx f id d s) := by
  unfold execCanTx
  split
  · exact Answer.inv_next ((h.of_spiRun (canTx_spec _ _ _ s).1).reply _ trivial)
  · exact Answer.inv_next (h.reply _ trivial)

theorem execCanRx_inv : Answer.Inv (execCanRx s) := by
  obtain ⟨hrun, hreply⟩ := canRx_spec s
  refine Answer.inv_next ((h.of_spiRun hrun).reply _ ?_)
  obtain ⟨f, hf, hw⟩ | hf | hf := hreply <;> rw [hf]
  · exact hw
  · trivial
  · trivial

theorem execCanErrcnt_inv : Answer.Inv (execCanErrcnt s) := by
  obtain ⟨hrun, hreply⟩ := canErrcnt_spec s
  refine Answer.inv_next ((h.of_spiRun hrun).reply _ ?_)
  obtain ⟨a, b, c, hf⟩ | hf := hreply <;> rw [hf] <;> trivial

/-- A bare READ of any length: no register changes. -/
theorem execSpiRead_inv (a : Byte) (k : Nat) : Answer.Inv (execSpiRead a k s) := by
  unfold execSpiRead
  split
  · exact Answer.inv_refused _
  · split
    · exact Answer.inv_fault _
    · obtain ⟨e, miso, hread, -, he, -⟩ := spiRead_spec a k s
      rw [hread, he]
      exact Answer.inv_next (h.withExt (External.follows_of_draws (External.follows_yield _ _)) _)

/-- A bare WRITE of any length: the registers it writes exist, or it stops. -/
theorem execSpiWrite_inv (a : Byte) (d : List Byte) : Answer.Inv (execSpiWrite a d s) := by
  unfold execSpiWrite
  split
  · exact Answer.inv_refused _
  · split
    · exact Answer.inv_fault _
    · next hfits =>
      rw [spiWrite_eq]
      exact Answer.inv_next (h.withExt ((External.follows_yield _ _).withRegs fun hm => Memory.writeBytes_wf hm (Nat.not_lt.1 hfits)) _)

/-- Every instruction keeps the invariant. -/
theorem exec_inv (i : Instr) : Answer.Inv (exec i s) := by
  cases i with
  | ringPush w => exact Answer.inv_next ((h.of_blockRun (blockRun_ringPush w s)).reply _ trivial)
  | ringClear => exact Answer.inv_next ((h.of_blockRun (blockRun_ringClear s)).reply _ trivial)
  | parseAt p => exact Answer.inv_next (replyFrame_inv h fun _ _ hp => (parseAt_bounds hp).1)
  | decodeAt p => exact Answer.inv_next (replyFrame_inv h fun _ _ hp => (decodeAt_bounds hp).1)
  | scan => exact Answer.inv_next ((h.of_blockRun (blockRun_scan s)).reply _ trivial)
  | flush => exact Answer.inv_next ((h.of_blockRun (blockRun_flush s)).reply _ trivial)
  | encodeTx m sl c d => exact Answer.inv_next ((h.of_blockRun (blockRun_encodeTx m sl c d s)).reply _ trivial)
  | canReset => exact Answer.inv_next ((canReset_inv h).reply _ trivial)
  | canInit r => exact Answer.inv_next ((canInit_inv h r.toNat).reply _ trivial)
  | canTx f id d => exact execCanTx_inv h f id d
  | canRx => exact execCanRx_inv h
  | canErrcnt => exact execCanErrcnt_inv h
  | schedStep => exact Answer.inv_next ((h.of_blockRun (blockRun_iteration s)).reply _ trivial)
  | spiReset => exact Answer.inv_next (h.of_spiRun (spiRun_spiReset s))
  | spiRead a k => exact execSpiRead_inv h a k
  | spiWrite a d => exact execSpiWrite_inv h a d
  | spiBitmod a m d => exact Answer.inv_next (h.of_spiRun (spiRun_spiBitmod a m d s))
  | spiReadStatus => exact Answer.inv_next (h.of_spiRun (spiRun_spiReadStatus s))

/-! ### The invariant under a step -/

/-- Device reset: the agents' state after their moves is still in range, and the emptied event queue holds nothing unread (R310). -/
theorem deviceReset_inv : (deviceReset s).Inv := by
  have hy := External.yield_inv s.cfg h.ext
  exact State.resetWith_inv h.cfg ⟨hy.tick, hy.regs⟩ rfl

theorem boot_inv : (boot s).Inv :=
  ((canInit_inv h s.cfg.canBitrate).emit (e := .status .ready (.startup s.cfg.fwVersion _)) trivial).withPhase .loop

theorem runRequest_inv (r : Request) : Answer.Inv (runRequest r s) := by
  unfold runRequest
  split
  · exact exec_inv h _
  · cases r with
    | op bytes => exact Answer.inv_next (h.reply _ trivial)
    | spi mosi k => exact Answer.inv_refused _
    | deviceReset => exact Answer.inv_next (deviceReset_inv h)

theorem stepConfigured_inv : Answer.Inv (stepConfigured s) := by
  unfold stepConfigured
  split
  · exact Answer.inv_next (boot_inv h)
  · split
    · exact Answer.inv_next (h.of_blockRun (blockRun_iteration s))
    · exact runRequest_inv h.taken _

end

/-- Settles O57, by cases over what a step runs: the boot sequence, an iteration, or the request presented. -/
theorem everyStepKeepsTheInvariant : Obligations.EveryStepKeepsTheInvariant := by
  intro s t h hstep
  rw [step_of_wf h.cfg] at hstep
  exact stepConfigured_inv h t hstep

end Sys2Proof.Machine
end

section
/-! PROOFS. The statements on the encoding (spec/30_encoding.md): decode and encode agree in both directions (R88 to R91), bytes that are no operation answer
`ILLEGAL_OP` (R93), a step runs what it decodes (R90), and the bytes of a result (R94). -/

namespace Sys2Proof

open Sys2Proof.Machine

/-! ### Opcode bytes and operand bytes (R90, R91) -/

/-- The byte of an opcode (R91). -/
def Opcode.byte : Opcode → Byte
  | .ringPush => 0x01#8
  | .ringClear => 0x02#8
  | .parseAt => 0x10#8
  | .decodeAt => 0x11#8
  | .scan => 0x12#8
  | .flush => 0x13#8
  | .encodeTx => 0x20#8
  | .canReset => 0x30#8
  | .canInit => 0x31#8
  | .canTx => 0x32#8
  | .canRx => 0x33#8
  | .canErrcnt => 0x34#8
  | .schedStep => 0x40#8

theorem opcodeOf_byte (o : Opcode) : opcodeOf o.byte = some o := by
  cases o <;> rfl

theorem eq_byte_of_opcodeOf {b : Byte} {o : Opcode} (h : opcodeOf b = some o) : b = o.byte := by
  have hmap : ∀ row ∈ opcodeMap, row.1 = row.2.byte := by decide
  exact hmap (b, o) (opcodeOf_some h)

/-- An opcode byte followed by operands its layout reads is that operation (R91). -/
theorem decodeOp_byte_cons (o : Opcode) (args : List Byte) {i : Instr} (h : decodeOperands o args = some i) :
    decodeOp (o.byte :: args) = .ok i := by
  simp only [decodeOp, opcodeOf_byte, h]

/-- Two bytes are the bytes of the value they spell (R90). -/
theorem bytes16_ofBytes16 (b1 b0 : Byte) : bytes16 (ofBytes16 b1 b0) = [b1, b0] := by
  rw [bytes16, ofBytes16, BitVec.extractLsb'_append_eq_left, BitVec.extractLsb'_append_eq_right]

/-- Four bytes are the bytes of the value they spell (R90). -/
theorem bytes32_ofBytes32 (b3 b2 b1 b0 : Byte) : bytes32 (ofBytes32 b3 b2 b1 b0) = [b3, b2, b1, b0] := by
  simp only [bytes32, ofBytes32, BitVec.extractLsb'_append_eq_of_le, BitVec.extractLsb'_append_eq_right, BitVec.extractLsb'_eq_self,
    Nat.reduceLeDiff, Nat.reduceSub]

theorem lengthByte_eq_of_length {n : Byte} {d : List Byte} (h : d.length = n.toNat) : lengthByte d = n := by
  rw [lengthByte, h, BitVec.ofNat_toNat, BitVec.setWidth_eq]

/-- The encoder's length byte counts exactly the bytes it was made for (R91). -/
theorem countedBytes_lengthByte {d : List Byte} (h : d.length ≤ 255) : countedBytes (lengthByte d) d = some d := by
  rw [countedBytes, lengthByte_toNat h, if_pos le_rfl, List.take_length]

/-- Counted bytes are encoded by the length byte they were read with, and can be (R90, R91). -/
theorem countedBytes_encoded {n : Byte} {rest d : List Byte} (h : countedBytes n rest = some d) :
    countFits d ∧ ∃ tail, n :: rest = lengthByte d :: d ++ tail := by
  obtain ⟨-, hd, hlen⟩ := countedBytes_some h
  refine ⟨by have := n.isLt; omega, rest.drop n.toNat, ?_⟩
  rw [lengthByte_eq_of_length hlen, hd, List.cons_append, List.take_append_drop]

/-! ### Decoding an encoding -/

theorem Config.cmdBytes_nodup {c : Config} (h : c.wf) : c.cmdBytes.Nodup := by
  obtain ⟨-, hnodup, -⟩ := h
  exact hnodup

/-- The five command bytes of a well-formed configuration differ, each from those the decoder tries before it (R89). -/
theorem Config.cmdBytes_ne {c : Config} (h : c.wf) :
    c.cmdRead ≠ c.cmdReset ∧ (c.cmdWrite ≠ c.cmdReset ∧ c.cmdWrite ≠ c.cmdRead) ∧
      (c.cmdBitmod ≠ c.cmdReset ∧ c.cmdBitmod ≠ c.cmdRead ∧ c.cmdBitmod ≠ c.cmdWrite) ∧
      (c.cmdReadStatus ≠ c.cmdReset ∧ c.cmdReadStatus ≠ c.cmdRead ∧ c.cmdReadStatus ≠ c.cmdWrite ∧ c.cmdReadStatus ≠ c.cmdBitmod) := by
  have hd := Config.cmdBytes_nodup h
  simp only [Config.cmdBytes, List.nodup_cons, List.mem_cons, List.not_mem_nil, or_false, not_or] at hd
  tauto

/-- Settles O1, by cases over the instruction: an operand layout reads back the bytes written for it (R91), and an SPI command byte is none of those the
decoder tries before it (R88, R89). -/
theorem encodedInstructionDecodesBack : Obligations.EncodedInstructionDecodesBack := by
  intro c i hc hi
  obtain ⟨hread, hwrite, hbitmod, hstatus⟩ := Config.cmdBytes_ne hc
  cases i with
  | ringPush w => exact decodeOp_byte_cons .ringPush (bytes32 _) (congrArg (some ∘ Instr.ringPush) (ofBytes32_bytes32 w))
  | ringClear => exact decodeOp_byte_cons .ringClear [] rfl
  | parseAt p => exact decodeOp_byte_cons .parseAt (bytes32 _) (congrArg (some ∘ Instr.parseAt) (ofBytes32_bytes32 p))
  | decodeAt p => exact decodeOp_byte_cons .decodeAt (bytes32 _) (congrArg (some ∘ Instr.decodeAt) (ofBytes32_bytes32 p))
  | scan => exact decodeOp_byte_cons .scan [] rfl
  | flush => exact decodeOp_byte_cons .flush [] rfl
  | encodeTx m s ctl d =>
    have hd : d.length ≤ 255 := of_decide_eq_true hi
    refine decodeOp_byte_cons .encodeTx _ ?_
    simp [bytes16, decodeOperands, countedBytes_lengthByte hd, ofBytes16_bytes16]
  | canReset => exact decodeOp_byte_cons .canReset [] rfl
  | canInit r => exact decodeOp_byte_cons .canInit (bytes32 _) (congrArg (some ∘ Instr.canInit) (ofBytes32_bytes32 r))
  | canTx f id d =>
    have hd : d.length ≤ 255 := of_decide_eq_true hi
    refine decodeOp_byte_cons .canTx _ ?_
    simp [bytes32, decodeOperands, countedBytes_lengthByte hd, ofBytes32_bytes32]
  | canRx => exact decodeOp_byte_cons .canRx [] rfl
  | canErrcnt => exact decodeOp_byte_cons .canErrcnt [] rfl
  | schedStep => exact decodeOp_byte_cons .schedStep [] rfl
  | spiReset => simp [encode, decodeRequest, decodeSpi]
  | spiRead a k =>
    obtain ⟨hk, -⟩ : registersExist a k := of_decide_eq_true hi
    obtain ⟨n, rfl⟩ := Nat.exists_eq_add_of_le' hk
    simp [encode, decodeRequest, decodeSpi, hread]
  | spiWrite a d =>
    obtain ⟨hk, -⟩ : registersExist a d.length := of_decide_eq_true hi
    obtain ⟨v, ds, rfl⟩ := List.exists_cons_of_length_pos hk
    simp [encode, decodeRequest, decodeSpi, hwrite]
  | spiBitmod a m d => simp [encode, decodeRequest, decodeSpi, hbitmod]
  | spiReadStatus => simp [encode, decodeRequest, decodeSpi, hstatus]

/-! ### Encoding what was decoded -/

/-- What the operand layout of an opcode reads is well formed, and its encoding is the opcode's byte and the leading bytes that were read (R91). -/
theorem decodeOperands_some (c : Config) {i : Instr} : ∀ {o : Opcode} {rest : List Byte}, decodeOperands o rest = some i →
    WellFormed i ∧ ∃ args tail, encode c i = .op (o.byte :: args) ∧ rest = args ++ tail
  | .ringPush, w3 :: w2 :: w1 :: w0 :: tail, rfl => ⟨rfl, _, tail, rfl, by rw [bytes32_ofBytes32]; rfl⟩
  | .ringClear, rest, rfl => ⟨rfl, [], rest, rfl, rfl⟩
  | .parseAt, p3 :: p2 :: p1 :: p0 :: tail, rfl => ⟨rfl, _, tail, rfl, by rw [bytes32_ofBytes32]; rfl⟩
  | .decodeAt, p3 :: p2 :: p1 :: p0 :: tail, rfl => ⟨rfl, _, tail, rfl, by rw [bytes32_ofBytes32]; rfl⟩
  | .scan, rest, rfl => ⟨rfl, [], rest, rfl, rfl⟩
  | .flush, rest, rfl => ⟨rfl, [], rest, rfl, rfl⟩
  | .encodeTx, m1 :: m0 :: s1 :: s0 :: ctl :: n :: rest, h => by
    obtain ⟨d, hd, rfl⟩ := Option.map_eq_some_iff.1 h
    obtain ⟨hfits, tail, htail⟩ := countedBytes_encoded hd
    exact ⟨decide_eq_true hfits, _, tail, rfl, by simp [bytes16_ofBytes16, htail]⟩
  | .canReset, rest, rfl => ⟨rfl, [], rest, rfl, rfl⟩
  | .canInit, r3 :: r2 :: r1 :: r0 :: tail, rfl => ⟨rfl, _, tail, rfl, by rw [bytes32_ofBytes32]; rfl⟩
  | .canTx, f :: i3 :: i2 :: i1 :: i0 :: n :: rest, h => by
    obtain ⟨d, hd, rfl⟩ := Option.map_eq_some_iff.1 h
    obtain ⟨hfits, tail, htail⟩ := countedBytes_encoded hd
    exact ⟨decide_eq_true hfits, _, tail, rfl, by simp [bytes32_ofBytes32, htail]⟩
  | .canRx, rest, rfl => ⟨rfl, [], rest, rfl, rfl⟩
  | .canErrcnt, rest, rfl => ⟨rfl, [], rest, rfl, rfl⟩
  | .schedStep, rest, rfl => ⟨rfl, [], rest, rfl, rfl⟩

/-- Settles O2: the first byte is the opcode's, and the operand layout read the leading bytes after it. -/
theorem acceptedBytesBeginWithTheEncoding : Obligations.AcceptedBytesBeginWithTheEncoding := by
  intro c bytes i h
  obtain ⟨op, rest, o, rfl, hop, hargs⟩ := decodeOp_ok h
  obtain ⟨hwf, args, tail, henc, rfl⟩ := decodeOperands_some c hargs
  exact ⟨hwf, o.byte :: args, tail, henc, by rw [eq_byte_of_opcodeOf hop, List.cons_append]⟩

/-! ### Bytes that are no operation (R93) -/

/-- Every encoding has its own form. -/
theorem encodedForm (i : Instr) : Laws.EncodedForm.Statement i := by
  cases i with
  | ringPush w => exact Laws.EncodedForm.ringPush w
  | ringClear => exact Laws.EncodedForm.ringClear
  | parseAt p => exact Laws.EncodedForm.parseAt p
  | decodeAt p => exact Laws.EncodedForm.decodeAt p
  | scan => exact Laws.EncodedForm.scan
  | flush => exact Laws.EncodedForm.flush
  | encodeTx m s ctl d => exact Laws.EncodedForm.encodeTx m s ctl d
  | canReset => exact Laws.EncodedForm.canReset
  | canInit r => exact Laws.EncodedForm.canInit r
  | canTx f id d => exact Laws.EncodedForm.canTx f id d
  | canRx => exact Laws.EncodedForm.canRx
  | canErrcnt => exact Laws.EncodedForm.canErrcnt
  | schedStep => exact Laws.EncodedForm.schedStep
  | spiReset => exact Laws.EncodedForm.spiReset
  | spiRead a k => exact Laws.EncodedForm.spiRead a k
  | spiWrite a d => exact Laws.EncodedForm.spiWrite a d
  | spiBitmod a m d => exact Laws.EncodedForm.spiBitmod a m d
  | spiReadStatus => exact Laws.EncodedForm.spiReadStatus

/-- An encoding on the command port has the length R91 gives it. -/
theorem operationLength_encode {c : Config} {i : Instr} {es : List Byte} (hi : WellFormed i) (h : encode c i = .op es) :
    operationLength es = some es.length := by
  have hform := encodedForm i hi c
  rwa [h] at hform

/-- A whole operation's total length does not depend on the bytes after it. -/
theorem operationLength_append {es : List Byte} (h : operationLength es = some es.length) (tail : List Byte) :
    operationLength (es ++ tail) = some es.length := by
  cases es with
  | nil => cases h
  | cons op args =>
    rw [← h]
    simp only [operationLength, List.cons_append] at h ⊢
    split
    · rfl
    · split
      · rfl
      · split
        · rename_i hshort hword hcounted
          simp only [if_neg hshort, if_neg hword, if_pos hcounted, Option.some.injEq, List.length_cons] at h
          rw [List.getD_append _ _ _ _ (by omega)]
        · rfl

/-- What decodes holds its operation in full: R91 gives it a length, and it is not shorter (R93). -/
theorem operationLength_of_decodeOp {bytes : List Byte} {i : Instr} (h : decodeOp bytes = .ok i) :
    ∃ n, operationLength bytes = some n ∧ n ≤ bytes.length := by
  obtain ⟨hwf, es, tail, henc, rfl⟩ := acceptedBytesBeginWithTheEncoding Config.atReset bytes i h
  exact ⟨es.length, operationLength_append (operationLength_encode hwf henc) tail, by simp⟩

theorem runRequest_of_ok {r : Request} {s : State} {i : Instr} (h : decodeRequest s.cfg r = .ok i) : runRequest r s = exec i s := by
  rw [runRequest, h]

theorem runRequest_of_error {r : Request} {s : State} {e : DecodeError} (h : decodeRequest s.cfg r = .error e) :
    runRequest r s = runUndecoded r s := by
  rw [runRequest, h]

/-- Settles O4: what decodes would hold its operation in full, so the bytes do not decode. -/
theorem illegalOrShortOperationReturnsIllegalOp : Obligations.IllegalOrShortOperationReturnsIllegalOp := by
  intro s bytes rest hwf hphase hport hbad
  rw [step_of_wf hwf, stepConfigured_request hphase hport]
  cases hdec : decodeOp bytes with
  | error e => exact runRequest_of_error (r := .op bytes) hdec
  | ok i =>
    obtain ⟨n, hlen, hle⟩ := operationLength_of_decodeOp hdec
    obtain hnone | ⟨m, hm, hlt⟩ := hbad
    · simp [hnone] at hlen
    · obtain rfl : m = n := Option.some.inj (hm.symm.trans hlen)
      omega

/-! ### The bytes of a result (R94) -/

theorem bytes16_toNat (v : BitVec 16) : (bytes16 v).map BitVec.toNat = [v.toNat / 256, v.toNat % 256] := by
  have htop : v.toNat / 2 ^ 8 < 2 ^ 8 := by have := v.isLt; omega
  simpa [bytes16, BitVec.extractLsb'_toNat, Nat.shiftRight_eq_div_pow] using htop

theorem bytes32_toNat (v : BitVec 32) :
    (bytes32 v).map BitVec.toNat = [v.toNat / 2 ^ 24, v.toNat / 2 ^ 16 % 256, v.toNat / 2 ^ 8 % 256, v.toNat % 256] := by
  have htop : v.toNat / 2 ^ 24 < 2 ^ 8 := by have := v.isLt; omega
  simpa [bytes32, BitVec.extractLsb'_toNat, Nat.shiftRight_eq_div_pow] using htop

theorem positionBytes_toNat {n : Nat} (h : n < 2 ^ 32) :
    (positionBytes n).map BitVec.toNat = [n / 2 ^ 24, n / 2 ^ 16 % 256, n / 2 ^ 8 % 256, n % 256] := by
  rw [positionBytes, bytes32_toNat, BitVec.toNat_ofNat, Nat.mod_eq_of_lt h]

theorem payloadBytes_toNat {d : List Byte} (h : d.length ≤ 255) : (payloadBytes d).map BitVec.toNat = d.length :: d.map BitVec.toNat := by
  rw [payloadBytes, List.map_cons, lengthByte_toNat h]

theorem extendedByte_toNat (b : Bool) : (if b then 1#8 else 0#8).toNat = b.toNat := by
  cases b <;> rfl

/-- Settles O60, by the kinds of result values. -/
theorem replyBytesFollowTheResultFormat : Obligations.ReplyBytesFollowTheResultFormat := by
  refine ⟨fun st => rfl, fun f n hf hn => ?frame, fun n hn => ?cursor, fun f hf => ?can, fun a b c => rfl⟩
  case frame =>
    have hd : f.payload.length ≤ 255 := Nat.le_trans hf (by decide)
    simp [-BitVec.toNat_setWidth, Reply.bytes, Value.bytes, Status.code, bytes16_toNat, payloadBytes_toNat hd, positionBytes_toNat hn,
      BitVec.toNat_setWidth_of_le]
  case cursor => simp [Reply.bytes, Value.bytes, Status.code, positionBytes_toNat hn]
  case can =>
    have hd : f.data.length ≤ 255 := Nat.le_trans hf.1 (by decide)
    simp [-BitVec.toNat_setWidth, Reply.bytes, Value.bytes, Status.code, bytes32_toNat, payloadBytes_toNat hd, extendedByte_toNat,
      BitVec.toNat_setWidth_of_le]

/-! ### Decoding at the port, and the step -/

/-- Settles O3: the bytes of R91's and R88's tables, evaluated. -/
theorem sampleOperationsDecode : Obligations.SampleOperationsDecode := ⟨rfl, rfl, rfl, rfl, rfl, rfl⟩

/-- Settles O5: what the request at the head of the port decodes to, or an iteration where the port is empty. -/
theorem stepRunsTheDecodedInstruction : Obligations.StepRunsTheDecodedInstruction := by
  intro s hwf hphase
  rw [step_of_wf hwf]
  refine ⟨fun r rest i hport hdec => ?_, stepConfigured_idle hphase⟩
  rw [stepConfigured_request hphase hport]
  exact runRequest_of_ok hdec

/-- Settles O6: a well-formed configuration lists each command byte once. -/
theorem equalSpiCommandBytesAreRefused : Obligations.EqualSpiCommandBytesAreRefused := by
  rintro s ⟨i, j, hne, heq⟩
  refine step_of_not_wf fun hwf => hne (Fin.ext ?_)
  exact (Config.cmdBytes_nodup hwf).getElem_inj_iff.1 heq

end Sys2Proof
end

section
/-! PROOFS. The statements on the bit ring (spec/40_bit_ring.md): RING_PUSH (R121), RING_CLEAR (R122), and what the ring holds after a list of pushes (R123). -/

namespace Sys2Proof.Machine

/-! ### The two operations (R121, R122) -/

/-- Settles O7: a push that finds room, and one that finds none; the words below the fill stay by `ringPush_spec`. -/
theorem ringPushAppendsOrDrops : Obligations.RingPushAppendsOrDrops := by
  intro s w
  refine ⟨(ringPush w s).reply .ok .nothing, rfl, fun hroom => ?room, fun hfull => ?full, fun i hi => ?kept⟩
  case room => rw [ringPush_of_lt w hroom]; rfl
  case full => rw [ringPush_of_full w hfull]; rfl
  case kept =>
    obtain ⟨ring, fill, hpush, -, -, -, -, hkept⟩ := ringPush_spec w s
    rw [hpush]
    exact hkept i hi

/-- Settles O8: `ringClear` and the reply name every field that changes. -/
theorem ringClearEmptiesTheRing : Obligations.RingClearEmptiesTheRing := fun _ => rfl

/-! ### The ring after a list of pushes (R123) -/

@[simp] theorem ringPush_cfg (w : Word) (s : State) : (ringPush w s).cfg = s.cfg := by
  obtain ⟨_, _, hpush, -⟩ := ringPush_spec w s
  rw [hpush]

theorem foldl_ringPush_cfg (ws : List Word) (s : State) : (ws.foldl (fun u w => ringPush w u) s).cfg = s.cfg :=
  List.foldlRecOn (motive := fun t : State => t.cfg = s.cfg) ws _ rfl fun t ht w _ => (ringPush_cfg w t).trans ht

/-- The filled words are what the ring accepts of the pushes `ws`: all of them while there is room, and the first RING_WORDS of them from then on (R123). -/
structure State.HoldsPushes (s : State) (ws : List Word) : Prop where
  size : s.ring.length = s.cfg.ringWords
  fill : s.ringFill = min ws.length s.cfg.ringWords
  words : s.ring.take s.ringFill = ws.take s.cfg.ringWords

theorem ringClear_holdsPushes {s : State} (h : s.ring.length = s.cfg.ringWords) : (ringClear s).HoldsPushes [] where
  size := h
  fill := (Nat.zero_min _).symm
  words := List.take_nil.symm

/-- A push below capacity appends its word to the filled words; at capacity it leaves them, and the limit cuts its word off (R121). -/
theorem State.HoldsPushes.push {s : State} {ws : List Word} (h : s.HoldsPushes ws) (w : Word) : (ringPush w s).HoldsPushes (ws ++ [w]) := by
  obtain ⟨hsize, hfill, hwords⟩ := h
  have hpushed : (ws ++ [w]).length = ws.length + 1 := List.length_append
  by_cases hroom : s.ringFill < s.cfg.ringWords
  · have hlen : ws.length = s.ringFill := by omega
    have hall : ws.take s.cfg.ringWords = ws := List.take_of_length_le (by omega)
    rw [ringPush_of_lt w hroom]
    refine ⟨by simpa using hsize, by simp only; omega, ?_⟩
    calc (s.ring.set s.ringFill w).take (s.ringFill + 1)
        = s.ring.take s.ringFill ++ [w] := by
          rw [List.take_add_one, List.take_set_of_le (Nat.le_refl _), List.getElem?_set_self (by omega)]; rfl
      _ = ws ++ [w] := by rw [hwords, hall]
      _ = (ws ++ [w]).take s.cfg.ringWords := (List.take_of_length_le (by omega)).symm
  · have hcap : s.cfg.ringWords ≤ ws.length := by omega
    rw [ringPush_of_full w (Nat.not_lt.1 hroom)]
    refine ⟨hsize, by omega, ?_⟩
    rw [hwords, List.take_append_of_le_length hcap]

theorem State.HoldsPushes.foldl {s : State} {us : List Word} (h : s.HoldsPushes us) (ws : List Word) :
    (ws.foldl (fun u w => ringPush w u) s).HoldsPushes (us ++ ws) := by
  induction ws generalizing s us with
  | nil => rwa [List.append_nil]
  | cons w ws ih => simpa using ih (h.push w)

/-- Settles O9: a cleared ring holds no push, and every push keeps the correspondence. -/
theorem filledWordsAreTheAcceptedPushes : Obligations.FilledWordsAreTheAcceptedPushes := by
  intro s ws hsize t
  have hcfg : t.cfg = s.cfg := foldl_ringPush_cfg ws (ringClear s)
  obtain ⟨hsize', hfill, hwords⟩ : t.HoldsPushes ws := (ringClear_holdsPushes hsize).foldl ws
  rw [hcfg] at hsize' hfill hwords
  exact ⟨hfill, hwords, hsize', rfl⟩

end Sys2Proof.Machine
end

section
/-! PROOFS. The statements on the decoder (spec/41_avc_decoder.md). A parse succeeds exactly where the stream carries a frame's bits (R143); the round trip
with the encoder (R150), the detection of one inverted bit (R151) and the scan of zero words (R152) follow from that. -/

namespace Sys2Proof.Machine

/-! ### The stream of a ring -/

/-- The stream of `ring` carries `bits` from position `p` on. -/
def StreamAt (ring : List Word) (p : Nat) (bits : List Bool) : Prop := ringBits ring p bits.length = bits

theorem ringBits_add (ring : List Word) (p m n : Nat) : ringBits ring p (m + n) = ringBits ring p m ++ ringBits ring (p + m) n := by
  simp only [ringBits, List.range_add, List.map_append, List.map_map, Function.comp_def, Nat.add_assoc]

theorem ringBits_succ (ring : List Word) (p n : Nat) : ringBits ring p (n + 1) = ringBits ring p n ++ [ringBit ring (p + n)] :=
  ringBits_add ring p n 1

@[simp] theorem streamAt_nil (ring : List Word) (p : Nat) : StreamAt ring p [] := rfl

theorem streamAt_append {ring : List Word} {p : Nat} {xs ys : List Bool} :
    StreamAt ring p (xs ++ ys) ↔ StreamAt ring p xs ∧ StreamAt ring (p + xs.length) ys := by
  unfold StreamAt
  rw [List.length_append, ringBits_add]
  exact ⟨fun h => List.append_inj h (ringBits_length _ _ _), fun ⟨hx, hy⟩ => by rw [hx, hy]⟩

/-- One inverted position changes a run of ring bits in one place. -/
theorem ringBits_of_inverted {ring ring' : List Word} {q : Nat} (hsame : ∀ b, b ≠ q → ringBit ring' b = ringBit ring b)
    (hinv : ringBit ring' q = !ringBit ring q) {p m : Nat} (hp : p ≤ q) :
    ringBits ring' p m = (ringBits ring p m).set (q - p) (!ringBit ring q) := by
  refine List.ext_getElem (by simp [ringBits]) fun i hi _ => ?_
  simp only [ringBits, List.getElem_map, List.getElem_range, List.getElem_set]
  by_cases hiq : q - p = i
  · rw [if_pos hiq, show p + i = q by omega, hinv]
  · rw [if_neg hiq, hsame _ (by omega)]

/-! ### Fields of the stream (R140, R141) -/

/-- Counting from the most significant bit finds the same 1 bits. -/
theorem popcount_eq_count {n : Nat} (v : BitVec n) : popcount v = ((List.range n).map v.getMsbD).count true := by
  have hrev : (List.range n).reverse = (List.range n).map fun i => n - 1 - i := by
    rw [List.range_eq_range', List.reverse_range', ← List.range_eq_range']
    simp
  have hmsb : (List.range n).map v.getMsbD = (List.range n).reverse.map v.getLsbD := by
    rw [hrev, List.map_map]
    refine List.map_congr_left fun i hi => ?_
    simp [BitVec.getMsbD, List.mem_range.1 hi]
  rw [hmsb, List.map_reverse, List.count_reverse, List.count, List.countP_map, popcount]
  exact List.countP_congr fun i _ => by simp

theorem ringBits_eq_fieldValue (ring : List Word) (p n : Nat) : ringBits ring p n = (List.range n).map (fieldValue ring p n).getMsbD :=
  List.map_congr_left fun _ hi => (fieldValue_getMsbD ring p (List.mem_range.1 hi)).symm

theorem fieldValue_eq_iff {ring : List Word} {p n : Nat} {v : BitVec n} :
    fieldValue ring p n = v ↔ ringBits ring p n = (List.range n).map v.getMsbD := by
  rw [ringBits_eq_fieldValue]
  refine ⟨fun h => by rw [h], fun h => BitVec.eq_of_getMsbD_eq fun i hi => ?_⟩
  exact List.map_inj_left.1 h i (List.mem_range.2 hi)

/-- The parity bit is the popcount modulo 2 (R140). -/
theorem fieldValid_iff {ring : List Word} {p n : Nat} :
    fieldValid ring p n = true ↔ (ringBit ring (p + n)).toNat = popcount (fieldValue ring p n) % 2 := by
  rw [fieldValid, parity, beq_iff_eq]
  obtain h | h := Nat.mod_two_eq_zero_or_one (popcount (fieldValue ring p n)) <;> cases ringBit ring (p + n) <;> simp [h]

/-- A field with its parity bit holds an even number of 1s, or it is not valid (R140). -/
theorem fieldValid_iff_even {ring : List Word} {p n : Nat} :
    fieldValid ring p n = true ↔ (ringBits ring p (n + 1)).count true % 2 = 0 := by
  have hlast : [ringBit ring (p + n)].count true = (ringBit ring (p + n)).toNat := by cases ringBit ring (p + n) <;> rfl
  have := (ringBit ring (p + n)).toNat_le
  rw [fieldValid_iff, ringBits_succ, List.count_append, ringBits_eq_fieldValue, ← popcount_eq_count, hlast]
  omega

/-- The stream carries a field's bits exactly where a field read finds its value with good parity. -/
theorem streamAt_fieldBits {ring : List Word} {p n : Nat} {v : BitVec n} :
    StreamAt ring p (fieldBits v) ↔ fieldValue ring p n = v ∧ fieldValid ring p n = true := by
  rw [fieldBits, streamAt_append, fieldValue_eq_iff]
  simp only [StreamAt, List.length_map, List.length_range]
  refine and_congr_right fun hbits => ?_
  simp [fieldValid, fieldValue_eq_iff.2 hbits, ringBits]

theorem readField_eq_some_iff {ring : List Word} {fill p n : Nat} {v : BitVec n} :
    readField ring fill p n = some v ↔ p + n + 1 ≤ fill * 32 ∧ StreamAt ring p (fieldBits v) := by
  rw [readField_some, streamAt_fieldBits, and_comm (a := fieldValue ring p n = v)]

/-- Inverting one bit of a list changes whether its number of 1s is even. -/
theorem count_true_set_not {bits : List Bool} {i : Nat} (h : i < bits.length) :
    (bits.set i (!bits[i])).count true % 2 ≠ bits.count true % 2 := by
  induction bits generalizing i with
  | nil => simp at h
  | cons b bits ih =>
    cases i with
    | zero => cases b <;> simp <;> omega
    | succ i =>
      have := ih (Nat.lt_of_succ_lt_succ h)
      simp only [List.set_cons_succ, List.getElem_cons_succ, List.count_cons]
      omega

/-- One inverted position inside a field or at its parity bit spoils the field (R151). -/
theorem not_fieldValid_of_inverted {ring ring' : List Word} {q : Nat} (hsame : ∀ b, b ≠ q → ringBit ring' b = ringBit ring b)
    (hinv : ringBit ring' q = !ringBit ring q) {p n : Nat} (hp : p ≤ q) (hq : q ≤ p + n) (hvalid : fieldValid ring p n = true) :
    ¬ fieldValid ring' p n = true := by
  have hlen : q - p < (ringBits ring p (n + 1)).length := by rw [ringBits_length]; omega
  have hbit : (ringBits ring p (n + 1))[q - p] = ringBit ring q := by simp [ringBits, show p + (q - p) = q by omega]
  rw [fieldValid_iff_even] at hvalid ⊢
  rw [ringBits_of_inverted hsame hinv hp, ← hbit]
  exact fun heven => count_true_set_not hlen (heven.trans hvalid.symm)

/-! ### The outcome of a parse (R142, R143) -/

theorem streamAt_payload {ring : List Word} {q : Nat} {d : List Byte} :
    StreamAt ring q (d.flatMap fieldBits) ↔ ∀ k (h : k < d.length), StreamAt ring (q + 9 * k) (fieldBits d[k]) := by
  induction d generalizing q with
  | nil => simp
  | cons b d ih =>
    rw [List.flatMap_cons, streamAt_append, ih, fieldBits_length]
    refine ⟨fun ⟨hb, hd⟩ k hk => ?_, fun h => ⟨h 0 (Nat.succ_pos _), fun k hk => ?_⟩⟩
    · cases k with
      | zero => exact hb
      | succ k => simpa [Nat.mul_add, Nat.add_assoc, Nat.add_comm] using hd k (Nat.lt_of_succ_lt_succ hk)
    · simpa [Nat.mul_add, Nat.add_assoc, Nat.add_comm] using h (k + 1) (Nat.succ_lt_succ hk)

theorem readPayload_eq_some_iff {ring : List Word} {fill count q : Nat} {d : List Byte} :
    readPayload ring fill count q = some d ↔
      d.length = count ∧ (0 < count → q + 9 * count ≤ fill * 32) ∧ StreamAt ring q (d.flatMap fieldBits) := by
  induction count generalizing q d with
  | zero =>
    cases d <;> simp [readPayload]
  | succ count ih =>
    have hstep : readPayload ring fill (count + 1) q = some d ↔
        ∃ b, readField ring fill q 8 = some b ∧ ∃ d', readPayload ring fill count (q + 9) = some d' ∧ b :: d' = d := by
      rw [readPayload]
      cases readField ring fill q 8 <;> simp
    rw [hstep]
    constructor
    · rintro ⟨b, hb, d', hd', rfl⟩
      obtain ⟨hend, hbits⟩ := readField_eq_some_iff.1 hb
      obtain ⟨hlen, hend', hbits'⟩ := ih.1 hd'
      refine ⟨by simp [hlen], fun _ => ?_, streamAt_append.2 ⟨hbits, hbits'⟩⟩
      rcases Nat.eq_zero_or_pos count with h0 | hpos
      · omega
      · have := hend' hpos
        omega
    · rintro ⟨hlen, hend, hbits⟩
      have hend := hend (Nat.succ_pos _)
      obtain - | ⟨b, d'⟩ := d
      · simp at hlen
      · obtain ⟨hb, hd'⟩ := streamAt_append.1 hbits
        exact ⟨b, readField_eq_some_iff.2 ⟨by omega, hb⟩, d', ih.2 ⟨by simpa using hlen, fun _ => by omega, hd'⟩, rfl⟩

/-- The procedure of `ParseAt` as a chain of reads. -/
theorem parseAt_eq_bind (ring : List Word) (fill p : Nat) :
    parseAt ring fill p =
      (readField ring fill p 12).bind fun m => (readField ring fill (p + 13) 12).bind fun s =>
      (readField ring fill (p + 26) 4).bind fun c => (readField ring fill (p + 31) 8).bind fun n =>
        if n.toNat > maxPayload then none
        else (readPayload ring fill n.toNat (p + 40)).map fun d =>
          ({ master := m, slave := s, control := c, payload := d }, 40 + 9 * n.toNat) := by
  rw [parseAt]
  cases readField ring fill p 12 with
  | none => rfl
  | some m =>
    cases readField ring fill (p + 13) 12 with
    | none => rfl
    | some s =>
      cases readField ring fill (p + 26) 4 with
      | none => rfl
      | some c => cases readField ring fill (p + 31) 8 <;> rfl

theorem streamAt_frameBits {ring : List Word} {p : Nat} {f : AvcFrame} :
    StreamAt ring p (frameBits f) ↔
      StreamAt ring p (fieldBits f.master) ∧ StreamAt ring (p + 13) (fieldBits f.slave) ∧ StreamAt ring (p + 26) (fieldBits f.control) ∧
        StreamAt ring (p + 31) (fieldBits (BitVec.ofNat 8 f.payload.length)) ∧ StreamAt ring (p + 40) (f.payload.flatMap fieldBits) := by
  simp only [frameBits, streamAt_append, fieldBits_length, List.length_append, and_assoc]

/-- R143: ParseAt yields a frame exactly where the stream carries the frame's bits inside the filled region. -/
theorem parseAt_eq_some_iff {ring : List Word} {fill p : Nat} {f : AvcFrame} {n : Nat} :
    parseAt ring fill p = some (f, n) ↔
      n = 40 + 9 * f.payload.length ∧ f.wf ∧ p + 40 + 9 * f.payload.length ≤ fill * 32 ∧ StreamAt ring p (frameBits f) := by
  rw [streamAt_frameBits]
  constructor
  · intro h
    obtain ⟨hwf, hn, hend⟩ := parseAt_bounds h
    simp only [parseAt_eq_bind, Option.bind_eq_some_iff, readField_eq_some_iff, Option.ite_none_left_eq_some, Option.map_eq_some_iff,
      readPayload_eq_some_iff, Prod.mk.injEq] at h
    obtain ⟨m, ⟨-, hm⟩, s, ⟨-, hs⟩, c, ⟨-, hc⟩, len, ⟨-, hlen⟩, -, d, ⟨hd, -, hbits⟩, rfl, -⟩ := h
    refine ⟨hn, hwf, by omega, hm, hs, hc, ?_, hbits⟩
    simpa only [hd, BitVec.ofNat_toNat, BitVec.setWidth_eq] using hlen
  · rintro ⟨rfl, hwf, hend, hm, hs, hc, hlen, hbits⟩
    have hwf' : f.payload.length ≤ 32 := hwf
    have htoNat : (BitVec.ofNat 8 f.payload.length).toNat = f.payload.length := by
      rw [BitVec.toNat_ofNat, Nat.mod_eq_of_lt (by omega)]
    have hpayload : readPayload ring fill f.payload.length (p + 40) = some f.payload :=
      readPayload_eq_some_iff.2 ⟨rfl, fun _ => hend, hbits⟩
    rw [parseAt_eq_bind, readField_eq_some_iff.2 ⟨by omega, hm⟩, Option.bind_some, readField_eq_some_iff.2 ⟨by omega, hs⟩, Option.bind_some,
      readField_eq_some_iff.2 ⟨by omega, hc⟩, Option.bind_some, readField_eq_some_iff.2 ⟨by omega, hlen⟩, Option.bind_some, htoNat,
      if_neg (Nat.not_lt.2 hwf), hpayload, Option.map_some]

/-- Settles O11: the frame's bits are the bits of its fields. -/
theorem primaryParseOutcome : Obligations.PrimaryParseOutcome := by
  intro ring fill p f consumed
  rw [parseAt_eq_some_iff, streamAt_frameBits, streamAt_payload]
  simp only [streamAt_fieldBits]

/-! ### A field read as a weighted sum (R141) -/

theorem bitsValue_ringBits_eq_sum (ring : List Word) (p n : Nat) :
    bitsValue (ringBits ring p n) = ∑ i ∈ Finset.range n, (ringBit ring (p + i)).toNat * 2 ^ (n - 1 - i) := by
  induction n with
  | zero => rfl
  | succ n ih =>
    have hdouble : ∀ i ∈ Finset.range n,
        (ringBit ring (p + i)).toNat * 2 ^ (n + 1 - 1 - i) = 2 * ((ringBit ring (p + i)).toNat * 2 ^ (n - 1 - i)) := by
      intro i hi
      have hi := Finset.mem_range.1 hi
      rw [show n + 1 - 1 - i = n - 1 - i + 1 by omega, Nat.pow_succ]
      ring
    rw [ringBits_succ, bitsValue_append, ih, Finset.sum_range_succ, Finset.sum_congr rfl hdouble, Finset.mul_sum]
    simp

/-- Settles O10: the sum is the value the read takes its field from. -/
theorem fieldReadChecksBoundThenParity : Obligations.FieldReadChecksBoundThenParity := by
  intro ring fill p n
  rw [← bitsValue_ringBits_eq_sum]
  refine ⟨by simpa only [ringBits_length] using bitsValue_lt (ringBits ring p n), ?_⟩
  have hvalid : fieldValid ring p n = true ↔ (ringBit ring (p + n)).toNat = popcount (BitVec.ofNat n (bitsValue (ringBits ring p n))) % 2 :=
    fieldValid_iff
  simp only [readField, wordBits, gt_iff_lt, hvalid]
  rfl

/-! ### The operations on the command port (R144, R145, R148) -/

theorem parseAt_of_short {ring : List Word} {fill p : Nat} (h : fill * 32 < p + 40) : parseAt ring fill p = none := by
  refine Option.eq_none_iff_forall_ne_some.2 fun ⟨f, n⟩ hp => ?_
  obtain ⟨-, hn, hend⟩ := parseAt_bounds hp
  omega

theorem decodeAt_of_parse {ring : List Word} {fill p : Nat} {r : AvcFrame × Nat} (h : parseAt ring fill p = some r) :
    decodeAt ring fill p = some r := by
  rw [decodeAt, h]

/-- The rescue parse (R145). -/
theorem decodeAt_of_none {ring : List Word} {fill p : Nat} (h : parseAt ring fill p = none) :
    decodeAt ring fill p = (parseAt ring fill (p + 1)).map fun r => (r.1, r.2 + 1) := by
  rw [decodeAt, h]

/-- What a parse answers on the command port (R144, R145). -/
def parseReply : Option (AvcFrame × Nat) → Reply
  | some (f, n) => { status := .ok, value := .frame f n }
  | none => { status := .noFrame, value := .nothing }

theorem replyFrame_eq (r : Option (AvcFrame × Nat)) (s : State) : replyFrame r s = { s with replies := s.replies ++ [parseReply r] } := by
  cases r <;> rfl

theorem exec_parseAt (p : BitVec 32) (s : State) :
    exec (.parseAt p) s = .next { s with replies := s.replies ++ [parseReply (parseAt s.ring s.ringFill p.toNat)] } :=
  congrArg Host.Outcome.next (replyFrame_eq _ s)

theorem exec_decodeAt (p : BitVec 32) (s : State) :
    exec (.decodeAt p) s = .next { s with replies := s.replies ++ [parseReply (decodeAt s.ring s.ringFill p.toNat)] } :=
  congrArg Host.Outcome.next (replyFrame_eq _ s)

/-- Settles O12: a parse inside fewer than 40 positions fails by its bounds. -/
theorem parseAtReportsThePrimaryParse : Obligations.ParseAtReportsThePrimaryParse := by
  intro s p
  refine ⟨_, exec_parseAt p s, fun f n h => ?frame, fun h => ?noFrame, fun h => ?short⟩
  case frame => rw [h, parseReply]
  case noFrame => rw [h, parseReply]
  case short => rw [parseAt_of_short h, parseReply]

/-- Settles O13, by the two equations of `decodeAt`. -/
theorem decodeAtTriesTheRescueParse : Obligations.DecodeAtTriesTheRescueParse := by
  intro s p
  refine ⟨_, exec_decodeAt p s, fun f n h => ?primary, fun h => ⟨fun f n h' => ?rescue, fun h' => ?neither⟩, fun h => ?short⟩
  case primary => rw [decodeAt_of_parse h, parseReply]
  case rescue => rw [decodeAt_of_none h, h', Option.map_some, parseReply]
  case neither => rw [decodeAt_of_none h, h', Option.map_none, parseReply]
  case short => exact parseAt_of_short (by omega)

theorem flush_of_none {s : State} (h : s.pending = none) : flush s = s := by
  rw [flush, h]

theorem flush_of_some {s : State} {p : Pending} (h : s.pending = some p) :
    flush s = { s.emit (.avc p.frame p.count) with pending := none } := by
  rw [flush, h]

/-- Settles O17, by the two equations of `flush`. -/
theorem flushEmitsThePendingFrame : Obligations.FlushEmitsThePendingFrame := by
  intro s
  refine ⟨(flush s).reply .ok .nothing, rfl, fun h => ?_, fun g k h => ?_⟩
  · rw [flush_of_none h]; rfl
  · rw [flush_of_some h]; rfl

/-! ### One inverted bit (R151) -/

/-- Every position of a valid frame lies in one of its fields, and inverting it spoils that field; where it lies in the payload, the length field that says how
far the payload goes is read as before. -/
theorem parseAt_of_inverted {ring ring' : List Word} {fill p q n : Nat} {f : AvcFrame} (hparse : parseAt ring fill p = some (f, n))
    (hp : p ≤ q) (hq : q < p + n) (hsame : ∀ b, b ≠ q → ringBit ring' b = ringBit ring b) (hinv : ringBit ring' q = !ringBit ring q) :
    parseAt ring' fill p = none := by
  refine Option.eq_none_iff_forall_ne_some.2 fun ⟨f', n'⟩ hparse' => ?_
  obtain ⟨hn, hL, -, ⟨-, hm⟩, ⟨-, hs⟩, ⟨-, hc⟩, ⟨hlen, hl⟩, hd⟩ := (primaryParseOutcome ring fill p f n).1 hparse
  obtain ⟨-, hL', -, ⟨-, hm'⟩, ⟨-, hs'⟩, ⟨-, hc'⟩, ⟨hlen', hl'⟩, hd'⟩ := (primaryParseOutcome ring' fill p f' n').1 hparse'
  have spoiled {o w : Nat} (ho : o ≤ q) (hw : q ≤ o + w) (h : fieldValid ring o w = true) (h' : fieldValid ring' o w = true) : False :=
    not_fieldValid_of_inverted hsame hinv ho hw h h'
  by_cases h13 : q < p + 13
  · exact spoiled hp (by omega) hm hm'
  by_cases h26 : q < p + 26
  · exact spoiled (by omega) (by omega) hs hs'
  by_cases h31 : q < p + 31
  · exact spoiled (by omega) (by omega) hc hc'
  by_cases h40 : q < p + 40
  · exact spoiled (by omega) (by omega) hl hl'
  have hlength : f'.payload.length = f.payload.length := by
    have hsameLen := (field_congr (ring := ring') (ring' := ring) (p := p + 31) (n := 8) fun b _ _ => hsame b (by omega)).1
    rw [hlen, hlen'] at hsameLen
    have := congrArg BitVec.toNat hsameLen
    simp only [BitVec.toNat_ofNat] at this
    omega
  exact spoiled (by omega) (by omega) (hd ((q - p - 40) / 9) (by omega)).2 (hd' ((q - p - 40) / 9) (by omega)).2

/-- Settles O20: the inverted position spoils its field; the ring of V-D7's kind whose rescue parse reads another frame; the rescue parse counts the position it
skips. -/
theorem singleInvertedBitIsDetected : Obligations.SingleInvertedBitIsDetected := by
  refine ⟨fun _ _ _ _ _ _ _ => parseAt_of_inverted, ?_, fun ring fill p f n h hnone => ?_⟩
  · refine ⟨[0x00180000#32, 0#32], [0x80180000#32, 0#32], 0, { master := 1#12, slave := 0#12, control := 0#4, payload := [] },
      { master := 3#12, slave := 0#12, control := 0#4, payload := [] }, 40, 41, by decide +kernel, by decide, fun b hb => ?_, by decide,
      by decide +kernel, by decide⟩
    by_cases hword : b < 32
    · have hfirst : ∀ b < 32, b ≠ 0 → ringBit [0x80180000#32, 0#32] b = ringBit [0x00180000#32, 0#32] b := by decide
      exact hfirst b hword hb
    · refine ringBit_congr ?_
      obtain ⟨k, hk⟩ : ∃ k, b / 32 = k + 1 := ⟨b / 32 - 1, by omega⟩
      simp [hk]
  · rw [decodeAt_of_none hnone, h, Option.map_some]

/-! ### The scan (R146, R147) -/

/-- Coalescing does not look at the cursor, and leaves it alone (R147). -/
theorem coalesce_withCursor (f : AvcFrame) (s : State) (c : Nat) :
    coalesce f { s with cursor := c } = { coalesce f s with cursor := c } := by
  cases hp : s.pending with
  | none => simp [coalesce, hp]
  | some p => by_cases hf : p.frame = f <;> simp [coalesce, hp, hf, State.emit]

/-- Coalescing leaves the filled length alone, so it does not change how far a scan goes. -/
@[simp] theorem coalesce_filledBits (f : AvcFrame) (s : State) : (coalesce f s).filledBits = s.filledBits :=
  congrArg (· * wordBits) (coalesce_frame f s).2.2

theorem State.filledBits_withCursor (s : State) (c : Nat) : ({ s with cursor := c } : State).filledBits = s.filledBits := rfl

/-- Where fewer than 40 positions remain the scan loop ends, with fuel or without (R146, D6). -/
theorem scanLoop_of_ended {dec : List Word → Nat → Nat → Option (AvcFrame × Nat)} {s : State} (fuel : Nat)
    (h : ¬ s.cursor + minFrameBits ≤ s.filledBits) : scanLoop dec fuel s = s := by
  cases fuel with
  | zero => rfl
  | succ fuel => exact scanLoop_of_short fuel h

theorem scanSteps_scanLoop (fuel : Nat) (s : State) : ScanSteps s (scanLoop decodeAt fuel s) := by
  induction fuel generalizing s with
  | zero => exact .refl
  | succ fuel ih =>
    by_cases hroom : s.cursor + minFrameBits ≤ s.filledBits
    · cases hd : decodeAt s.ring s.ringFill s.cursor with
      | none =>
        rw [scanLoop_of_none fuel hroom hd]
        exact .head ⟨hroom, .inr ⟨hd, rfl⟩⟩ (ih _)
      | some r =>
        rw [scanLoop_of_some fuel hroom hd]
        exact .head ⟨hroom, .inl ⟨r.1, r.2, hd, rfl⟩⟩ (ih _)
    · rw [scanLoop_of_ended _ hroom]

/-- Every iteration moves the cursor, so fuel for the positions that remain is enough (R146). -/
theorem scanLoop_ends {fuel : Nat} {s : State} (hfuel : s.filledBits ≤ s.cursor + fuel) :
    ¬ (scanLoop decodeAt fuel s).cursor + minFrameBits ≤ (scanLoop decodeAt fuel s).filledBits := by
  induction fuel generalizing s with
  | zero => simp only [scanLoop, minFrameBits]; omega
  | succ fuel ih =>
    by_cases hroom : s.cursor + minFrameBits ≤ s.filledBits
    · cases hd : decodeAt s.ring s.ringFill s.cursor with
      | none =>
        rw [scanLoop_of_none fuel hroom hd]
        exact ih (s := { s with cursor := s.cursor + 1 }) (by simp only [State.filledBits_withCursor]; omega)
      | some r =>
        obtain ⟨-, hlong, -⟩ := decodeAt_bounds hd
        rw [scanLoop_of_some fuel hroom hd]
        exact ih (s := { coalesce r.1 s with cursor := s.cursor + r.2 }) (by simp only [State.filledBits_withCursor, coalesce_filledBits]; omega)
    · rwa [scanLoop_of_ended _ hroom]

/-- Settles O15: the fuel suffices, and a scan is decoding alone. -/
theorem scanRunsItsLoopToTheEnd : Obligations.ScanRunsItsLoopToTheEnd := by
  intro s
  refine ⟨scan s, scanSteps_scanLoop _ _, ?_, rfl, ?_⟩
  · exact Nat.lt_of_not_le (scanLoop_ends (s := { s with cursor := 0 }) (Nat.le_add_left _ _))
  · obtain ⟨_, _, _, h, -⟩ := avcRun_scan s
    rw [h]

/-! ### A scan without the rescue parse (R149) -/

/-- Where the primary parse fails at the cursor and succeeds one position later, the scan without the rescue parse takes one more iteration to the same state. -/
theorem scanLoop_decodeAt_eq_parseAt {fuel fuel' : Nat} {s : State} (hfuel : s.filledBits ≤ s.cursor + fuel)
    (hfuel' : s.filledBits ≤ s.cursor + fuel') : scanLoop decodeAt fuel s = scanLoop parseAt fuel' s := by
  induction fuel generalizing fuel' s with
  | zero =>
    rw [scanLoop_of_ended 0, scanLoop_of_ended fuel'] <;> simp only [minFrameBits] <;> omega
  | succ fuel ih =>
    by_cases hroom : s.cursor + minFrameBits ≤ s.filledBits
    · have hroom' : s.cursor + 40 ≤ s.filledBits := hroom
      obtain ⟨fuel', rfl⟩ : ∃ k, fuel' = k + 2 := ⟨fuel' - 2, by omega⟩
      have consume (f : AvcFrame) {c k : Nat} (hc : s.cursor < c) (hk : s.filledBits ≤ c + k) :
          scanLoop decodeAt fuel { coalesce f s with cursor := c } = scanLoop parseAt k { coalesce f s with cursor := c } := by
        refine ih (s := { coalesce f s with cursor := c }) ?_ ?_ <;> simp only [State.filledBits_withCursor, coalesce_filledBits] <;> omega
      cases hp : parseAt s.ring s.ringFill s.cursor with
      | some r =>
        obtain ⟨-, hn, -⟩ := parseAt_bounds hp
        rw [scanLoop_of_some fuel hroom (decodeAt_of_parse hp), scanLoop_of_some _ hroom hp]
        exact consume r.1 (by omega) (by omega)
      | none =>
        rw [scanLoop_of_none (dec := parseAt) _ hroom hp]
        cases hr : parseAt s.ring s.ringFill (s.cursor + 1) with
        | none =>
          rw [scanLoop_of_none fuel hroom (by rw [decodeAt_of_none hp, hr, Option.map_none])]
          refine ih (s := { s with cursor := s.cursor + 1 }) ?_ ?_ <;> simp only [State.filledBits_withCursor] <;> omega
        | some r =>
          obtain ⟨-, hn, hend⟩ := parseAt_bounds hr
          have hroomNext : s.cursor + 1 + minFrameBits ≤ s.filledBits := by simp only [State.filledBits, wordBits, minFrameBits]; omega
          rw [scanLoop_of_some fuel hroom (by rw [decodeAt_of_none hp, hr, Option.map_some]),
            scanLoop_of_some fuel' (s := { s with cursor := s.cursor + 1 }) hroomNext hr,
            coalesce_withCursor r.1 s (s.cursor + 1)]
          have hcursor : s.cursor + (r.2 + 1) = s.cursor + 1 + r.2 := by omega
          simp only [hcursor]
          exact consume r.1 (by omega) (by omega)
    · rw [scanLoop_of_ended _ hroom, scanLoop_of_ended _ hroom]

/-- Settles O18: fuel for the whole filled region is enough for both scans. -/
theorem rescueParseNeverChangesAScan : Obligations.RescueParseNeverChangesAScan := fun s =>
  scanLoop_decodeAt_eq_parseAt (s := { s with cursor := 0 }) (Nat.le_add_left _ _) (Nat.le_add_left _ _)

/-! ### Zero words (R152) -/

/-- The zero frame `Z`: what 40 zero positions spell. -/
def zeroFrame : AvcFrame := { master := 0#12, slave := 0#12, control := 0#4, payload := [] }

theorem ringBit_of_zeros {ring : List Word} {fill b : Nat} (h : ∀ i, i < fill → ring.getD i 0#32 = 0#32) (hb : b < fill * 32) :
    ringBit ring b = false := by
  rw [ringBit, h _ (by omega), BitVec.getLsbD_zero]

theorem parseAt_zeros {ring : List Word} {fill p : Nat} (h : ∀ i, i < fill → ring.getD i 0#32 = 0#32) (hp : p + 40 ≤ fill * 32) :
    parseAt ring fill p = some (zeroFrame, 40) := by
  refine parseAt_eq_some_iff.2 ⟨rfl, by decide, hp, ?_⟩
  have hbits : ringBits ring p 40 = List.replicate 40 false :=
    List.eq_replicate_iff.2 ⟨ringBits_length _ _ _, by
      simp only [ringBits, List.mem_map, List.mem_range]
      rintro _ ⟨i, hi, rfl⟩
      exact ringBit_of_zeros h (by omega)⟩
  exact hbits.trans (by decide)

/-- `s` after `j` zero frames have been scanned from position 0 with nothing pending before. -/
def State.zerosScanned (s : State) (j : Nat) : State :=
  { s with cursor := 40 * j, pending := if j = 0 then none else some { frame := zeroFrame, count := j } }

theorem coalesce_zerosScanned (s : State) (j : Nat) :
    { coalesce zeroFrame (s.zerosScanned j) with cursor := 40 * j + 40 } = s.zerosScanned (j + 1) := by
  cases j <;> simp [State.zerosScanned, coalesce, Nat.mul_add]

theorem scanLoop_zeros {s : State} (h : ∀ i, i < s.ringFill → s.ring.getD i 0#32 = 0#32) {fuel j : Nat}
    (hj : 40 * j ≤ s.filledBits) (hfuel : s.filledBits ≤ 40 * j + fuel) :
    scanLoop decodeAt fuel (s.zerosScanned j) = s.zerosScanned (s.filledBits / 40) := by
  induction fuel generalizing j with
  | zero => rw [scanLoop, show s.filledBits / 40 = j by omega]
  | succ fuel ih =>
    by_cases hroom : 40 * j + 40 ≤ s.filledBits
    · rw [scanLoop_of_some fuel (s := s.zerosScanned j) hroom (decodeAt_of_parse (parseAt_zeros h hroom))]
      refine (congrArg (scanLoop decodeAt fuel) (coalesce_zerosScanned s j)).trans (ih (by omega) (by omega))
    · rw [scanLoop_of_ended _ (s := s.zerosScanned j) hroom, show s.filledBits / 40 = j by omega]

/-- Settles O21: the scan steps from zero frame to zero frame. -/
theorem zeroWordsScanAsZeroFrames : Obligations.ZeroWordsScanAsZeroFrames := by
  intro s h
  refine ⟨fun p hp => parseAt_zeros h hp, fun hnone => ?_⟩
  have hstart : { s with cursor := 0 } = s.zerosScanned 0 := by simp [State.zerosScanned, hnone]
  have hscan : scan s = s.zerosScanned (s.filledBits / 40) := by
    rw [scan, scanWith, hstart]
    exact scanLoop_zeros h (Nat.zero_le _) (Nat.le_add_left _ _)
  exact congrArg (fun t : State => Host.Outcome.next (t.reply .ok (.cursor t.cursor))) hscan

/-! ### Runs of identical frames (R154) -/

/-- The event of a pending frame. -/
def pendingEvents : Option Pending → List Event
  | some p => [.avc p.frame p.count]
  | none => []

theorem flush_events (s : State) : (flush s).events = s.events ++ pendingEvents s.pending := by
  cases h : s.pending with
  | none => rw [flush_of_none h, pendingEvents, List.append_nil]
  | some p => rw [flush_of_some h, pendingEvents, State.emit_events]

theorem flush_pending (s : State) : (flush s).pending = none := by
  cases h : s.pending with
  | none => rw [flush_of_none h, h]
  | some p => rw [flush_of_some h]

/-- Coalesce says of a frame that is pending: it counts one more (R147). -/
theorem coalesce_of_same {f : AvcFrame} {k : Nat} {s : State} (h : s.pending = some { frame := f, count := k }) :
    coalesce f s = { s with pending := some { frame := f, count := k + 1 } } := by
  simp [coalesce, h]

/-- Coalesce says of a frame that is not pending: what was pending is emitted, and the frame is pending once (R147). -/
theorem coalesce_of_different {f : AvcFrame} {s : State} (h : ∀ p, s.pending = some p → p.frame ≠ f) :
    (coalesce f s).events = s.events ++ pendingEvents s.pending ∧ (coalesce f s).pending = some { frame := f, count := 1 } := by
  cases hp : s.pending with
  | none => simp [coalesce, hp, pendingEvents]
  | some p => simp [coalesce, hp, h p hp, pendingEvents]

/-- `t` comes from `s` by `n` decodes of `f`, as far as events and pending frame tell. -/
def DecodedRun (f : AvcFrame) (s : State) : Nat → State → Prop
  | 0, t => t.events = s.events ∧ t.pending = s.pending
  | n + 1, t => t.events = s.events ++ pendingEvents s.pending ∧ t.pending = some { frame := f, count := n + 1 }

namespace DecodedRun

variable {f : AvcFrame} {s t : State} {n : Nat}

theorem coalesce (hs : ∀ p, s.pending = some p → p.frame ≠ f) (h : DecodedRun f s n t) : DecodedRun f s (n + 1) (coalesce f t) := by
  cases n with
  | zero =>
    obtain ⟨he, hp⟩ := h
    obtain ⟨he', hp'⟩ := coalesce_of_different (s := t) (hp ▸ hs)
    exact ⟨by rw [he', he, hp], hp'⟩
  | succ n =>
    obtain ⟨he, hp⟩ := h
    rw [coalesce_of_same hp]
    exact ⟨he, rfl⟩

theorem ringClear (h : DecodedRun f s n t) : DecodedRun f s n (ringClear t) := by
  cases n <;> exact h

theorem iterate (hs : ∀ p, s.pending = some p → p.frame ≠ f) (h : DecodedRun f s n t) (k : Nat) :
    DecodedRun f s (n + k) ((Machine.coalesce f)^[k] t) := by
  induction k with
  | zero => exact h
  | succ k ih =>
    rw [Function.iterate_succ_apply']
    exact ih.coalesce hs

theorem passes (hs : ∀ p, s.pending = some p → p.frame ≠ f) (h : DecodedRun f s n t) (ks : List Nat) :
    DecodedRun f s (n + ks.sum) (ks.foldl (fun u k => Machine.ringClear ((Machine.coalesce f)^[k] u)) t) := by
  induction ks generalizing n t with
  | nil => exact h
  | cons k ks ih =>
    rw [List.sum_cons, ← Nat.add_assoc]
    exact ih (h.iterate hs k).ringClear

end DecodedRun

/-- Settles O22: after the passes the frame is pending with the run's count, and a flush or a different frame emits that. -/
theorem identicalRunEmitsOneEventWithItsCount : Obligations.IdenticalRunEmitsOneEventWithItsCount := by
  intro s f g passes hpos hne hs before t
  have hbefore : before = pendingEvents s.pending := by
    cases h : s.pending <;> simp only [before, h, pendingEvents]
  have hrun : DecodedRun f s passes.sum t := by
    simpa using DecodedRun.passes (n := 0) hs ⟨rfl, rfl⟩ passes
  obtain ⟨n, hn⟩ : ∃ n, passes.sum = n + 1 := ⟨passes.sum - 1, by omega⟩
  rw [hn] at hrun ⊢
  obtain ⟨hevents, hpending⟩ := hrun
  obtain ⟨hevents', hpending'⟩ := coalesce_of_different (f := g) (s := t) (by
    rintro p hp rfl
    rw [hpending] at hp
    exact hne (Option.some.inj hp ▸ rfl))
  refine ⟨?_, flush_pending t, ?_, hpending'⟩
  · rw [flush_events, hevents, hpending, hbefore, pendingEvents]
  · rw [hevents', hevents, hpending, hbefore, pendingEvents]

/-! ### The words of a stream (R62, R182) -/

theorem streamWords_length (bits : List Bool) : (streamWords bits).length = (bits.length + 31) / 32 := by simp [streamWords]

/-- A packed stream carries its bits, and zeros after them (R62). -/
theorem ringBit_streamWords (bits : List Bool) (b : Nat) : ringBit (streamWords bits) b = bits.getD b false := by
  unfold ringBit
  by_cases hb : b / 32 < (bits.length + 31) / 32
  · rw [List.getD_eq_getElem _ _ (by rwa [streamWords_length])]
    simp only [streamWords, List.getElem_map, List.getElem_range, BitVec.getLsbD_ofFnLE, show 31 - b % 32 < 32 by omega, dif_pos]
    congr 1
    omega
  · rw [List.getD_eq_default _ _ (by rw [streamWords_length]; omega), List.getD_eq_default _ _ (by omega), BitVec.getLsbD_zero]

theorem streamAt_streamWords (bits : List Bool) : StreamAt (streamWords bits) 0 bits := by
  refine List.ext_getElem (ringBits_length _ _ _) fun i hi hi' => ?_
  simp only [ringBits, List.getElem_map, List.getElem_range, Nat.zero_add, ringBit_streamWords]
  exact List.getD_eq_getElem _ _ hi'

/-- Two rings that agree on the filled words carry the same bits in the filled region (R21). -/
theorem StreamAt.of_take {ring ring' : List Word} {fill p : Nat} {bits : List Bool} (h : StreamAt ring p bits)
    (htake : ring'.take fill = ring.take fill) (hend : p + bits.length ≤ fill * 32) : StreamAt ring' p bits :=
  (List.map_congr_left fun i hi => ringBit_of_take htake (by have := List.mem_range.1 hi; omega)).trans h

/-- A word packed from the accumulator's bits is the stream's word they come from. -/
theorem pack_eq_streamWord {bits l : List Bool} {k : Nat} (h : ∀ j < 32, l.getD j false = bits.getD (32 * k + j) false) :
    pack l = BitVec.ofFnLE fun i : Fin 32 => bits.getD (32 * k + (31 - i.val)) false := by
  refine BitVec.eq_of_getLsbD_eq fun i hi => ?_
  have hbit := pack_getLsbD l (j := 31 - i) (by omega)
  rw [show 31 - (31 - i) = i by omega, h _ (by omega)] at hbit
  rw [hbit, BitVec.getLsbD_ofFnLE, dif_pos hi]

theorem pack_chunk {bits : List Bool} {k : Nat} :
    pack (chunk bits k) = BitVec.ofFnLE fun i : Fin 32 => bits.getD (32 * k + (31 - i.val)) false :=
  pack_eq_streamWord fun j hj => by simp [chunk, List.getD_eq_getElem?_getD, List.getElem?_take_of_lt hj]

/-- The partial word is padded with zero bits (R182). -/
theorem pack_padded {bits : List Bool} {k : Nat} :
    pack (bits.drop (32 * k) ++ List.replicate (32 - (bits.drop (32 * k)).length) false) =
      BitVec.ofFnLE fun i : Fin 32 => bits.getD (32 * k + (31 - i.val)) false := by
  refine pack_eq_streamWord fun j hj => ?_
  by_cases hin : j < (bits.drop (32 * k)).length
  · rw [List.getD_append _ _ _ _ hin]
    simp [List.getD_eq_getElem?_getD]
  · rw [List.getD_append_right _ _ _ _ (Nat.not_lt.1 hin), List.getD_replicate _ (by omega), List.getD_eq_default]
    rw [List.length_drop] at hin
    omega

/-- Appending a bit list and then the partial word pushes exactly the stream's words (R181, R182). -/
theorem pushPartial_foldl_appendBit {s : State} (hacc : s.acc = []) (bits : List Bool) :
    pushPartial (bits.foldl appendBit s) = { s with
      sink := s.sink ++ streamWords bits
      acc := []
      ext := { s.ext with sinkHeld := s.ext.sinkHeld + (bits.length + 31) / 32 } } := by
  have hwords : streamWords bits = (List.range ((bits.length + 31) / 32)).map fun k =>
      BitVec.ofFnLE fun i : Fin 32 => bits.getD (32 * k + (31 - i.val)) false := rfl
  have hrest : (bits.drop (32 * (bits.length / 32))).length = bits.length % 32 := by rw [List.length_drop]; omega
  rw [foldl_appendBit hacc, hwords]
  simp only [pack_chunk, pushPartial, hrest]
  by_cases hpart : 0 < bits.length % 32
  · rw [if_pos hpart, show (bits.length + 31) / 32 = bits.length / 32 + 1 by omega, ← hrest, pack_padded]
    simp [State.sinkPush, List.range_succ, Nat.add_assoc]
  · rw [if_neg hpart, show (bits.length + 31) / 32 = bits.length / 32 by omega, List.eq_nil_of_length_eq_zero (hrest.trans (by omega))]

/-- Serializing a frame pushes exactly the words of its bits (R182). -/
theorem serialize_eq_streamWords (f : AvcFrame) (s : State) :
    serialize f s = { s with
      sink := s.sink ++ streamWords (frameBits f)
      acc := []
      ext := { s.ext with sinkHeld := s.ext.sinkHeld + (40 + 9 * f.payload.length + 31) / 32 } } := by
  rw [serialize_eq, pushPartial_foldl_appendBit rfl, frameBits_length]

/-- The operands a well-formed frame is sent with are legal, and spell the frame (R92). -/
theorem avcOperands_of_frame {f : AvcFrame} (hf : f.wf) :
    avcOperandsOk (f.master.setWidth 16) (f.slave.setWidth 16) (f.control.setWidth 8) f.payload = true ∧
      avcFrameOf (f.master.setWidth 16) (f.slave.setWidth 16) (f.control.setWidth 8) f.payload = f := by
  have := f.master.isLt
  have := f.slave.isLt
  have := f.control.isLt
  refine ⟨?_, ?_⟩
  · simp only [avcOperandsOk, BitVec.toNat_setWidth, Bool.and_eq_true, decide_eq_true_eq]
    exact ⟨⟨⟨by omega, by omega⟩, by omega⟩, hf⟩
  · simp [avcFrameOf]

/-- ENCODE_TX of a frame with room in the sink serializes it after the agents' moves (R182). -/
theorem encodeTx_of_room {f : AvcFrame} {s : State} (hf : f.wf) (hroom : s.yield.sinkHasRoom (frameWordCount f.payload.length) = true) :
    encodeTx (f.master.setWidth 16) (f.slave.setWidth 16) (f.control.setWidth 8) f.payload s = (serialize f s.yield, .ok) := by
  obtain ⟨hok, hframe⟩ := avcOperands_of_frame hf
  rw [encodeTx, if_pos hok, hframe]
  exact if_pos hroom

/-! ### The round trip (R150) -/

/-- A ring that holds exactly the words of a frame's bits. -/
structure State.HoldsFrame (s : State) (f : AvcFrame) : Prop where
  fill : s.ringFill = (40 + 9 * f.payload.length + 31) / 32
  words : s.ring.take s.ringFill = streamWords (frameBits f)

theorem State.HoldsFrame.parseAt_zero {s : State} {f : AvcFrame} (h : s.HoldsFrame f) (hf : f.wf) :
    parseAt s.ring s.ringFill 0 = some (f, 40 + 9 * f.payload.length) := by
  obtain ⟨hfill, hwords⟩ := h
  have hlen := frameBits_length f
  have hstream : StreamAt s.ring 0 (frameBits f) :=
    (streamAt_streamWords (frameBits f)).of_take (fill := s.ringFill)
      (by rw [hwords, List.take_of_length_le (by rw [streamWords_length]; omega)]) (by omega)
  exact parseAt_eq_some_iff.2 ⟨rfl, hf, by omega, hstream⟩

/-- A scan decodes the frame at 0; fewer than 32 positions remain behind it. -/
theorem State.HoldsFrame.scan_eq {s : State} {f : AvcFrame} (h : s.HoldsFrame f) (hf : f.wf) :
    scan s = { coalesce f s with cursor := 40 + 9 * f.payload.length } := by
  have hL : s.filledBits = (40 + 9 * f.payload.length + 31) / 32 * 32 := congrArg (· * 32) h.fill
  have hL' : (coalesce f s).filledBits = s.filledBits := coalesce_filledBits f s
  obtain ⟨fuel, hfuel⟩ : ∃ fuel, s.filledBits = fuel + 1 := ⟨s.filledBits - 1, by omega⟩
  have hroom : 0 + 40 ≤ s.filledBits := by omega
  have hend : ¬ 0 + (40 + 9 * f.payload.length) + 40 ≤ (coalesce f s).filledBits := by omega
  rw [scan, scanWith, hfuel, scanLoop_of_some fuel (s := { s with cursor := 0 }) hroom (decodeAt_of_parse (h.parseAt_zero hf)),
    coalesce_withCursor f s 0, scanLoop_of_ended fuel (s := { coalesce f s with cursor := 0 + (40 + 9 * f.payload.length) }) hend, Nat.zero_add]

/-- Settles O19: the pushed words are the frame's stream, which parses at 0 as the frame. -/
theorem encodedFrameDecodesToItself : Obligations.EncodedFrameDecodesToItself := by
  intro f s hf hroom
  have henc := encodeTx_of_room hf hroom
  refine ⟨(serialize f s.yield).reply .ok .nothing, by simp only [exec, execEncodeTx, henc], fun u hfill hring => ?_⟩
  have hpushed : ((serialize f s.yield).reply .ok .nothing).sink.drop s.sink.length = streamWords (frameBits f) := by
    rw [State.reply_sink, serialize_eq_streamWords]
    exact List.drop_left
  rw [hpushed] at hfill hring
  have hu : u.HoldsFrame f := ⟨by rw [hfill, streamWords_length, frameBits_length], hring⟩
  have hparse := hu.parseAt_zero hf
  refine ⟨?_, ?_, fun hnone => ⟨_, rfl, ?_⟩⟩
  · rw [exec_parseAt, BitVec.toNat_ofNat, Nat.zero_mod, hparse, parseReply]
  · rw [exec_decodeAt, BitVec.toNat_ofNat, Nat.zero_mod, decodeAt_of_parse hparse, parseReply]
  · rw [State.reply_pending, hu.scan_eq hf]
    exact (coalesce_of_different (by simp [hnone])).2

end Sys2Proof.Machine
end

section
/-! PROOFS. The statements on the encoder (spec/42_avc_encoder.md): what ENCODE_TX pushes and when it fails (R182), and a frame's bits, words and
padding (R183). -/

namespace Sys2Proof.Machine

/-! ### The checks of ENCODE_TX (R182) -/

theorem avcOperandsOk_iff {m sl : BitVec 16} {c : Byte} {d : List Byte} :
    avcOperandsOk m sl c d = true ↔ m.toNat < 2 ^ 12 ∧ sl.toNat < 2 ^ 12 ∧ c.toNat < 2 ^ 4 ∧ d.length ≤ 32 := by
  simp only [avcOperandsOk, maxPayload, Bool.and_eq_true, decide_eq_true_eq, and_assoc]

theorem State.sinkHasRoom_eq_false_iff {n : Nat} {s : State} :
    s.sinkHasRoom n = false ↔ ∃ depth, s.cfg.sinkDepth = some depth ∧ depth - s.ext.sinkHeld < n := by
  unfold State.sinkHasRoom
  cases s.cfg.sinkDepth with
  | none => simp
  | some depth => simp

theorem encodeTx_of_badOperand {m sl : BitVec 16} {c : Byte} {d : List Byte} (h : avcOperandsOk m sl c d = false) (s : State) :
    encodeTx m sl c d s = (s, .badOperand) := by
  rw [encodeTx, h]
  rfl

/-- ENCODE_TX of legal operands without room in the sink says: the agents move, and that is all (R182). -/
theorem encodeTx_of_noRoom {m sl : BitVec 16} {c : Byte} {d : List Byte} {s : State} (hok : avcOperandsOk m sl c d = true)
    (hroom : s.yield.sinkHasRoom (frameWordCount d.length) = false) : encodeTx m sl c d s = (s.yield, .sinkFull) := by
  rw [encodeTx, if_pos hok]
  exact if_neg (Bool.eq_false_iff.1 hroom)

/-! ### ENCODE_TX on the command port (R182) -/

theorem exec_encodeTx {m sl : BitVec 16} {c : Byte} {d : List Byte} {s t : State} {st : Status} (h : encodeTx m sl c d s = (t, st)) :
    exec (.encodeTx m sl c d) s = .next (t.reply st .nothing) := by
  rw [exec, execEncodeTx, h]

/-- Settles O23: ENCODE_TX serializes the frame, and serializing pushes the words of its bits. -/
theorem encodeTxPushesTheFramesBits : Obligations.EncodeTxPushesTheFramesBits := by
  intro f s hf hroom
  rw [exec_encodeTx (encodeTx_of_room hf hroom), serialize_eq_streamWords]
  rfl

/-- Settles O24: the operand check and the check for room come before the first push. -/
theorem encodeTxFailsWithoutPushing : Obligations.EncodeTxFailsWithoutPushing := by
  intro m sl c d s
  refine ⟨fun hbad => ?badOperand, fun hm hsl hc hd hfull => ?sinkFull⟩
  case badOperand =>
    have hcheck : avcOperandsOk m sl c d = false := Bool.eq_false_iff.2 fun hok => by
      obtain ⟨hm, hsl, hc, hd⟩ := avcOperandsOk_iff.1 hok
      omega
    exact exec_encodeTx (encodeTx_of_badOperand hcheck s)
  case sinkFull =>
    exact exec_encodeTx (encodeTx_of_noRoom (avcOperandsOk_iff.2 ⟨hm, hsl, hc, hd⟩) (State.sinkHasRoom_eq_false_iff.2 hfull))

/-! ### A frame's bits, words and padding (R183) -/

/-- Settles O25: 24 is the only payload length up to 32 with `9L = 24` modulo 32; a packed stream carries its bits, and zeros after them. -/
theorem frameWordCountAndPadding : Obligations.FrameWordCountAndPadding := by
  intro f hf
  have hlen := frameBits_length f
  have hpayload : f.payload.length ≤ 32 := hf
  refine ⟨hlen, by rw [streamWords_length, hlen], by omega, fun b _ => ringBit_streamWords _ b, fun b hb => ?_⟩
  rw [ringBit_streamWords, List.getD_eq_default _ _ (by rw [hlen]; exact hb)]

end Sys2Proof.Machine
end

section
/-! PROOFS. The statements on the SPI transaction kinds (spec/43_can_spi.md): what each one sends, returns and changes (R201 to R205), where a bare one stops
(log 13), and the bound on the bytes one transaction of the block moves (R206). -/

namespace Sys2Proof.Machine

/-! ### A register after it was written (R203, R204) -/

theorem Memory.read_write_same {m : Memory} (hm : Memory.wf m) (a : Nat) (v : Byte) : Memory.read (Memory.write m a v) a = v := by
  rw [Memory.read_write hm, if_pos rfl]

theorem Memory.read_write_other {m : Memory} {a b : Nat} (hm : Memory.wf m) (v : Byte) (h : b ≠ a) :
    Memory.read (Memory.write m a v) b = Memory.read m b := by
  rw [Memory.read_write hm, if_neg h]

theorem Memory.read_writeBytes_written {m : Memory} {a i : Nat} {d : List Byte} (hm : Memory.wf m) (ha : a + d.length ≤ 256) (hi : i < d.length) :
    Memory.read (Memory.writeBytes m a d) (a + i) = d[i] := by
  rw [Memory.read_writeBytes hm ha, dif_pos ⟨Nat.le_add_right a i, by omega⟩]
  simp only [Nat.add_sub_cancel_left]

theorem Memory.read_writeBytes_outside {m : Memory} {a b : Nat} {d : List Byte} (hm : Memory.wf m) (ha : a + d.length ≤ 256)
    (hb : b < a ∨ a + d.length ≤ b) : Memory.read (Memory.writeBytes m a d) b = Memory.read m b := by
  rw [Memory.read_writeBytes hm ha, dif_neg (by omega)]

/-! ### Bare READ and WRITE, and where they stop (R202, R203) -/

theorem exec_spiRead_of_fits {a : Byte} {k : Nat} (hk : 1 ≤ k) (ha : a.toNat + k ≤ 256) (s : State) :
    exec (.spiRead a k) s = .next (spiRead a k s).1 := by
  rw [exec, execSpiRead, if_neg (by omega), if_neg (by omega)]

theorem exec_spiRead_past_end {a : Byte} {k : Nat} (hk : k ≠ 0) (ha : 256 < a.toNat + k) (s : State) :
    exec (.spiRead a k) s = .fault (.noSuchRegister a.toNat k) := by
  rw [exec, execSpiRead, if_neg hk, if_pos ha]

theorem exec_spiWrite_of_fits {a : Byte} {d : List Byte} (hd : 1 ≤ d.length) (ha : a.toNat + d.length ≤ 256) (s : State) :
    exec (.spiWrite a d) s = .next (spiWrite a d s) := by
  rw [exec, execSpiWrite, if_neg (by omega), if_neg (by omega)]

theorem exec_spiWrite_past_end {a : Byte} {d : List Byte} (hd : d ≠ []) (ha : 256 < a.toNat + d.length) (s : State) :
    exec (.spiWrite a d) s = .fault (.noSuchRegister a.toNat d.length) := by
  rw [exec, execSpiWrite, if_neg (mt List.length_eq_zero_iff.1 hd), if_pos ha]

/-- Settles O31: the empty range is tested before the end of the register space. -/
theorem bareSpiRangeStops : Obligations.BareSpiRangeStops := fun s _ =>
  ⟨rfl, rfl, fun _ ha hk => exec_spiRead_past_end hk ha s, fun _ ha hd => exec_spiWrite_past_end hd ha s⟩

/-! ### SPI_READ, SPI_WRITE and SPI_BITMOD (R202 to R204) -/

/-- Settles O27: both clauses are read off what SPI_READ says. -/
theorem spiReadReturnsTheRegisters : Obligations.SpiReadReturnsTheRegisters := by
  intro s a k hk ha
  obtain ⟨e, miso, hread, hlen, he, hsettled⟩ := spiRead_spec a k s
  rw [exec_spiRead_of_fits hk ha, hread]
  refine ⟨fun h0 => ?_, e, miso, rfl, hlen, by rw [he]⟩
  obtain ⟨rfl, rfl⟩ := hsettled h0
  rfl

/-- Settles O28: the agents' moves keep the memory canonical, so the bytes written read back and the other registers keep theirs. -/
theorem spiWriteWritesConsecutiveRegisters : Obligations.SpiWriteWritesConsecutiveRegisters := by
  intro s a d hd ha hm
  have hm' : Memory.wf (s.ext.yield s.cfg).regs := External.yield_regs_wf s.cfg hm
  exact ⟨_, (exec_spiWrite_of_fits hd ha s).trans (congrArg Host.Outcome.next (spiWrite_eq a d s)),
    fun _ hi => Memory.read_writeBytes_written hm' ha hi, fun _ hb => Memory.read_writeBytes_outside hm' ha hb⟩

/-- Settles O29: one register is written, with a masked write of what it holds after the agents' moves. -/
theorem spiBitmodChangesTheMaskedBits : Obligations.SpiBitmodChangesTheMaskedBits := by
  intro s a m d hm
  have hm' : Memory.wf (s.ext.yield s.cfg).regs := External.yield_regs_wf s.cfg hm
  refine ⟨_, congrArg Host.Outcome.next (spiBitmod_eq a m d s), fun i hi => ?_, fun b hb => Memory.read_write_other hm' _ hb⟩
  rw [Memory.read_write_same hm', maskedWrite_getLsbD _ _ _ hi]

/-! ### SPI_RESET (R201) -/

/-- While the agents keep still, the settle time a reset starts is whole at its end (R320). -/
theorem yield_settle_of_still {s : State} (h : s.still 2) (ms : Nat) :
    ({ s.ext.yield s.cfg with settleLeft := ms } : External).yield s.cfg = { s.ext with env := s.ext.env.drop 2, settleLeft := ms } := by
  obtain ⟨rest, henv, hyield, hrest⟩ := State.still_succ h
  obtain ⟨rest', rfl, -, -⟩ := State.still_succ (s := { s with ext := { s.ext with env := rest } }) hrest
  rw [hyield, External.yield_of_empty s.cfg rfl, henv]
  rfl

/-- Settles O26: CANSTAT takes a masked write of its mode field after the agents' second moves, and no other register is written. -/
theorem spiResetEntersConfigurationMode : Obligations.SpiResetEntersConfigurationMode := by
  intro s hwf hm e a
  obtain ⟨-, -, ⟨-, hopmod, -⟩, -⟩ := hwf
  have hm' : Memory.wf e.regs :=
    External.yield_regs_wf (e := { s.ext.yield s.cfg with settleLeft := s.cfg.settleMs }) s.cfg (External.yield_regs_wf s.cfg hm)
  refine ⟨⟨_, congrArg Host.Outcome.next (spiReset_eq s), ?mode, fun i hi hoff => ?otherBits, fun b hb => Memory.read_write_other hm' _ hb⟩,
    fun h => yield_settle_of_still h _⟩
  case mode => rw [Memory.read_write_same hm', field3_maskedWrite _ _ hopmod]
  case otherBits => rw [Memory.read_write_same hm', maskedWrite_mask3_off _ _ hopmod hi hoff]

/-! ### SPI_READ_STATUS (R205) -/

theorem statusByte_rx1if {c : Config} (h : c.bitStRx1if < 8) (e : External) :
    (statusByte c e).getLsbD c.bitStRx1if = (Memory.read e.regs c.regCanintf.toNat).getLsbD c.bitRx1if := by
  rw [statusByte, withBit_getLsbD _ _ h h, if_pos rfl]

/-- The second flag's bit, put in after the first, leaves the first alone where the two bits differ. -/
theorem statusByte_rx0if {c : Config} (h0 : c.bitStRx0if < 8) (h1 : c.bitStRx1if < 8) (hne : c.bitStRx0if ≠ c.bitStRx1if) (e : External) :
    (statusByte c e).getLsbD c.bitStRx0if = (Memory.read e.regs c.regCanintf.toNat).getLsbD c.bitRx0if := by
  rw [statusByte, withBit_getLsbD _ _ h1 h0, if_neg hne, withBit_getLsbD _ _ h0 h0, if_pos rfl]

/-- Settles O30: once settled the byte is the status byte, whose two receive bits were taken from CANINTF. -/
theorem spiReadStatusShowsTheReceiveFlags : Obligations.SpiReadStatusShowsTheReceiveFlags := by
  intro s hwf hne
  obtain ⟨-, -, ⟨-, -, -, -, hbits⟩, -⟩ := hwf
  have h0 : s.cfg.bitStRx0if < 8 := hbits _ (by simp)
  have h1 : s.cfg.bitStRx1if < 8 := hbits _ (by simp)
  obtain ⟨e, st, hread, he, hsettled⟩ := spiReadStatus_spec s
  refine ⟨e, st, by rw [exec, execSpiReadStatus, hread], by rw [he], fun hs => ?_⟩
  obtain ⟨rfl, rfl⟩ := hsettled hs
  exact ⟨rfl, statusByte_rx0if h0 h1 hne _, statusByte_rx1if h1 _⟩

/-! ### The bytes one transaction moves (R206) -/

/-- From `s` to `t` the link's log grew by transactions of at most 11 bytes each. -/
def SpiBounded (s t : State) : Prop := ∃ new, t.spiLog = s.spiLog ++ new ∧ ∀ x ∈ new, x.byteCount ≤ 11

/-- An answer that is a state was reached by transactions of at most 11 bytes each. -/
def Answer.SpiBounded (s : State) (r : Result) : Prop := ∀ t, r = .next t → Machine.SpiBounded s t

theorem Answer.spiBounded_next {s t : State} (h : Machine.SpiBounded s t) : Answer.SpiBounded s (.next t) := by
  rintro _ ⟨⟩
  exact h

theorem BlockRun.spiBounded {s t : State} (h : BlockRun s t) : SpiBounded s t := h.log

theorem SpiRun.spiBounded {s t : State} (h : SpiRun s t) : SpiBounded s t := h.blockRun.spiBounded

namespace SpiBounded

variable {s t : State}

theorem of_spiLog_eq (h : t.spiLog = s.spiLog) : SpiBounded s t := ⟨[], by simp [h], by simp⟩

theorem reply (h : SpiBounded s t) (st : Status) (v : Value) : SpiBounded s (t.reply st v) := h

theorem withOnline (h : SpiBounded s t) (b : Bool) : SpiBounded s (t.withOnline b) := h

/-- An operation ends with a reply, which performs no transaction. -/
theorem answer (h : SpiBounded s t) (st : Status) (v : Value) : Answer.SpiBounded s (.next (t.reply st v)) :=
  Answer.spiBounded_next (h.reply st v)

end SpiBounded

theorem replyFrame_spiBounded (r : Option (AvcFrame × Nat)) (s : State) : SpiBounded s (replyFrame r s) :=
  .of_spiLog_eq (by rw [replyFrame_eq])

theorem canInit_spiBounded (r : Nat) (s : State) : SpiBounded s (canInit r s).1 := by
  obtain ⟨u, hrun, hinit, -⟩ := canInit_spec r s
  have hu : SpiBounded s u := hrun.spiBounded
  rw [hinit]
  exact hu.withOnline _

theorem execCanTx_spiBounded (f : Byte) (id : BitVec 32) (d : List Byte) (s : State) : Answer.SpiBounded s (execCanTx f id d s) := by
  unfold execCanTx
  split
  · exact (canTx_spec _ _ _ s).1.spiBounded.answer _ _
  · exact (SpiBounded.of_spiLog_eq rfl).answer _ _

/-- Settles O43, by cases over the instruction: each operation is a run of the block, all of whose transactions are short. -/
theorem spiTransactionsAreBounded : Obligations.SpiTransactionsAreBounded := by
  intro i s t hkind
  suffices Answer.SpiBounded s (exec i s) from this t
  cases i with
  | ringPush w => exact (blockRun_ringPush w s).spiBounded.answer _ _
  | ringClear => exact (blockRun_ringClear s).spiBounded.answer _ _
  | parseAt p => exact Answer.spiBounded_next (replyFrame_spiBounded _ s)
  | decodeAt p => exact Answer.spiBounded_next (replyFrame_spiBounded _ s)
  | scan => exact (blockRun_scan s).spiBounded.answer _ _
  | flush => exact (blockRun_flush s).spiBounded.answer _ _
  | encodeTx m sl c d => exact (blockRun_encodeTx m sl c d s).spiBounded.answer _ _
  | canReset => exact ((spiRun_canResetBody s).spiBounded.withOnline false).answer _ _
  | canInit r => exact (canInit_spiBounded r.toNat s).answer _ _
  | canTx f id d => exact execCanTx_spiBounded f id d s
  | canRx => exact (canRx_spec s).1.spiBounded.answer _ _
  | canErrcnt => exact (canErrcnt_spec s).1.spiBounded.answer _ _
  | schedStep => exact (blockRun_iteration s).spiBounded.answer _ _
  | spiReset => exact Answer.spiBounded_next (spiRun_spiReset s).spiBounded
  | spiRead a k => exact hkind.elim
  | spiWrite a d => exact hkind.elim
  | spiBitmod a m d => exact Answer.spiBounded_next (spiRun_spiBitmod a m d s).spiBounded
  | spiReadStatus => exact Answer.spiBounded_next (spiRun_spiReadStatus s).spiBounded

end Sys2Proof.Machine
end

section
/-! PROOFS. The statements on the CAN driver (spec/44_can_driver.md): identifiers in registers (R220, R221), and what CAN_RESET, CAN_INIT, CAN_TX, CAN_RX and
CAN_ERRCNT send, return and leave in the controller's registers (R222 to R229). -/

namespace Sys2Proof.Machine

/-! ### Identifiers in registers (R220, R221) -/

/-- Bits side by side add up as digits do. -/
theorem toNat_append_eq_add {m n : Nat} (x : BitVec m) (y : BitVec n) : (x ++ y).toNat = x.toNat * 2 ^ n + y.toNat := by
  rw [BitVec.toNat_append, ← Nat.shiftLeft_add_eq_or_of_lt y.isLt, Nat.shiftLeft_eq]

theorem toNat_extractLsb'_eq {n : Nat} (x : BitVec n) (lo len : Nat) : (x.extractLsb' lo len).toNat = x.toNat / 2 ^ lo % 2 ^ len := by
  rw [BitVec.extractLsb'_toNat, Nat.shiftRight_eq_div_pow]

/-- PackId of a standard identifier, as numbers (R220). -/
theorem packId_standard {id : BitVec 29} (h : id.toNat < 2 ^ 11) :
    (packId id false).map BitVec.toNat = [id.toNat / 8, id.toNat % 8 * 32] := by
  have hsidl := toNat_append_eq_add (id.extractLsb' 0 3) 0b00000#5
  simp only [packId, Bool.false_eq_true, if_false, List.map_cons, List.map_nil, hsidl, toNat_extractLsb'_eq, BitVec.toNat_ofNat,
    List.cons.injEq, and_true]
  omega

/-- PackId of an extended identifier, as numbers (R220). -/
theorem packId_extended (id : BitVec 29) :
    (packId id true).map BitVec.toNat =
      [id.toNat / 2 ^ 21, id.toNat / 2 ^ 18 % 8 * 32 + 8 + id.toNat / 2 ^ 16 % 4, id.toNat / 2 ^ 8 % 256, id.toNat % 256] := by
  have hid := id.isLt
  have hsidl := toNat_append_eq_add (id.extractLsb' 18 3 ++ 0b010#3) (id.extractLsb' 16 2)
  simp only [packId, if_true, List.map_cons, List.map_nil, hsidl, toNat_append_eq_add, toNat_extractLsb'_eq, BitVec.toNat_ofNat,
    List.cons.injEq, and_true]
  omega

/-- The marker of an extended header is bit 3 of its SIDL (R221). -/
theorem sidl_marker (sidl : Byte) : sidl.getLsbD 3 = decide (sidl.toNat / 8 % 2 = 1) := by
  rw [← BitVec.testBit_toNat, Nat.testBit_eq_decide_div_mod_eq]

/-- UnpackId of an extended header, as a number (R221). -/
theorem unpackId_of_marker {sidl : Byte} (h : sidl.getLsbD 3 = true) (sidh eid8 eid0 : Byte) :
    (unpackId sidh sidl eid8 eid0).2 = true ∧
      (unpackId sidh sidl eid8 eid0).1.toNat =
        sidh.toNat * 2 ^ 21 + sidl.toNat / 32 * 2 ^ 18 + sidl.toNat % 4 * 2 ^ 16 + eid8.toNat * 2 ^ 8 + eid0.toNat := by
  have := sidl.isLt
  rw [unpackId, if_pos h]
  refine ⟨rfl, ?_⟩
  simp only [toNat_append_eq_add, toNat_extractLsb'_eq]
  omega

/-- UnpackId of a standard header, as a number (R221). -/
theorem unpackId_of_no_marker {sidl : Byte} (h : sidl.getLsbD 3 = false) (sidh eid8 eid0 : Byte) :
    (unpackId sidh sidl eid8 eid0).2 = false ∧ (unpackId sidh sidl eid8 eid0).1.toNat = sidh.toNat * 8 + sidl.toNat / 32 := by
  have := sidl.isLt
  have := sidh.isLt
  rw [unpackId, if_neg (Bool.eq_false_iff.1 h)]
  refine ⟨rfl, ?_⟩
  simp only [BitVec.toNat_setWidth, toNat_append_eq_add, toNat_extractLsb'_eq]
  omega

/-- The law of R221: the marker that was packed selects the layout the identifier was packed in. -/
theorem unpackId_packId {id : BitVec 29} {ext : Bool} {pad0 pad1 : Byte} (hid : ext = false → id.toNat < 2 ^ 11) {b0 b1 b2 b3 : Byte}
    (h : (packId id ext ++ if ext then [] else [pad0, pad1]) = [b0, b1, b2, b3]) : unpackId b0 b1 b2 b3 = (id, ext) := by
  have := id.isLt
  have hnum := congrArg (List.map BitVec.toNat) h
  cases ext with
  | false =>
    simp only [List.map_append, packId_standard (hid rfl), Bool.false_eq_true, if_false, List.map_cons, List.map_nil, List.cons_append,
      List.nil_append, List.cons.injEq] at hnum
    obtain ⟨h0, h1, -⟩ := hnum
    obtain ⟨hext, hval⟩ := unpackId_of_no_marker (sidl := b1) (by rw [sidl_marker, decide_eq_false_iff_not]; omega) b0 b2 b3
    have hsame : (unpackId b0 b1 b2 b3).1.toNat = id.toNat := by omega
    exact Prod.ext (BitVec.eq_of_toNat_eq hsame) hext
  | true =>
    simp only [List.append_nil, packId_extended, if_true, List.map_cons, List.map_nil, List.cons.injEq] at hnum
    obtain ⟨h0, h1, h2, h3, -⟩ := hnum
    obtain ⟨hext, hval⟩ := unpackId_of_marker (sidl := b1) (by rw [sidl_marker, decide_eq_true_eq]; omega) b0 b2 b3
    have hsame : (unpackId b0 b1 b2 b3).1.toNat = id.toNat := by omega
    exact Prod.ext (BitVec.eq_of_toNat_eq hsame) hext

/-- Settles O32: the layouts are digits of the identifier, and the law follows from them. -/
theorem identifiersPackAndUnpack : Obligations.IdentifiersPackAndUnpack :=
  ⟨fun id => ⟨packId_standard, packId_extended id⟩,
    fun sidh _ eid8 eid0 => ⟨fun h => unpackId_of_marker h sidh eid8 eid0, fun h => unpackId_of_no_marker h sidh eid8 eid0⟩,
    fun _ _ _ _ hid _ _ _ _ => unpackId_packId hid⟩

/-! ### The transactions of an operation, one after the other -/

theorem External.yields_regs_wf (c : Config) (n : Nat) {e : External} (h : Memory.wf e.regs) : Memory.wf (External.yields c n e).regs := by
  induction n generalizing e with
  | zero => exact h
  | succ n ih => exact ih (External.yield_regs_wf c h)

/-- All that transactions and waits change: the agents are at `e`, and the link's log has grown by `log`. -/
def State.onLink (s : State) (e : External) (log : List SpiEvent) : State := { s with ext := e, spiLog := s.spiLog ++ log }

@[simp] theorem State.onLink_cfg (s : State) (e : External) (log : List SpiEvent) : (s.onLink e log).cfg = s.cfg := rfl
@[simp] theorem State.onLink_ext (s : State) (e : External) (log : List SpiEvent) : (s.onLink e log).ext = e := rfl
@[simp] theorem State.onLink_canOnline (s : State) (e : External) (log : List SpiEvent) : (s.onLink e log).canOnline = s.canOnline := rfl

theorem State.onLink_self (s : State) : s.onLink s.ext [] = s := by
  rw [State.onLink, List.append_nil]

@[simp] theorem State.onLink_onLink (s : State) (e e' : External) (log log' : List SpiEvent) :
    (s.onLink e log).onLink e' log' = s.onLink e' (log ++ log') := by
  simp only [State.onLink, List.append_assoc]

/-- The agents after SPI_WRITE (R203). -/
def External.written (c : Config) (a : Byte) (d : List Byte) (e : External) : External :=
  { e.yield c with regs := Memory.writeBytes (e.yield c).regs a.toNat d }

/-- The agents after SPI_BITMOD (R204). -/
def External.bitmodded (c : Config) (a m d : Byte) (e : External) : External :=
  { e.yield c with regs := Memory.write (e.yield c).regs a.toNat (maskedWrite (Memory.read (e.yield c).regs a.toNat) m d) }

section

variable (s : State) (e : External) (log : List SpiEvent)

theorem spiWrite_onLink (a : Byte) (d : List Byte) :
    spiWrite a d (s.onLink e log) = s.onLink (e.written s.cfg a d) (log ++ [.xfer (s.cfg.cmdWrite :: a :: d) []]) :=
  (spiWrite_eq a d _).trans (State.onLink_onLink s e _ log _)

theorem spiBitmod_onLink (a m d : Byte) :
    spiBitmod a m d (s.onLink e log) = s.onLink (e.bitmodded s.cfg a m d) (log ++ [.xfer [s.cfg.cmdBitmod, a, m, d] []]) :=
  (spiBitmod_eq a m d _).trans (State.onLink_onLink s e _ log _)

/-- A one-byte read answers one byte; once settled, the register's (R202, R320). -/
theorem spiReadByte_onLink (a : Byte) :
    ∃ e' v, spiReadByte a (s.onLink e log) = (s.onLink e' (log ++ [.xfer [s.cfg.cmdRead, a] [v]]), v) ∧
      (e.settleLeft = 0 → e' = e.yield s.cfg ∧ v = Memory.read (e.yield s.cfg).regs a.toNat) := by
  obtain ⟨e', v, hread, hsettled⟩ := spiReadByte_spec a (s.onLink e log)
  exact ⟨e', v, hread.trans (Prod.ext (State.onLink_onLink s e _ log _) rfl), hsettled⟩

theorem spiReadByte_onLink_settled (a : Byte) {e : External} (h : e.settleLeft = 0) :
    spiReadByte a (s.onLink e log) =
      (s.onLink (e.yield s.cfg) (log ++ [.xfer [s.cfg.cmdRead, a] [Memory.read (e.yield s.cfg).regs a.toNat]]),
        Memory.read (e.yield s.cfg).regs a.toNat) := by
  obtain ⟨e', v, hread, hsettled⟩ := spiReadByte_onLink s e log a
  obtain ⟨rfl, rfl⟩ := hsettled h
  exact hread

/-- Once settled, SPI_READ changes nothing but what the agents' moves do, and returns the registers (R202, R320). -/
theorem spiRead_onLink (a : Byte) (k : Nat) {e : External} (h : e.settleLeft = 0) :
    spiRead a k (s.onLink e log) =
      (s.onLink (e.yield s.cfg) (log ++ [.xfer [s.cfg.cmdRead, a] (Memory.readBytes (e.yield s.cfg).regs a.toNat k)]),
        Memory.readBytes (e.yield s.cfg).regs a.toNat k) := by
  obtain ⟨e', miso, hread, -, -, hsettled⟩ := spiRead_spec a k (s.onLink e log)
  obtain ⟨rfl, rfl⟩ := hsettled h
  exact hread.trans (Prod.ext (State.onLink_onLink s e _ log _) rfl)

end

/-- Once settled, SPI_READ_STATUS returns the status byte (R205, R320). -/
theorem spiReadStatus_settled {s : State} (h : s.ext.settleLeft = 0) :
    spiReadStatus s = (s.onLink (s.ext.yield s.cfg) [.xfer [s.cfg.cmdReadStatus] [statusByte s.cfg (s.ext.yield s.cfg)]],
      statusByte s.cfg (s.ext.yield s.cfg)) := by
  obtain ⟨e, st, hread, -, hsettled⟩ := spiReadStatus_spec s
  obtain ⟨rfl, rfl⟩ := hsettled h
  exact hread

/-! ### Agents that keep still -/

/-- The agents after `n` observations with no move, where the block made the controller's registers `m`. -/
def External.quietly (e : External) (n : Nat) (m : Memory) : External := { e with env := e.env.drop n, regs := m }

@[simp] theorem External.quietly_regs (e : External) (n : Nat) (m : Memory) : (e.quietly n m).regs = m := rfl

section

variable {c : Config} {e : External} {n : Nat} (m : Memory)

theorem External.yield_quietly {batch : List Move} (h : e.env[n]? = some batch) :
    (e.quietly n m).yield c = batch.foldl (applyMove c) (e.quietly (n + 1) m) := by
  obtain ⟨hn, rfl⟩ := List.getElem?_eq_some_iff.1 h
  unfold External.yield External.quietly
  rw [List.drop_eq_getElem_cons hn]

theorem External.written_quietly (a : Byte) (d : List Byte) (h : e.env[n]? = some []) :
    (e.quietly n m).written c a d = e.quietly (n + 1) (Memory.writeBytes m a.toNat d) := by
  rw [External.written, External.yield_quietly m h]
  rfl

theorem External.bitmodded_quietly (a mask d : Byte) (h : e.env[n]? = some []) :
    (e.quietly n m).bitmodded c a mask d = e.quietly (n + 1) (Memory.write m a.toNat (maskedWrite (Memory.read m a.toNat) mask d)) := by
  rw [External.bitmodded, External.yield_quietly m h]
  rfl

end

theorem State.still_getElem? {k : Nat} {s : State} (h : s.still k) {n : Nat} (hn : n < k) : s.ext.env[n]? = some [] := by
  rw [← List.getElem?_take_of_lt hn, h, List.getElem?_replicate_of_lt hn]

/-! ### Registers and masks -/

/-- A register of a window has the window's base and its offset as address. -/
theorem toNat_add_ofNat {a : Byte} {n k : Nat} (h : a.toNat + n ≤ 0xFF) (hk : k ≤ n) : (a + BitVec.ofNat 8 k).toNat = a.toNat + k := by
  rw [BitVec.toNat_add, BitVec.toNat_ofNat]
  omega

/-- The transmit slot's window lies inside the register space (R40). -/
theorem txSlot_fits {c : Config} (h : c.wf) : c.regTxb0sidh.toNat + 12 ≤ 0xFF := by
  obtain ⟨-, -, -, ⟨hfits, -⟩, -⟩ := h
  exact hfits

theorem maskedWrite_zero (old mask : Byte) : maskedWrite old mask 0#8 = old &&& ~~~mask := by
  simp [maskedWrite]

/-- A masked write of the mask itself sets its bits. -/
theorem maskedWrite_self (old mask : Byte) : maskedWrite old mask mask = old ||| mask := by
  refine BitVec.eq_of_getLsbD_eq fun i hi => ?_
  rw [maskedWrite_getLsbD _ _ _ hi, BitVec.getLsbD_or]
  cases mask.getLsbD i <;> simp

/-- CAN_TX's test of TXB0CTRL against `M_TXREQ` tests the bit `TXREQ` (R224, R227). -/
theorem txreq_pending_iff {c : Config} (h : c.wf) (ctrl : Byte) : ctrl &&& maskTxreq c ≠ 0#8 ↔ ctrl.getLsbD c.bitTxreq = true := by
  obtain ⟨-, -, ⟨-, -, -, -, hbits⟩, -⟩ := h
  exact and_bitMask_ne_zero ctrl (hbits _ (by simp))

/-! ### The operand and offline checks (R224, R229, R283) -/

/-- The identifiers of R224, where the flags byte is legal. -/
theorem canIdOk_iff {f : Byte} (hf : f.toNat < 2) (id : BitVec 32) :
    canIdOk id (canFlagsExt f) = true ↔ id.toNat < if f = 1#8 then 2 ^ 29 else 2 ^ 11 := by
  rw [canFlagsExt_of_lt hf, canIdOk]
  by_cases h : f = 1#8 <;> simp [h]

theorem exec_canTx {f : Byte} (hf : f.toNat < 2) {id : BitVec 32} {d : List Byte} {s t : State} {st : Status}
    (h : canTx id (canFlagsExt f) d s = (t, st)) : exec (.canTx f id d) s = .next (t.reply st .nothing) := by
  rw [exec, execCanTx, if_pos ((canFlagsOk_iff f).2 hf), h]

theorem exec_canTx_of_badFlags {f : Byte} (hf : 2 ≤ f.toNat) (id : BitVec 32) (d : List Byte) (s : State) :
    exec (.canTx f id d) s = .next (s.reply .badOperand .nothing) := by
  rw [exec, execCanTx, if_neg (by rw [canFlagsOk_iff]; omega)]

theorem canTx_of_badId {id : BitVec 32} {ext : Bool} (h : ¬canIdOk id ext = true) (d : List Byte) (s : State) :
    canTx id ext d s = (s, .badOperand) := by
  rw [canTx, if_neg h]

theorem canTx_of_offline {id : BitVec 32} {ext : Bool} (h : canIdOk id ext = true) (d : List Byte) {s : State} (hs : s.canOnline = false) :
    canTx id ext d s = (s, .canOffline) := by
  rw [canTx, if_pos h, if_neg (Bool.eq_false_iff.1 hs)]

theorem canRx_of_offline {s : State} (hs : s.canOnline = false) : canRx s = (s, { status := .canOffline, value := .nothing }) := by
  rw [canRx, if_neg (Bool.eq_false_iff.1 hs)]

theorem canErrcnt_of_offline {s : State} (hs : s.canOnline = false) : canErrcnt s = (s, { status := .canOffline, value := .nothing }) := by
  rw [canErrcnt, if_neg (Bool.eq_false_iff.1 hs)]

theorem exec_canRx {s t : State} {r : Reply} (h : canRx s = (t, r)) : exec .canRx s = .next (t.reply r.status r.value) := by
  rw [exec, execCanRx, h]

theorem exec_canErrcnt {s t : State} {r : Reply} (h : canErrcnt s = (t, r)) : exec .canErrcnt s = .next (t.reply r.status r.value) := by
  rw [exec, execCanErrcnt, h]

/-- Settles O39: the flags are checked before the identifier, the identifier before `can_online`, and that before the first transaction. -/
theorem canChecksComeBeforeTheLink : Obligations.CanChecksComeBeforeTheLink := by
  intro s
  refine ⟨fun f id d hbad => ?badOperand, fun hoff => ⟨fun f id d hf hid => ?offline, exec_canRx (canRx_of_offline hoff),
    exec_canErrcnt (canErrcnt_of_offline hoff)⟩⟩
  case badOperand =>
    by_cases hf : 2 ≤ f.toNat
    · exact exec_canTx_of_badFlags hf id d s
    · have hf' : f.toNat < 2 := Nat.not_le.1 hf
      refine exec_canTx hf' (canTx_of_badId (mt (canIdOk_iff hf' id).1 ?_) d s)
      rcases hbad with h | ⟨rfl, h⟩ | h
      · exact absurd h hf
      · exact Nat.not_lt.2 h
      · split <;> omega
  case offline => exact exec_canTx hf (canTx_of_offline ((canIdOk_iff hf id).2 hid) d hoff)

/-! ### CAN_TX (R224, R227) -/

section

variable {id : BitVec 32} {ext : Bool} {d : List Byte} {s t : State} {ctrl : Byte} (hid : canIdOk id ext = true) (hs : s.canOnline = true)
  (hread : spiReadByte s.cfg.regTxb0ctrl s = (t, ctrl))
include hid hs hread

theorem canTx_of_pending (hpending : ctrl &&& maskTxreq s.cfg ≠ 0#8) : canTx id ext d s = (t, .bufferBusy) := by
  simp only [canTx, hid, hs, hread, if_true, if_pos hpending]

theorem canTx_of_free (hfree : ¬ctrl &&& maskTxreq s.cfg ≠ 0#8) :
    canTx id ext d s = (spiBitmod s.cfg.regTxb0ctrl (maskTxreq s.cfg) (maskTxreq s.cfg)
      (spiWrite (s.cfg.regTxb0sidh + 4#8) (dlcByte s.cfg (min d.length 8) :: d.take (min d.length 8))
        (spiWrite s.cfg.regTxb0sidh (packId (id.setWidth 29) ext) t)), .ok) := by
  simp only [canTx, hid, hs, hread, if_true, if_neg hfree]

end

/-- Settles O38: the one transaction is the read of TXB0CTRL. -/
theorem canTxBusyWritesNothing : Obligations.CanTxBusyWritesNothing := by
  intro s f id d hwf hs hsettled hf hid ctrl hpending
  exact exec_canTx hf (canTx_of_pending ((canIdOk_iff hf id).2 hid) hs (spiReadByte_settled _ hsettled) ((txreq_pending_iff hwf ctrl).2 hpending))

/-- The length byte and the data of the transmit slot, clamped to 8 bytes (R87, R224). -/
def slotData (c : Config) (d : List Byte) : List Byte := BitVec.ofNat 8 (min d.length 8 * 2 ^ c.bitDlc) :: d.take 8

theorem slotData_eq {c : Config} (h : c.wf) (d : List Byte) : dlcByte c (min d.length 8) :: d.take (min d.length 8) = slotData c d := by
  obtain ⟨-, -, ⟨-, -, -, hdlc, -⟩, -⟩ := h
  rw [slotData, dlcByte_eq hdlc (Nat.min_le_right _ _), Nat.min_comm, ← List.take_eq_take_min]

/-- The agents after the transactions that fill the transmit slot and request its transmission (R224). -/
def External.transmitted (c : Config) (ident data : List Byte) (e : External) : External :=
  ((e.written c c.regTxb0sidh ident).written c (c.regTxb0sidh + 4#8) data).bitmodded c c.regTxb0ctrl (maskTxreq c) (maskTxreq c)

/-- CAN_TX with the slot free says: four transactions, and OK (R224). -/
theorem exec_canTx_of_free {s : State} {f : Byte} {id : BitVec 32} (d : List Byte) (hwf : s.cfg.wf) (hs : s.canOnline = true)
    (hsettled : s.ext.settleLeft = 0) (hf : f.toNat < 2) (hid : id.toNat < if f = 1#8 then 2 ^ 29 else 2 ^ 11)
    (hfree : (Memory.read (s.ext.yield s.cfg).regs s.cfg.regTxb0ctrl.toNat).getLsbD s.cfg.bitTxreq = false) :
    exec (.canTx f id d) s = .next ((s.onLink
      ((s.ext.yield s.cfg).transmitted s.cfg (packId (id.setWidth 29) (f == 1#8)) (slotData s.cfg d))
      [.xfer [s.cfg.cmdRead, s.cfg.regTxb0ctrl] [Memory.read (s.ext.yield s.cfg).regs s.cfg.regTxb0ctrl.toNat],
       .xfer (s.cfg.cmdWrite :: s.cfg.regTxb0sidh :: packId (id.setWidth 29) (f == 1#8)) [],
       .xfer (s.cfg.cmdWrite :: (s.cfg.regTxb0sidh + 4#8) :: slotData s.cfg d) [],
       .xfer [s.cfg.cmdBitmod, s.cfg.regTxb0ctrl, maskTxreq s.cfg, maskTxreq s.cfg] []]).reply .ok .nothing) := by
  have hread : spiReadByte s.cfg.regTxb0ctrl s = (s.onLink _ [_], _) := spiReadByte_settled _ hsettled
  have hrun := canTx_of_free (d := d) ((canIdOk_iff hf id).2 hid) hs hread
    (mt (txreq_pending_iff hwf _).1 (Bool.eq_false_iff.1 hfree))
  rw [slotData_eq hwf, spiWrite_onLink, spiWrite_onLink, spiBitmod_onLink, canFlagsExt_of_lt hf] at hrun
  exact exec_canTx hf (canFlagsExt_of_lt hf ▸ hrun)

/-- Settles O36: the transactions are those of CAN_TX with the slot free. -/
theorem canTxProgramsAndRequests : Obligations.CanTxProgramsAndRequests :=
  fun _ _ _ d hwf hs hsettled hf hid hfree => ⟨_, exec_canTx_of_free d hwf hs hsettled hf hid hfree⟩

/-- What the slot and its control register hold after the identifier and the data were written above the control register, and the bits of `mask` set in
it. -/
theorem Memory.read_transmitted {m : Memory} (hm : Memory.wf m) {a ctrl : Nat} {ident data : List Byte} {mask : Byte} (hctrl : ctrl < a)
    (hident : ident.length ≤ 4) (hfits : a + 4 + data.length ≤ 256) :
    let w := Memory.writeBytes (Memory.writeBytes m a ident) (a + 4) data
    let m' := Memory.write w ctrl (maskedWrite (Memory.read w ctrl) mask mask)
    (∀ i (h : i < ident.length), Memory.read m' (a + i) = ident[i]) ∧ (∀ i (h : i < data.length), Memory.read m' (a + 4 + i) = data[i]) ∧
      Memory.read m' ctrl = Memory.read m ctrl ||| mask ∧
      ∀ b, b ≠ ctrl → ¬(a ≤ b ∧ b < a + ident.length) → ¬(a + 4 ≤ b ∧ b < a + 4 + data.length) → Memory.read m' b = Memory.read m b := by
  intro w m'
  have hm1 : Memory.wf (Memory.writeBytes m a ident) := Memory.writeBytes_wf hm (by omega)
  have hw : Memory.wf w := Memory.writeBytes_wf hm1 hfits
  have hoff {b : Nat} (hb : b ≠ ctrl) : Memory.read m' b = Memory.read w b := Memory.read_write_other hw _ hb
  have hout {b : Nat} (h1 : b < a ∨ a + ident.length ≤ b) (h2 : b < a + 4 ∨ a + 4 + data.length ≤ b) : Memory.read w b = Memory.read m b :=
    (Memory.read_writeBytes_outside hm1 hfits h2).trans (Memory.read_writeBytes_outside hm (by omega) h1)
  refine ⟨fun i hi => ?ident, fun i hi => ?data, ?control, fun b hb h1 h2 => (hoff hb).trans (hout (by omega) (by omega))⟩
  case ident =>
    rw [hoff (by omega), Memory.read_writeBytes_outside hm1 hfits (by omega), Memory.read_writeBytes_written hm (by omega) hi]
  case data => rw [hoff (by omega), Memory.read_writeBytes_written hm1 hfits hi]
  case control => rw [Memory.read_write_same hw, maskedWrite_self, hout (by omega) (by omega)]

theorem slotData_length (c : Config) (d : List Byte) : (slotData c d).length = min d.length 8 + 1 := by
  rw [slotData, List.length_cons, List.length_take, Nat.min_comm]

/-- Settles O37: identifier and data are written to disjoint windows above TXB0CTRL, and then TXREQ is set there. -/
theorem canTxLeavesTheSlotProgrammed : Obligations.CanTxLeavesTheSlotProgrammed := by
  intro s f id d hwf hs hsettled hf hid hm hstill hbelow hfree a ident
  have hfits : s.cfg.regTxb0sidh.toNat + 12 ≤ 0xFF := txSlot_fits hwf
  have henv {n : Nat} (hn : n < 4) : s.ext.env[n]? = some [] := State.still_getElem? hstill hn
  have hyield : s.ext.yield s.cfg = s.ext.quietly 1 s.ext.regs := External.yield_quietly s.ext.regs (henv (n := 0) (by omega))
  have hrun := exec_canTx_of_free d hwf hs hsettled hf hid (by rw [hyield]; exact hfree)
  rw [hyield, External.transmitted, External.written_quietly _ _ _ (henv (by omega)), External.written_quietly _ _ _ (henv (by omega)),
    External.bitmodded_quietly _ _ _ _ (henv (by omega)), toNat_add_ofNat hfits (by omega)] at hrun
  have hlen : (slotData s.cfg d).length = min d.length 8 + 1 := slotData_length s.cfg d
  have hident : ident.length ≤ 4 := by rw [packId_length]; split <;> omega
  obtain ⟨hid', hdata, hctrl, hother⟩ := Memory.read_transmitted (mask := maskTxreq s.cfg) (data := slotData s.cfg d) hm hbelow hident (by omega)
  refine ⟨_, hrun, hid', hdata 0 (by omega), fun i hi h8 => ?byte, hctrl, fun b hb h1 h2 => hother b hb h1 (by omega)⟩
  case byte =>
    have hbyte := hdata (i + 1) (by omega)
    rw [show a + 5 + i = a + 4 + (i + 1) by omega]
    exact hbyte.trans List.getElem_take

/-! ### CAN_ERRCNT (R226) -/

/-- CAN_ERRCNT's three reads, for every reply of the controller. -/
theorem canErrcnt_online {s : State} (hs : s.canOnline = true) :
    ∃ e tec rxc eflg, canErrcnt s = (s.onLink e [.xfer [s.cfg.cmdRead, s.cfg.regTec] [tec], .xfer [s.cfg.cmdRead, s.cfg.regRec] [rxc],
        .xfer [s.cfg.cmdRead, s.cfg.regEflg] [eflg]], { status := .ok, value := .counters tec rxc eflg }) ∧
      (s.ext.settleLeft = 0 → e = External.yields s.cfg 3 s.ext ∧ tec = Memory.read (External.yields s.cfg 1 s.ext).regs s.cfg.regTec.toNat ∧
        rxc = Memory.read (External.yields s.cfg 2 s.ext).regs s.cfg.regRec.toNat ∧
        eflg = Memory.read (External.yields s.cfg 3 s.ext).regs s.cfg.regEflg.toNat) := by
  obtain ⟨e1, tec, h1, hs1⟩ := spiReadByte_onLink s s.ext [] s.cfg.regTec
  rw [State.onLink_self] at h1
  obtain ⟨e2, rxc, h2, hs2⟩ := spiReadByte_onLink s e1 [.xfer [s.cfg.cmdRead, s.cfg.regTec] [tec]] s.cfg.regRec
  obtain ⟨e3, eflg, h3, hs3⟩ := spiReadByte_onLink s e2 [.xfer [s.cfg.cmdRead, s.cfg.regTec] [tec], .xfer [s.cfg.cmdRead, s.cfg.regRec] [rxc]]
    s.cfg.regEflg
  refine ⟨e3, tec, rxc, eflg, ?reads, fun h0 => ?settled⟩
  case reads =>
    simp only [canErrcnt, hs, if_true, h1, h2, h3, List.cons_append, List.nil_append]
  case settled =>
    obtain ⟨rfl, rfl⟩ := hs1 h0
    obtain ⟨rfl, rfl⟩ := hs2 (External.yield_settled _ h0)
    obtain ⟨rfl, rfl⟩ := hs3 (External.yield_settled _ (External.yield_settled _ h0))
    exact ⟨rfl, rfl, rfl, rfl⟩

/-- Settles O42: CAN_ERRCNT online is its three reads. -/
theorem canErrcntReadsThreeRegisters : Obligations.CanErrcntReadsThreeRegisters := by
  intro s hs c
  obtain ⟨e, tec, rxc, eflg, hrun, hsettled⟩ := canErrcnt_online hs
  exact ⟨e, tec, rxc, eflg, exec_canErrcnt hrun, hsettled⟩

/-! ### CAN_RX (R225, R228) -/

theorem canRx_of_noSlot {s : State} (hs : s.canOnline = true) {t : State} {st : Byte} (hst : spiReadStatus s = (t, st))
    (h0 : st.getLsbD s.cfg.bitStRx0if = false) (h1 : st.getLsbD s.cfg.bitStRx1if = false) :
    canRx s = (t, { status := .nothing, value := .nothing }) := by
  simp only [canRx, hs, hst, h0, h1, if_true, Bool.false_eq_true, if_false]

/-- Slot 0 first when both are pending (D21). -/
theorem canRx_of_slot {s : State} (hs : s.canOnline = true) {t : State} {st : Byte} (hst : spiReadStatus s = (t, st))
    (h : st.getLsbD s.cfg.bitStRx0if = true ∨ st.getLsbD s.cfg.bitStRx1if = true) :
    canRx s = ((receiveSlot (!st.getLsbD s.cfg.bitStRx0if) t).1,
      { status := .ok, value := .can (receiveSlot (!st.getLsbD s.cfg.bitStRx0if) t).2 }) := by
  cases h0 : st.getLsbD s.cfg.bitStRx0if with
  | true => simp only [canRx, hs, hst, h0, if_true, Bool.not_true]
  | false =>
    have h1 : st.getLsbD s.cfg.bitStRx1if = true := h.resolve_left (Bool.eq_false_iff.1 h0)
    simp only [canRx, hs, hst, h0, h1, if_true, Bool.false_eq_true, if_false, Bool.not_false]

/-- Settles O40: a settled status read with both flags clear ends the operation. -/
theorem canRxReturnsNothing : Obligations.CanRxReturnsNothing := fun _ hs hsettled h0 h1 =>
  exec_canRx (canRx_of_noSlot hs (spiReadStatus_settled hsettled) h0 h1)

/-- The receive slot's window base (R40). -/
def rxBase (c : Config) (slot1 : Bool) : Byte := if slot1 then c.rxBase1 else c.rxBase0

/-- A slot's window lies inside the register space (R40). -/
theorem rxBase_fits {c : Config} (h : c.wf) (slot1 : Bool) : (rxBase c slot1).toNat + 13 ≤ 0xFF := by
  obtain ⟨-, -, -, ⟨-, h0, h1⟩, -⟩ := h
  cases slot1
  · exact h0
  · exact h1

/-- The data bytes of a receive slot: no transaction for none (R225). -/
def readData (a : Byte) (n : Nat) (s : State) : State × List Byte := if n > 0 then spiRead a n s else (s, [])

/-- CAN_RX's body is its header read, its data read and the clearing of the flag (R225). -/
theorem receiveSlot_eq {slot1 : Bool} {base mask : Byte} {n : Nat} {s t u : State} {h0 h1 h2 h3 h4 : Byte} {data : List Byte}
    (hbase : base = rxBase s.cfg slot1) (hmask : mask = maskRxif s.cfg slot1) (hheader : spiRead (base + 1#8) 5 s = (t, [h0, h1, h2, h3, h4]))
    (hn : dlcCount s.cfg h4 = n) (hdata : readData (base + 6#8) n t = (u, data)) :
    receiveSlot slot1 s = (spiBitmod s.cfg.regCanintf mask 0x00#8 u,
      { id := (unpackId h0 h1 h2 h3).1, extended := (unpackId h0 h1 h2 h3).2, data := data }) := by
  subst hbase hmask hn
  unfold rxBase at hheader hdata
  unfold readData at hdata
  simp only [receiveSlot, hheader, List.getD_cons_zero, List.getD_cons_succ, hdata]

section

variable {base : Byte} (hbase : base.toNat + 13 ≤ 0xFF) (s : State) (log : List SpiEvent) {e : External} (hsettled : e.settleLeft = 0)
include hbase hsettled

theorem spiRead_header (h : Nat → Byte) (hh : ∀ i, Memory.read (e.yield s.cfg).regs (base.toNat + 1 + i) = h i) :
    spiRead (base + 1#8) 5 (s.onLink e log) =
      (s.onLink (e.yield s.cfg) (log ++ [.xfer [s.cfg.cmdRead, base + 1#8] [h 0, h 1, h 2, h 3, h 4]]), [h 0, h 1, h 2, h 3, h 4]) := by
  have hbytes : Memory.readBytes (e.yield s.cfg).regs (base + 1#8).toNat 5 = [h 0, h 1, h 2, h 3, h 4] := by
    simp only [← hh, ← toNat_add_ofNat (k := 1) hbase (by omega)]
    rfl
  rw [spiRead_onLink s log _ _ hsettled, hbytes]

theorem readData_onLink (n : Nat) :
    let data := (List.range n).map fun i => Memory.read (e.yield s.cfg).regs (base.toNat + 6 + i)
    readData (base + 6#8) n (s.onLink e log) = (s.onLink (External.yields s.cfg (if n = 0 then 0 else 1) e)
      (log ++ if n = 0 then [] else [.xfer [s.cfg.cmdRead, base + 6#8] data]), data) := by
  by_cases hn : n = 0
  · subst hn
    simp [readData, External.yields]
  · simp only [readData, if_pos (Nat.pos_of_ne_zero hn), if_neg hn]
    rw [spiRead_onLink s log _ _ hsettled, toNat_add_ofNat (k := 6) hbase (by omega)]
    rfl

end

/-- Settles O41: the header read, the data read and the clearing of the flag, one after the other. -/
theorem canRxReadsOneSlot : Obligations.CanRxReadsOneSlot := by
  intro s hwf hm hs hsettled c st hslot base mask h n data last ident
  have hbase : base = rxBase c (!st.getLsbD c.bitStRx0if) := by simp only [base, rxBase]; cases st.getLsbD c.bitStRx0if <;> rfl
  have hmask : mask = maskRxif c (!st.getLsbD c.bitStRx0if) := by simp only [mask, maskRxif]; cases st.getLsbD c.bitStRx0if <;> rfl
  have hfits : base.toNat + 13 ≤ 0xFF := hbase ▸ rxBase_fits hwf _
  have hsettled1 : (s.ext.yield c).settleLeft = 0 := External.yield_settled c hsettled
  have hsettled2 : (External.yields c 2 s.ext).settleLeft = 0 := External.yield_settled c hsettled1
  have hlast : (External.yields c (if n = 0 then 0 else 1) (External.yields c 2 s.ext)).yield c = last := by
    by_cases h0 : n = 0 <;> simp only [last, h0, if_true, if_false] <;> rfl
  have hwfLast : Memory.wf last.regs := External.yields_regs_wf c _ hm
  have hslotRun := receiveSlot_eq (s := s.onLink _ _) hbase hmask
    (spiRead_header hfits s [.xfer [c.cmdReadStatus] [st]] hsettled1 h fun _ => rfl) (dlcCount_eq c (h 4)) (readData_onLink hfits s _ hsettled2 n)
  have hrun := canRx_of_slot hs (spiReadStatus_settled hsettled) hslot
  rw [hslotRun, spiBitmod_onLink, External.bitmodded, hlast] at hrun
  refine ⟨Memory.write last.regs c.regCanintf.toNat (maskedWrite (Memory.read last.regs c.regCanintf.toNat) mask 0#8),
    (exec_canRx hrun).trans ?answer, ?cleared, fun b hb => Memory.read_write_other hwfLast _ hb⟩
  case answer => simp only [State.onLink, State.reply, List.append_assoc, List.cons_append, List.nil_append]; rfl
  case cleared => exact (Memory.read_write_same hwfLast _ _).trans (maskedWrite_zero _ _)

/-! ### The reset and its settle wait (R201, R223) -/

/-- The agents after SPI_RESET (R201). -/
def External.reset (c : Config) (e : External) : External :=
  let e' := ({ e.yield c with settleLeft := c.settleMs } : External).yield c
  { e' with
    regs := Memory.write e'.regs c.regCanstat.toNat
      (maskedWrite (Memory.read e'.regs c.regCanstat.toNat) (mask3 c.bitOpmod) (place3 c.opmodeConfig c.bitOpmod)) }

/-- The agents after the reset body of CAN_INIT and CAN_RESET (R223). -/
def External.resetBody (c : Config) (e : External) : External := ((e.reset c).yield c).advance c c.settleMs

theorem spiReset_onLink (s : State) : spiReset s = s.onLink (s.ext.reset s.cfg) [.xfer [s.cfg.cmdReset] []] := spiReset_eq s

theorem wait_onLink (s : State) (e : External) (log : List SpiEvent) (ms : Nat) :
    (s.onLink e log).wait ms = s.onLink ((e.yield s.cfg).advance s.cfg ms) (log ++ [.wait ms]) := by
  rw [← State.onLink_onLink s e]
  rfl

/-- The reset body says: one transaction and the settle wait (R223). -/
theorem canResetBody_eq (s : State) :
    canResetBody s = s.onLink (s.ext.resetBody s.cfg) [.xfer [s.cfg.cmdReset] [], .wait s.cfg.settleMs] := by
  rw [canResetBody, spiReset_onLink, wait_onLink]
  rfl

/-- The wait is at least as long as the settle time (R223, R320). -/
theorem External.resetBody_settled (c : Config) (e : External) : (e.resetBody c).settleLeft = 0 := by
  have hreset : (e.reset c).settleLeft ≤ c.settleMs := External.yield_settle_le c { e.yield c with settleLeft := c.settleMs }
  exact Nat.sub_eq_zero_of_le ((External.yield_settle_le c (e.reset c)).trans hreset)

/-- Settles O33: CAN_RESET is the reset body, and goes offline. -/
theorem canResetSettlesAndGoesOffline : Obligations.CanResetSettlesAndGoesOffline := by
  intro s
  refine ⟨s.ext.resetBody s.cfg, ?_, External.resetBody_settled _ _⟩
  rw [exec, execCanReset, canReset, canResetBody_eq]
  rfl

/-! ### CAN_INIT (R222) -/

/-- The agents after CAN_INIT has written the sentinel and read it back. -/
def External.checked (c : Config) (e : External) : External := ((e.resetBody c).written c c.regScratch [c.sentinel]).yield c

/-- The byte CAN_INIT reads back from the scratch register. -/
def External.readBack (c : Config) (e : External) : Byte := Memory.read (e.checked c).regs c.regScratch.toNat

/-- The transactions and the wait up to the sentinel check (R222). -/
def checkXfers (c : Config) (b : Byte) : List SpiEvent :=
  [.xfer [c.cmdReset] [], .wait c.settleMs, .xfer [c.cmdWrite, c.regScratch, c.sentinel] [], .xfer [c.cmdRead, c.regScratch] [b]]

/-- CAN_INIT where it checks the sentinel. -/
def State.checked (s : State) : State := (s.withOnline false).onLink (s.ext.checked s.cfg) (checkXfers s.cfg (s.ext.readBack s.cfg))

/-- After the settle wait the controller answers with the register (R320). -/
theorem sentinel_readBack (s : State) :
    spiReadByte s.cfg.regScratch (spiWrite s.cfg.regScratch [s.cfg.sentinel] (canResetBody (s.withOnline false))) =
      (s.checked, s.ext.readBack s.cfg) := by
  rw [canResetBody_eq, spiWrite_onLink]
  exact spiReadByte_onLink_settled _ _ _ (External.yield_settled (e := s.ext.resetBody s.cfg) _ (External.resetBody_settled _ _))

section

variable {s : State} (r : Nat)

theorem canInit_of_mismatch (h : s.ext.readBack s.cfg ≠ s.cfg.sentinel) : canInit r s = (s.checked, .initVerifyFail) := by
  simp only [canInit, sentinel_readBack, if_pos h]

variable {r} (h : s.ext.readBack s.cfg = s.cfg.sentinel)
include h

theorem canInit_of_unsupported (ht : bitTimingOf s.cfg r = none) : canInit r s = (s.checked, .unsupportedBitrate) := by
  simp only [canInit, sentinel_readBack, h, ne_eq, not_true_eq_false, if_false, ht]

theorem canInit_of_supported {t : BitTiming} (ht : bitTimingOf s.cfg r = some t) :
    canInit r s = modePoll s.cfg.modePollMax (canProgram t s.checked) := by
  simp only [canInit, sentinel_readBack, h, ne_eq, not_true_eq_false, if_false, ht]

end

/-- The agents after CAN_INIT's register programming (R222). -/
def External.programmed (c : Config) (t : BitTiming) (e : External) : External :=
  ((((((e.written c c.regCnf1 [t.cnf1]).written c c.regCnf2 [t.cnf2]).written c c.regCnf3 [t.cnf3]).written c c.regCaninte [rxEnables c]).written
    c c.regRxb0ctrl [rxb0Byte c]).written c c.regRxb1ctrl [rxmAnyByte c]).bitmodded c c.regCanctrl (maskReqop c) (place3 c.opmodeNormal c.bitReqop)

theorem canProgram_onLink (t : BitTiming) (s : State) (e : External) (log : List SpiEvent) :
    canProgram t (s.onLink e log) = s.onLink (e.programmed s.cfg t) (log ++ programXfers s.cfg t) := by
  simp only [canProgram, spiWrite_onLink, spiBitmod_onLink, State.onLink_cfg, List.append_assoc, List.cons_append, List.nil_append]
  rfl

/-- How a mode poll of at most `n` reads that answered `modes` ends (R222, R321). -/
def PollEnds (c : Config) (n : Nat) (modes : List Byte) (st : Status) : Prop :=
  modes.length ≤ n ∧
    ((st = .ok ∧ ∃ before m, modes = before ++ [m] ∧ field3 m c.bitOpmod = c.opmodeNormal ∧
        ∀ x ∈ before, field3 x c.bitOpmod ≠ c.opmodeNormal) ∨
      (st = .modeTimeout ∧ modes.length = n ∧ ∀ x ∈ modes, field3 x c.bitOpmod ≠ c.opmodeNormal))

theorem pollEnds_zero (c : Config) : PollEnds c 0 [] .modeTimeout := ⟨Nat.le_refl _, .inr ⟨rfl, rfl, nofun⟩⟩

theorem pollEnds_normal {c : Config} {m : Byte} (h : field3 m c.bitOpmod = c.opmodeNormal) (n : Nat) : PollEnds c (n + 1) [m] .ok :=
  ⟨Nat.le_add_left _ _, .inl ⟨rfl, [], m, rfl, h, nofun⟩⟩

theorem PollEnds.cons {c : Config} {n : Nat} {m : Byte} {modes : List Byte} {st : Status} (h : PollEnds c n modes st)
    (hm : field3 m c.bitOpmod ≠ c.opmodeNormal) : PollEnds c (n + 1) (m :: modes) st := by
  obtain ⟨hlen, ⟨rfl, before, last, rfl, hlast, hbefore⟩ | ⟨rfl, hfull, hall⟩⟩ := h
  · exact ⟨Nat.succ_le_succ hlen, .inl ⟨rfl, m :: before, last, rfl, hlast, List.forall_mem_cons.2 ⟨hm, hbefore⟩⟩⟩
  · exact ⟨Nat.succ_le_succ hlen, .inr ⟨rfl, congrArg Nat.succ hfull, List.forall_mem_cons.2 ⟨hm, hall⟩⟩⟩

theorem modePoll_of_normal {n : Nat} {s t : State} {m : Byte} (hread : spiReadByte s.cfg.regCanstat s = (t, m))
    (hm : field3 m t.cfg.bitOpmod = t.cfg.opmodeNormal) : modePoll (n + 1) s = (t.withOnline true, .ok) := by
  simp only [modePoll, hread, if_pos hm]

theorem modePoll_of_other {n : Nat} {s t : State} {m : Byte} (hread : spiReadByte s.cfg.regCanstat s = (t, m))
    (hm : field3 m t.cfg.bitOpmod ≠ t.cfg.opmodeNormal) : modePoll (n + 1) s = modePoll n t := by
  simp only [modePoll, hread, if_neg hm]

/-- The reads of CANSTAT that a mode poll performs. -/
def pollXfers (c : Config) (modes : List Byte) : List SpiEvent := modes.map fun m => .xfer [c.cmdRead, c.regCanstat] [m]

/-- The mode poll, for every reply of the controller: its reads, how it ends, and online exactly on OK (R222, R27). -/
theorem modePoll_onLink (n : Nat) {s : State} (hs : s.canOnline = false) (e : External) (log : List SpiEvent) :
    ∃ e' modes st, modePoll n (s.onLink e log) = ((s.onLink e' (log ++ pollXfers s.cfg modes)).withOnline (st == .ok), st) ∧
      PollEnds s.cfg n modes st := by
  induction n generalizing e log with
  | zero =>
    refine ⟨e, [], .modeTimeout, ?_, pollEnds_zero _⟩
    rw [modePoll, pollXfers, List.map_nil, List.append_nil]
    exact Prod.ext (State.withOnline_self (s := s.onLink e log) hs).symm rfl
  | succ n ih =>
    obtain ⟨e1, m, hread, -⟩ := spiReadByte_onLink s e log s.cfg.regCanstat
    by_cases hm : field3 m s.cfg.bitOpmod = s.cfg.opmodeNormal
    · exact ⟨e1, [m], .ok, modePoll_of_normal hread hm, pollEnds_normal hm n⟩
    · obtain ⟨e2, modes, st, hpoll, hends⟩ := ih e1 (log ++ [.xfer [s.cfg.cmdRead, s.cfg.regCanstat] [m]])
      refine ⟨e2, m :: modes, st, ?_, hends.cons hm⟩
      rw [modePoll_of_other hread hm, hpoll, List.append_assoc]
      rfl

theorem bitTimingOf_eq_none {c : Config} {r : Nat} : bitTimingOf c r = none ↔ ∀ t ∈ c.bitTiming, t.rate ≠ r := by
  simp [bitTimingOf]

theorem bitTimingOf_eq_some {c : Config} {r : Nat} {t : BitTiming} (h : bitTimingOf c r = some t) : t ∈ c.bitTiming ∧ t.rate = r :=
  ⟨List.mem_of_find?_eq_some h, by simpa using List.find?_some h⟩

theorem exec_canInit {r : BitVec 32} {s t : State} {st : Status} (h : canInit r.toNat s = (t, st)) :
    exec (.canInit r) s = .next (t.reply st .nothing) := by
  rw [exec, execCanInit, h]

/-- A run of CAN_INIT ends with one reply. -/
theorem canInitRun_of_eq {r : BitVec 32} {s t : State} {st : Status} (h : canInit r.toNat s = (t, st)) (hrun : CanInitRun s r.toNat t st) :
    ∃ t st, CanInitRun s r.toNat t st ∧ exec (.canInit r) s = .next { t with replies := s.replies ++ [{ status := st, value := .nothing }] } := by
  refine ⟨t, st, hrun, ?_⟩
  rw [exec_canInit h]
  obtain ⟨e, b, tail, rfl, -⟩ := hrun
  rfl

/-- Settles O34: the sentinel, the timing table and the mode polls decide. -/
theorem canInitFollowsItsSequence : Obligations.CanInitFollowsItsSequence := by
  intro s r
  have hstop : s.checked = { s.checked with spiLog := s.spiLog ++ checkXfers s.cfg (s.ext.readBack s.cfg) ++ [] } := by
    rw [List.append_nil]
    rfl
  by_cases hb : s.ext.readBack s.cfg = s.cfg.sentinel
  · cases ht : bitTimingOf s.cfg r.toNat with
    | none => exact canInitRun_of_eq (canInit_of_unsupported hb ht) ⟨_, _, [], hstop, .inr (.inl ⟨hb, bitTimingOf_eq_none.1 ht, rfl, rfl⟩)⟩
    | some t =>
      obtain ⟨hmem, hrate⟩ := bitTimingOf_eq_some ht
      obtain ⟨e, modes, st, hpoll, hends⟩ := modePoll_onLink s.cfg.modePollMax (s := s.withOnline false) rfl
        ((s.ext.checked s.cfg).programmed s.cfg t) (checkXfers s.cfg (s.ext.readBack s.cfg) ++ programXfers s.cfg t)
      have hinit := canInit_of_supported hb ht
      rw [State.checked, canProgram_onLink] at hinit
      refine canInitRun_of_eq (hinit.trans hpoll) ⟨e, s.ext.readBack s.cfg, programXfers s.cfg t ++ pollXfers s.cfg modes, ?_,
        .inr (.inr ⟨hb, t, hmem, hrate, modes, rfl, hends⟩)⟩
      simp only [State.onLink, State.withOnline, List.append_assoc]
      rfl
  · exact canInitRun_of_eq (canInit_of_mismatch _ hb) ⟨_, _, [], hstop, .inl ⟨hb, rfl, rfl⟩⟩

/-! ### Registers written one by one -/

/-- Registers take values one after the other. -/
def Memory.writes (m : Memory) (ws : List (Byte × Byte)) : Memory := ws.foldl (fun m w => Memory.write m w.1.toNat w.2) m

theorem Memory.writes_wf {m : Memory} (hm : Memory.wf m) (ws : List (Byte × Byte)) : Memory.wf (m.writes ws) := by
  induction ws generalizing m with
  | nil => exact hm
  | cons w ws ih => exact ih (Memory.write_wf hm w.1.isLt)

theorem Memory.read_writes_other {m : Memory} (hm : Memory.wf m) {ws : List (Byte × Byte)} {b : Nat} (hb : b ∉ (ws.map Prod.fst).map BitVec.toNat) :
    Memory.read (m.writes ws) b = Memory.read m b := by
  induction ws generalizing m with
  | nil => rfl
  | cons w ws ih =>
    obtain ⟨hne, hrest⟩ := not_or.1 (mt List.mem_cons.2 hb)
    exact (ih (Memory.write_wf hm w.1.isLt) hrest).trans (Memory.read_write_other hm _ hne)

theorem Memory.read_writes_mem {m : Memory} (hm : Memory.wf m) {ws : List (Byte × Byte)} (hnodup : (ws.map Prod.fst).Nodup) :
    ∀ w ∈ ws, Memory.read (m.writes ws) w.1.toNat = w.2 := by
  induction ws generalizing m with
  | nil => nofun
  | cons w ws ih =>
    obtain ⟨hnew, hnodup⟩ := List.nodup_cons.1 hnodup
    have hm' : Memory.wf (Memory.write m w.1.toNat w.2) := Memory.write_wf hm w.1.isLt
    have hrest : w.1.toNat ∉ (ws.map Prod.fst).map BitVec.toNat := by rwa [List.mem_map_of_injective fun _ _ => BitVec.eq_of_toNat_eq]
    exact List.forall_mem_cons.2 ⟨(Memory.read_writes_other hm' hrest).trans (Memory.read_write_same hm _ _), ih hm' hnodup⟩

/-! ### CAN_INIT while the agents keep still (R222) -/

/-- The registers after SPI_RESET, where the controller's own moves change none (R201, log 9). -/
def resetRegs (c : Config) (m : Memory) : Memory :=
  Memory.write m c.regCanstat.toNat (maskedWrite (Memory.read m c.regCanstat.toNat) (mask3 c.bitOpmod) (place3 c.opmodeConfig c.bitOpmod))

/-- The registers once the sentinel stands in the scratch register. -/
def checkedRegs (c : Config) (m : Memory) : Memory := Memory.write (resetRegs c m) c.regScratch.toNat c.sentinel

/-- What CAN_INIT writes to each of its six registers before the mode request (R222). -/
def initSettings (c : Config) (t : BitTiming) : List (Byte × Byte) :=
  [(c.regCnf1, t.cnf1), (c.regCnf2, t.cnf2), (c.regCnf3, t.cnf3), (c.regCaninte, rxEnables c), (c.regRxb0ctrl, rxb0Byte c),
    (c.regRxb1ctrl, rxmAnyByte c)]

/-- CANCTRL with the normal-mode request in its `REQOP` field. -/
def modeRequest (c : Config) (m : Memory) : Byte :=
  maskedWrite (Memory.read m c.regCanctrl.toNat) (maskReqop c) (place3 c.opmodeNormal c.bitReqop)

/-- The registers after CAN_INIT's register programming. -/
def programmedRegs (c : Config) (t : BitTiming) (m : Memory) : Memory :=
  Memory.write (m.writes (initSettings c t)) c.regCanctrl.toNat (modeRequest c (m.writes (initSettings c t)))

/-- The registers after CAN_INIT, where the controller's only move is to set CANSTAT to `mode`. -/
def onlineRegs (c : Config) (t : BitTiming) (mode : Byte) (m : Memory) : Memory :=
  Memory.write (programmedRegs c t (checkedRegs c m)) c.regCanstat.toNat mode

/-- The tick counter after the settle wait, and the settle time passed (R223). -/
def External.settled (c : Config) (e : External) : External := { e with tick := (e.tick + c.settleMs) % 2 ^ c.tickBits, settleLeft := 0 }

theorem External.resetBody_quietly {c : Config} {e : External} (h : ∀ n < 3, e.env[n]? = some []) :
    e.resetBody c = (e.settled c).quietly 3 (resetRegs c e.regs) := by
  have h1 : e.yield c = e.quietly 1 e.regs := External.yield_quietly e.regs (h 0 (by omega))
  have h2 : ({ e.quietly 1 e.regs with settleLeft := c.settleMs } : External).yield c =
      ({ e with settleLeft := c.settleMs } : External).quietly 2 e.regs :=
    External.yield_quietly (e := { e with settleLeft := c.settleMs }) e.regs (h 1 (by omega))
  have h3 : (e.reset c).yield c = ({ e with settleLeft := c.settleMs } : External).quietly 3 (resetRegs c e.regs) := by
    rw [External.reset, h1, h2]
    exact External.yield_quietly (e := { e with settleLeft := c.settleMs }) (resetRegs c e.regs) (h 2 (by omega))
  rw [External.resetBody, h3, External.advance, External.quietly]
  simp only [Nat.sub_self]
  rfl

theorem External.checked_quietly {c : Config} {e : External} (h : ∀ n < 5, e.env[n]? = some []) :
    e.checked c = (e.settled c).quietly 5 (checkedRegs c e.regs) := by
  have h3 : (e.settled c).env[3]? = some [] := h 3 (by omega)
  have h4 : (e.settled c).env[4]? = some [] := h 4 (by omega)
  rw [External.checked, External.resetBody_quietly fun n hn => h n (by omega), External.written_quietly _ _ _ h3, External.yield_quietly _ h4]
  rfl

theorem External.programmed_quietly {c : Config} {e : External} {k n : Nat} (m : Memory) (t : BitTiming) (h : ∀ i < k, e.env[i]? = some [])
    (hn : n + 7 ≤ k) :
    (e.quietly n m).programmed c t = e.quietly (n + 7) (programmedRegs c t m) := by
  rw [External.programmed, External.written_quietly _ _ _ (h _ (by omega)), External.written_quietly _ _ _ (h _ (by omega)),
    External.written_quietly _ _ _ (h _ (by omega)), External.written_quietly _ _ _ (h _ (by omega)),
    External.written_quietly _ _ _ (h _ (by omega)), External.written_quietly _ _ _ (h _ (by omega)),
    External.bitmodded_quietly _ _ _ _ (h _ (by omega))]
  rfl

section

variable {c : Config} {m : Memory} (hm : Memory.wf m)
include hm

theorem resetRegs_wf : Memory.wf (resetRegs c m) := Memory.write_wf hm c.regCanstat.isLt

theorem checkedRegs_wf : Memory.wf (checkedRegs c m) := Memory.write_wf (resetRegs_wf hm) c.regScratch.isLt

theorem programmedRegs_wf {t : BitTiming} : Memory.wf (programmedRegs c t m) := Memory.write_wf (Memory.writes_wf hm _) c.regCanctrl.isLt

/-- Up to the sentinel check CANSTAT and the scratch register alone are written. -/
theorem read_checkedRegs {b : Nat} (hb : b ≠ c.regCanstat.toNat) :
    Memory.read (checkedRegs c m) b = if b = c.regScratch.toNat then c.sentinel else Memory.read m b := by
  rw [checkedRegs, Memory.read_write (resetRegs_wf hm), resetRegs, Memory.read_write_other hm _ hb]

/-- What the mode request finds in CANCTRL where the registers are distinct: what stood there before it. -/
theorem read_canctrl_of_nodup {t : BitTiming} (h : ((initSettings c t).map Prod.fst ++ [c.regCanctrl, c.regCanstat]).Nodup) :
    Memory.read ((checkedRegs c m).writes (initSettings c t)) c.regCanctrl.toNat =
      if c.regCanctrl.toNat = c.regScratch.toNat then c.sentinel else Memory.read m c.regCanctrl.toNat := by
  obtain ⟨-, hlast, hdisjoint⟩ := List.nodup_append.1 h
  have hother : c.regCanctrl.toNat ∉ ((initSettings c t).map Prod.fst).map BitVec.toNat := by
    rw [List.mem_map_of_injective fun _ _ => BitVec.eq_of_toNat_eq]
    exact fun hmem => hdisjoint _ hmem _ (by simp) rfl
  have hne : c.regCanctrl.toNat ≠ c.regCanstat.toNat := fun heq => by simp [BitVec.eq_of_toNat_eq heq] at hlast
  exact (Memory.read_writes_other (checkedRegs_wf hm) hother).trans (read_checkedRegs hm hne)

end

/-- Every register CAN_INIT and the controller's move write after the sentinel check, with what it is given. -/
def onlineSettings (c : Config) (t : BitTiming) (mode : Byte) (m : Memory) : List (Byte × Byte) :=
  initSettings c t ++ [(c.regCanctrl, modeRequest c (m.writes (initSettings c t))), (c.regCanstat, mode)]

theorem onlineRegs_eq_writes (c : Config) (t : BitTiming) (mode : Byte) (m : Memory) :
    onlineRegs c t mode m = (checkedRegs c m).writes (onlineSettings c t mode (checkedRegs c m)) := rfl

/-- Where the controller's only move is to enter normal mode at the first poll, CAN_INIT with a supported bitrate says: the whole sequence, and OK. -/
theorem canInit_of_quiet {s : State} {r : Nat} {t : BitTiming} {mode : Byte} (hpolls : 1 ≤ s.cfg.modePollMax) (hm : Memory.wf s.ext.regs)
    (ht : bitTimingOf s.cfg r = some t) (hquiet : ∀ n < 12, s.ext.env[n]? = some [])
    (hmove : s.ext.env[12]? = some [.register s.cfg.regCanstat mode]) (hmode : field3 mode s.cfg.bitOpmod = s.cfg.opmodeNormal) :
    canInit r s = ((s.onLink ((s.ext.settled s.cfg).quietly 13 (onlineRegs s.cfg t mode s.ext.regs))
      (checkXfers s.cfg s.cfg.sentinel ++ programXfers s.cfg t ++ pollXfers s.cfg [mode])).withOnline true, .ok) := by
  have hchecked : s.ext.checked s.cfg = (s.ext.settled s.cfg).quietly 5 (checkedRegs s.cfg s.ext.regs) :=
    External.checked_quietly fun n hn => hquiet n (by omega)
  have hback : s.ext.readBack s.cfg = s.cfg.sentinel := by
    rw [External.readBack, hchecked]
    exact Memory.read_write_same (resetRegs_wf hm) _ _
  have hprogrammed := External.programmed_quietly (c := s.cfg) (e := s.ext.settled s.cfg) (n := 5) (checkedRegs s.cfg s.ext.regs) t hquiet (by omega)
  have hpolled : ((s.ext.checked s.cfg).programmed s.cfg t).yield s.cfg =
      (s.ext.settled s.cfg).quietly 13 (onlineRegs s.cfg t mode s.ext.regs) := by
    rw [hchecked, hprogrammed]
    exact External.yield_quietly (e := s.ext.settled s.cfg) _ hmove
  have hval : Memory.read (onlineRegs s.cfg t mode s.ext.regs) s.cfg.regCanstat.toNat = mode :=
    Memory.read_write_same (programmedRegs_wf (checkedRegs_wf hm)) _ _
  have hsettled : ((s.ext.checked s.cfg).programmed s.cfg t).settleLeft = 0 := by rw [hchecked, hprogrammed]; rfl
  have hread := spiReadByte_onLink_settled (s.withOnline false) (checkXfers s.cfg s.cfg.sentinel ++ programXfers s.cfg t) s.cfg.regCanstat hsettled
  rw [State.withOnline_cfg, hpolled, External.quietly_regs, hval] at hread
  obtain ⟨n, hn⟩ := Nat.exists_eq_add_of_le' hpolls
  rw [canInit_of_supported hback ht, State.checked, canProgram_onLink, hback, hn]
  exact (modePoll_of_normal hread hmode).trans rfl

/-- Settles O35: quiet agents leave the registers as CAN_INIT writes them, one after the other; where the eight are distinct, each keeps what it was given. -/
theorem canInitBringsCanOnline : Obligations.CanInitBringsCanOnline := by
  intro s r t mode rest hwf hm ht henv hmode c
  obtain ⟨⟨-, -, -, -, -, hpolls⟩, -, ⟨hreqop, -⟩, -⟩ := hwf
  have hquiet : ∀ n < 12, s.ext.env[n]? = some [] := fun n hn => by
    rw [henv, List.getElem?_append_left (by simpa using hn), List.getElem?_replicate_of_lt hn]
  have hmove : s.ext.env[12]? = some [.register c.regCanstat mode] := by rw [henv]; rfl
  obtain rfl : s.ext.env.drop 13 = rest := by rw [henv]; rfl
  refine ⟨onlineRegs c t mode s.ext.regs, ?run, fun hnodup => ?registers⟩
  case run =>
    rw [exec_canInit (canInit_of_quiet hpolls hm ht hquiet hmove hmode)]
    simp only [State.onLink, State.withOnline, State.reply, ← List.append_assoc]
    rfl
  case registers =>
    have hm' : Memory.wf (checkedRegs c s.ext.regs) := checkedRegs_wf hm
    have hheld := Memory.read_writes_mem hm' (ws := onlineSettings c t mode (checkedRegs c s.ext.regs)) hnodup
    simp only [← onlineRegs_eq_writes] at hheld
    simp only [onlineSettings, initSettings, List.cons_append, List.nil_append, List.forall_mem_cons] at hheld
    obtain ⟨hcnf1, hcnf2, hcnf3, hinte, hrxb0, hrxb1, hctrl, hstat, -⟩ := hheld
    refine ⟨hcnf1, hcnf2, hcnf3, hinte, hrxb0, hrxb1, ?field, fun i hi hoff => ?bits, hstat, fun b hb => ?others⟩
    case field => rw [hctrl]; exact field3_maskedWrite _ _ hreqop
    case bits =>
      rw [hctrl, modeRequest, maskReqop, maskedWrite_mask3_off _ _ hreqop hi hoff]
      exact congrArg (BitVec.getLsbD · i) (read_canctrl_of_nodup hm hnodup)
    case others =>
      rw [onlineRegs_eq_writes, Memory.read_writes_other hm' hb]
      exact read_checkedRegs hm fun h => hb (by simp [h])

end Sys2Proof.Machine
end

section
/-! PROOFS. The statements on the sequencer (spec/45_sequencer.md): the order of an iteration's steps (R260), command dispatch (R266), the AVC-LAN drain (R261),
the CAN drain (R263), the decode pass (R262), the flush check (R264), `Elapsed` (R265), and the ring's occupancy from one iteration to the next (R268). -/

namespace Sys2Proof.Machine

/-! ### The order of the steps (R260) -/

/-- Settles O44: `iteration` is the four steps, one after the other, and SCHED_STEP is an iteration that ends in a reply. -/
theorem schedStepRunsTheFourStepsInOrder : Obligations.SchedStepRunsTheFourStepsInOrder :=
  fun _ => ⟨_, _, _, _, rfl, rfl, rfl, rfl, rfl⟩

/-! ### An observation of agents that keep still -/

/-- An observation at which no agent moves changes only the script. -/
theorem State.yield_of_still {n : Nat} {s : State} (h : s.still (n + 1)) :
    s.yield = { s with ext := { s.ext with env := s.ext.env.tail } } ∧ s.yield.still n := by
  obtain ⟨rest, henv, hyield, hrest⟩ := State.still_succ h
  have heq : s.yield = { s with ext := { s.ext with env := rest } } := congrArg (fun e => { s with ext := e }) hyield
  exact ⟨by rw [heq, henv, List.tail_cons], by rw [heq]; exact hrest⟩

/-! ### Command dispatch (R266) -/

/-- From `s` to `t` the block observes the agents at most `k` times and takes no host command: agents that keep still that long hold the same commands
afterwards, and keep still for as long as is left. -/
def KeepsCommands (k : Nat) (s t : State) : Prop := ∀ n, s.still (k + n) → t.still n ∧ t.ext.hostIn = s.ext.hostIn

/-- A change of the block, or of the agents' state besides their script and their commands, observes nothing. -/
theorem KeepsCommands.of_eq {s t : State} (henv : t.ext.env = s.ext.env) (hcmds : t.ext.hostIn = s.ext.hostIn) : KeepsCommands 0 s t := by
  intro n h
  rw [Nat.zero_add] at h
  exact ⟨by rw [State.still, henv]; exact h, hcmds⟩

theorem KeepsCommands.trans {k l : Nat} {s t u : State} (h : KeepsCommands k s t) (h' : KeepsCommands l t u) : KeepsCommands (k + l) s u := by
  intro n hs
  obtain ⟨ht, hcmds⟩ := h (l + n) (by rwa [← Nat.add_assoc])
  obtain ⟨hu, hcmds'⟩ := h' n ht
  exact ⟨hu, hcmds'.trans hcmds⟩

theorem KeepsCommands.mono {k l : Nat} {s t : State} (h : KeepsCommands k s t) (hkl : k ≤ l) : KeepsCommands l s t :=
  fun n hs => h n (State.still_mono hs (by omega))

theorem KeepsCommands.refl (k : Nat) (s : State) : KeepsCommands k s s := (KeepsCommands.of_eq rfl rfl).mono (Nat.zero_le k)

theorem keepsCommands_yield (s : State) : KeepsCommands 1 s s.yield := by
  intro n hs
  obtain ⟨hyield, hstill⟩ := State.yield_of_still (n := n) (by rwa [Nat.add_comm])
  exact ⟨hstill, by rw [hyield]⟩

theorem keepsCommands_spiWrite (a : Byte) (d : List Byte) (s : State) : KeepsCommands 1 s (spiWrite a d s) :=
  (keepsCommands_yield s).trans (.of_eq rfl rfl)

theorem keepsCommands_spiBitmod (a m d : Byte) (s : State) : KeepsCommands 1 s (spiBitmod a m d s) :=
  (keepsCommands_yield s).trans (.of_eq rfl rfl)

theorem keepsCommands_spiRead (a : Byte) (k : Nat) (s : State) : KeepsCommands 1 s (spiRead a k s).1 := by
  obtain ⟨e, miso, hread, -, he, -⟩ := spiRead_spec a k s
  have henv := congrArg External.env he
  have hcmds := congrArg External.hostIn he
  rw [hread]
  exact (keepsCommands_yield s).trans (.of_eq henv hcmds)

/-- CAN_TX observes the agents at its four transactions (R224). -/
theorem keepsCommands_canTx (id : BitVec 32) (ext : Bool) (d : List Byte) (s : State) : KeepsCommands 4 s (canTx id ext d s).1 := by
  by_cases hid : canIdOk id ext = true
  · cases hs : s.canOnline with
    | false =>
      rw [canTx_of_offline hid d hs]
      exact .refl 4 s
    | true =>
      have hread : KeepsCommands 1 s (spiReadByte s.cfg.regTxb0ctrl s).1 := keepsCommands_spiRead _ 1 s
      by_cases hpending : (spiReadByte s.cfg.regTxb0ctrl s).2 &&& maskTxreq s.cfg ≠ 0#8
      · rw [canTx_of_pending hid hs rfl hpending]
        exact hread.mono (by omega)
      · rw [canTx_of_free hid hs rfl hpending]
        exact ((hread.trans (keepsCommands_spiWrite _ _ _)).trans (keepsCommands_spiWrite _ _ _)).trans (keepsCommands_spiBitmod _ _ _ _)
  · rw [canTx_of_badId hid]
    exact .refl 4 s

/-- ENCODE_TX observes the agents at its check for room (R182). -/
theorem keepsCommands_encodeTx (m sl : BitVec 16) (c : Byte) (d : List Byte) (s : State) : KeepsCommands 1 s (encodeTx m sl c d s).1 := by
  obtain h | h | ⟨t, h, new, rfl⟩ := encodeTx_spec m sl c d s <;> rw [h]
  · exact .refl 1 s
  · exact keepsCommands_yield s
  · exact (keepsCommands_yield s).trans (.of_eq rfl rfl)

/-! A host command as a block operation (R266). -/

theorem runCommand_avcTx (m sl : BitVec 16) (k : Byte) (d : List Byte) (s : State) :
    runCommand (.avcTx m.toNat sl.toNat k.toNat d) s = encodeTx m sl k d s := by
  simp only [runCommand, m.isLt, sl.isLt, k.isLt, and_self, if_true, BitVec.ofNat_toNat, BitVec.setWidth_eq]

theorem runCommand_canTx (id : BitVec 32) (ext : Bool) (d : List Byte) (s : State) :
    runCommand (.canTx id.toNat ext d) s = canTx id ext d s := by
  simp only [runCommand, id.isLt, if_true, BitVec.ofNat_toNat, BitVec.setWidth_eq]

/-- Numbers outside R182's bounds are bad operands, whether or not an operand field could hold them (log 25). -/
theorem runCommand_avcTx_of_bad {m sl c : Nat} {d : List Byte} (h : 2 ^ 12 ≤ m ∨ 2 ^ 12 ≤ sl ∨ 2 ^ 4 ≤ c ∨ 32 < d.length) (s : State) :
    runCommand (.avcTx m sl c d) s = (s, .badOperand) := by
  rw [runCommand]
  split
  next hfits =>
    obtain ⟨hm, hsl, hc⟩ := hfits
    refine encodeTx_of_badOperand (Bool.eq_false_iff.2 fun hok => ?_) s
    simp only [avcOperandsOk_iff, BitVec.toNat_ofNat, Nat.mod_eq_of_lt hm, Nat.mod_eq_of_lt hsl, Nat.mod_eq_of_lt hc] at hok
    omega
  next => rfl

/-- Identifiers outside R224's bounds are bad operands, whether or not the operand field could hold them (log 25). -/
theorem runCommand_canTx_of_bad {id : Nat} {ext : Bool} (h : (ext = false ∧ 2 ^ 11 ≤ id) ∨ 2 ^ 29 ≤ id) (d : List Byte) (s : State) :
    runCommand (.canTx id ext d) s = (s, .badOperand) := by
  rw [runCommand]
  split
  next hfits =>
    refine canTx_of_badId (fun hok => ?_) d s
    rw [canIdOk, BitVec.toNat_ofNat, Nat.mod_eq_of_lt hfits] at hok
    rcases h with ⟨rfl, hlarge⟩ | hlarge
    · exact Nat.not_lt.2 hlarge (by simpa using hok)
    · split at hok <;> (rw [decide_eq_true_eq] at hok; omega)
  next => rfl

/-- The operation of a CAN request on the command port: its flags byte spells the extended bit (R92, R266). -/
theorem exec_canTx_of_command (id : BitVec 32) (ext : Bool) (d : List Byte) (s : State) :
    exec (.canTx (if ext then 1#8 else 0#8) id d) s = .next ((canTx id ext d s).1.reply (canTx id ext d s).2 .nothing) := by
  cases ext <;> exact exec_canTx (by decide) rfl

theorem keepsCommands_runCommand (h : HostCommand) (s : State) : KeepsCommands 4 s (runCommand h s).1 := by
  cases h with
  | avcTx m sl c d =>
    rw [runCommand]
    split
    · exact (keepsCommands_encodeTx _ _ _ _ s).mono (by omega)
    · exact .refl 4 s
  | canTx id ext d =>
    rw [runCommand]
    split
    · exact keepsCommands_canTx _ ext d s
    · exact .refl 4 s
  | unparsed => exact .refl 4 s

theorem keepsCommands_dispatchCommand (h : HostCommand) (s : State) : KeepsCommands 4 s (dispatchCommand s h) :=
  (keepsCommands_runCommand h s).trans (.of_eq rfl rfl)

theorem keepsCommands_foldl_dispatchCommand (hs : List HostCommand) (s : State) :
    KeepsCommands (4 * hs.length) s (hs.foldl dispatchCommand s) := by
  induction hs generalizing s with
  | nil => exact .of_eq rfl rfl
  | cons h hs ih => exact ((keepsCommands_dispatchCommand h s).trans (ih _)).mono (by rw [List.length_cons]; omega)

/-- Executing a command emits nothing and returns nothing on the command port (R266). -/
theorem runCommand_outputs (h : HostCommand) (s : State) :
    (runCommand h s).1.events = s.events ∧ (runCommand h s).1.replies = s.replies := by
  obtain ⟨⟨e, log, hrun, -⟩ | ⟨new, hrun⟩, -⟩ := runCommand_spec h s <;> rw [hrun] <;> exact ⟨rfl, rfl⟩

/-- Each command adds its one status event to the queue (R266). -/
theorem dispatchCommand_events (h : HostCommand) (s : State) :
    (dispatchCommand s h).events = s.events ++ [.status (runCommand h s).2 (.command h)] := by
  rw [dispatchCommand, State.emit_events, (runCommand_outputs h s).1]

theorem foldl_dispatchCommand_events (hs : List HostCommand) (s : State) :
    ∃ statuses : List Status, statuses.length = hs.length ∧
      (hs.foldl dispatchCommand s).events = s.events ++ List.zipWith (fun st c => Event.status st (.command c)) statuses hs := by
  induction hs generalizing s with
  | nil => exact ⟨[], rfl, (List.append_nil _).symm⟩
  | cons h hs ih =>
    obtain ⟨statuses, hlen, hevents⟩ := ih (dispatchCommand s h)
    refine ⟨(runCommand h s).2 :: statuses, congrArg Nat.succ hlen, ?_⟩
    rw [List.foldl_cons, hevents, dispatchCommand_events, List.append_assoc]
    rfl

/-- While the agents keep still no command arrives during the step, and all that were there leave the queue (R266). -/
theorem dispatchCommands_of_still {s : State} (h : s.still (4 * s.ext.hostIn.length + 1)) :
    (s.ext.yield s.cfg).hostIn = s.ext.hostIn ∧ (dispatchCommands s).ext.hostIn = [] := by
  obtain ⟨hstill, hcmds⟩ := keepsCommands_yield s (4 * s.ext.hostIn.length) (by rwa [Nat.add_comm])
  have hcmds' : s.yield.ext.hostIn = s.ext.hostIn := hcmds
  refine ⟨hcmds, ?_⟩
  rw [dispatchCommands, hcmds']
  exact (keepsCommands_foldl_dispatchCommand s.ext.hostIn { s.yield with ext := { s.yield.ext with hostIn := [] } } 0 hstill).2

/-- Settles O45: the fold over the commands and its events, and each command as the operation it stands for. -/
theorem everyCommandGetsOneStatusEvent : Obligations.EveryCommandGetsOneStatusEvent := by
  refine ⟨fun s => ⟨rfl, foldl_dispatchCommand_events _ _, dispatchCommands_of_still⟩, fun s c => ?_⟩
  obtain ⟨hevents, hreplies⟩ := runCommand_outputs c s
  refine ⟨(runCommand c s).1, (runCommand c s).2, rfl, hevents, hreplies, ?_⟩
  cases c with
  | avcTx m sl ctl d =>
    refine ⟨fun i j k hi hj hk => ?_, fun hbad => Prod.ext_iff.1 (runCommand_avcTx_of_bad hbad s)⟩
    subst hi hj hk
    rw [runCommand_avcTx]
    exact exec_encodeTx rfl
  | canTx id ext d =>
    refine ⟨fun i hi => ?_, fun hbad => Prod.ext_iff.1 (runCommand_canTx_of_bad hbad d s)⟩
    subst hi
    rw [runCommand_canTx]
    exact exec_canTx_of_command i ext d s
  | unparsed => exact ⟨rfl, rfl⟩

/-! ### The AVC-LAN drain (R261) -/

/-- `s` with the receive timestamp `tick` and the agents at `e`: all that a drain changes besides pushing words. -/
def State.stamped (s : State) (tick : Nat) (e : External) : State := { s with lastRxTs := tick, ext := e }

/-- A push looks neither at the receive timestamp nor at the agents (R121). -/
theorem ringPush_stamped (w : Word) (s : State) (tick : Nat) (e : External) :
    ringPush w (s.stamped tick e) = (ringPush w s).stamped tick e := by
  by_cases h : s.ringFill < s.cfg.ringWords
  · rw [ringPush_of_lt w h, ringPush_of_lt (s := s.stamped tick e) w h]
    rfl
  · rw [ringPush_of_full w (Nat.not_lt.1 h), ringPush_of_full (s := s.stamped tick e) w (Nat.not_lt.1 h)]

theorem foldl_ringPush_stamped (ws : List Word) (s : State) (tick : Nat) (e : External) :
    ws.foldl (fun u w => ringPush w u) (s.stamped tick e) = (ws.foldl (fun u w => ringPush w u) s).stamped tick e := by
  induction ws generalizing s with
  | nil => rfl
  | cons w ws ih => rw [List.foldl_cons, ringPush_stamped, ih, List.foldl_cons]

/-- A turn pushes its word and stamps it with the counter's value; nothing else of the block changes. -/
theorem DrainTurn.eq_stamped {w : Word} {s t : State} (h : DrainTurn w s t) : t = (ringPush w s).stamped t.ext.tick t.ext := by
  obtain ⟨rest, -, rfl⟩ := h
  have hpush : ringPush w { s.yield with ext := { s.yield.ext with src := rest } } = (ringPush w s).stamped s.lastRxTs _ :=
    ringPush_stamped w s s.lastRxTs _
  rw [hpush]
  rfl

/-- Turns push their words in order; the receive timestamp is the counter's value in the last of them. -/
theorem DrainTurns.eq_stamped {ws : List Word} {s v : State} (h : DrainTurns ws s v) :
    v = (ws.foldl (fun u w => ringPush w u) s).stamped (if ws = [] then s.lastRxTs else v.ext.tick) v.ext := by
  induction ws generalizing s with
  | nil =>
    obtain rfl : v = s := h
    rfl
  | cons w ws ih =>
    obtain ⟨u, hturn, hturns⟩ := h
    have hu := hturn.eq_stamped
    have hstamp : (if ws = [] then u.lastRxTs else v.ext.tick) = v.ext.tick := by
      split
      next hws =>
        subst hws
        obtain rfl : v = u := hturns
        exact congrArg State.lastRxTs hu
      next => rfl
    calc v = (ws.foldl (fun u w => ringPush w u) u).stamped v.ext.tick v.ext := hstamp ▸ ih hturns
      _ = (ws.foldl (fun u w => ringPush w u) (ringPush w s)).stamped v.ext.tick v.ext := by rw [hu, foldl_ringPush_stamped]; rfl

/-- How a drain of at most `n` words ends that took `ws` and was at `v` after the last of them: at the bound, or at an observation of an empty source. -/
def DrainEnds (n : Nat) (ws : List Word) (v t : State) : Prop :=
  (ws.length = n ∧ t = v) ∨ (ws.length < n ∧ v.yield.ext.src = [] ∧ t = v.yield)

/-- The drain's loop is turns that take its words, and then it ends (R261). -/
theorem drainLoop_turns (n : Nat) (s : State) :
    ∃ v, DrainTurns (drainLoop n s).2 s v ∧ DrainEnds n (drainLoop n s).2 v (drainLoop n s).1 := by
  induction n generalizing s with
  | zero => exact ⟨s, rfl, .inl ⟨rfl, rfl⟩⟩
  | succ n ih =>
    obtain ⟨hempty, hloop⟩ | ⟨w, rest, hsrc, hloop⟩ := drainLoop_succ n s
    · rw [hloop]
      exact ⟨s, rfl, .inr ⟨Nat.succ_pos n, hempty, rfl⟩⟩
    · obtain ⟨v, hturns, hends⟩ := ih _
      rw [hloop]
      refine ⟨v, ⟨_, ⟨rest, hsrc, rfl⟩, hturns⟩, ?_⟩
      obtain ⟨hlen, hv⟩ | ⟨hlen, hv⟩ := hends
      · exact .inl ⟨congrArg Nat.succ hlen, hv⟩
      · exact .inr ⟨Nat.succ_lt_succ hlen, hv⟩

theorem DrainEnds.length_le {n : Nat} {ws : List Word} {v t : State} (h : DrainEnds n ws v t) : ws.length ≤ n := by
  obtain ⟨hlen, -⟩ | ⟨hlen, -⟩ := h <;> omega

/-- After its last turn a drain changes only the agents. -/
theorem DrainEnds.eq_stamped {n : Nat} {ws : List Word} {v t : State} (h : DrainEnds n ws v t) : t = v.stamped v.lastRxTs t.ext := by
  obtain ⟨-, rfl⟩ | ⟨-, -, rfl⟩ := h <;> rfl

/-- What a drain does to the block: it pushes the words it takes, and stamps the last (R261). -/
theorem DrainEnds.eq_foldl {n : Nat} {ws : List Word} {s v t : State} (h : DrainEnds n ws v t) (hturns : DrainTurns ws s v) :
    t = (ws.foldl (fun u w => ringPush w u) s).stamped (if ws = [] then s.lastRxTs else v.ext.tick) t.ext := by
  have hv := hturns.eq_stamped
  generalize (if ws = [] then s.lastRxTs else v.ext.tick) = tick at hv ⊢
  rw [h.eq_stamped, hv]
  rfl

/-- While the agents keep still a turn observes them twice, and they do nothing but lose the word taken. -/
theorem DrainTurn.quiet {w : Word} {s t : State} {k : Nat} (h : DrainTurn w s t) (hs : s.still (k + 2)) :
    s.ext.src = w :: t.ext.src ∧ t.ext.tick = s.ext.tick ∧ t.still k := by
  obtain ⟨rest, hsrc, rfl⟩ := h
  obtain ⟨hy, hstill⟩ := State.yield_of_still hs
  obtain ⟨ring, fill, hpush, -⟩ := ringPush_spec w { s.yield with ext := { s.yield.ext with src := rest } }
  have hstill' : (ringPush w { s.yield with ext := { s.yield.ext with src := rest } }).still (k + 1) := by rw [hpush]; exact hstill
  obtain ⟨hy', hrest⟩ := State.yield_of_still hstill'
  refine ⟨?_, ?_, hrest⟩
  · rw [hy', hpush]
    rw [hy] at hsrc
    exact hsrc
  · rw [hy', hpush, hy]

/-- While the agents keep still the words taken are the source's oldest. -/
theorem DrainTurns.quiet {ws : List Word} {s v : State} {k : Nat} (h : DrainTurns ws s v) (hs : s.still (2 * ws.length + k)) :
    s.ext.src = ws ++ v.ext.src ∧ v.ext.tick = s.ext.tick ∧ v.still k := by
  induction ws generalizing s with
  | nil =>
    obtain rfl : v = s := h
    exact ⟨rfl, rfl, State.still_mono hs (by simp)⟩
  | cons w ws ih =>
    obtain ⟨u, hturn, hturns⟩ := h
    obtain ⟨hsrc, htick, hstill⟩ := hturn.quiet (k := 2 * ws.length + k) (State.still_mono hs (by simp only [List.length_cons]; omega))
    obtain ⟨hsrc', htick', hstill'⟩ := ih hturns hstill
    exact ⟨by rw [hsrc, hsrc', List.cons_append], htick'.trans htick, hstill'⟩

/-- While the agents keep still a drain takes the source's oldest words, as many as it may, and leaves the rest. -/
theorem DrainEnds.quiet {n : Nat} {ws : List Word} {s v t : State} (h : DrainEnds n ws v t) (hturns : DrainTurns ws s v)
    (hs : s.still (2 * n + 1)) :
    ws = s.ext.src.take n ∧ t.ext.src = s.ext.src.drop n ∧ v.ext.tick = s.ext.tick ∧ t.ext.tick = s.ext.tick := by
  have hlen := h.length_le
  obtain ⟨hsrc, htick, hstill⟩ := hturns.quiet (k := 1) (State.still_mono hs (by omega))
  obtain ⟨rfl, rfl⟩ | ⟨hlt, hempty, rfl⟩ := h
  · exact ⟨by rw [hsrc, List.take_left], by rw [hsrc, List.drop_left], htick, htick⟩
  · obtain ⟨hy, -⟩ := State.yield_of_still hstill
    have hnone : v.ext.src = [] := by rw [hy] at hempty; exact hempty
    rw [hnone, List.append_nil] at hsrc
    rw [hsrc, hempty, List.take_of_length_le hlen, List.drop_of_length_le hlen, hy]
    exact ⟨rfl, rfl, htick, htick⟩

/-- Settles O46: the drain is its turns and, before the bound, an observation of an empty source. -/
theorem avcDrainPushesWhatItTakes : Obligations.AvcDrainPushesWhatItTakes := by
  intro s
  obtain ⟨v, hturns, hends⟩ := drainLoop_turns s.cfg.avcDrainMax s
  exact ⟨(drainLoop s.cfg.avcDrainMax s).2, v, (avcDrain s).ext, hturns, hends, hends.eq_foldl hturns, hends.quiet hturns⟩

/-! ### The CAN drain (R263) -/

/-- `t` comes from `s` by at most `k` transactions on the link, and moves of the agents, alone. -/
def XferRun (k : Nat) (s t : State) : Prop :=
  ∃ e log, t = s.onLink e log ∧ log.length ≤ k ∧ ∀ x ∈ log, ∃ mosi miso, x = .xfer mosi miso

theorem XferRun.refl (k : Nat) (s : State) : XferRun k s s := ⟨s.ext, [], s.onLink_self.symm, Nat.zero_le k, nofun⟩

theorem XferRun.trans {k l : Nat} {s t u : State} (h : XferRun k s t) (h' : XferRun l t u) : XferRun (k + l) s u := by
  obtain ⟨e, log, rfl, hk, hx⟩ := h
  obtain ⟨e', log', rfl, hl, hx'⟩ := h'
  exact ⟨e', log ++ log', State.onLink_onLink _ _ _ _ _, by rw [List.length_append]; omega, List.forall_mem_append.2 ⟨hx, hx'⟩⟩

theorem XferRun.mono {k l : Nat} {s t : State} (h : XferRun k s t) (hkl : k ≤ l) : XferRun l s t := by
  obtain ⟨e, log, ht, hk, hx⟩ := h
  exact ⟨e, log, ht, Nat.le_trans hk hkl, hx⟩

theorem xferRun_yield (k : Nat) (s : State) : XferRun k s s.yield :=
  ⟨s.ext.yield s.cfg, [], by simp only [State.onLink, State.yield, List.append_nil], Nat.zero_le k, nofun⟩

/-- One transaction. -/
theorem XferRun.single (s : State) (e : External) (mosi miso : List Byte) : XferRun 1 s (s.onLink e [.xfer mosi miso]) :=
  ⟨e, _, rfl, Nat.le_refl _, List.forall_mem_singleton.2 ⟨mosi, miso, rfl⟩⟩

theorem xferRun_spiRead (a : Byte) (k : Nat) (s : State) : XferRun 1 s (spiRead a k s).1 := by
  obtain ⟨e, miso, hread, -⟩ := spiRead_spec a k s
  rw [hread]
  exact .single s e _ miso

theorem xferRun_spiReadStatus (s : State) : XferRun 1 s (spiReadStatus s).1 := by
  obtain ⟨e, st, hread, -⟩ := spiReadStatus_spec s
  rw [hread]
  exact .single s e _ [st]

theorem xferRun_spiBitmod (a m d : Byte) (s : State) : XferRun 1 s (spiBitmod a m d s) := by
  rw [spiBitmod_eq]
  exact .single s _ _ []

theorem xferRun_readData (a : Byte) (n : Nat) (s : State) : XferRun 1 s (readData a n s).1 := by
  unfold readData
  split
  · exact xferRun_spiRead a n s
  · exact .refl 1 s

/-- The header, the data if there is any, and the clearing of the flag (R225). -/
theorem xferRun_receiveSlot (slot1 : Bool) (s : State) : XferRun 3 s (receiveSlot slot1 s).1 :=
  ((xferRun_spiRead (rxBase s.cfg slot1 + 1#8) 5 s).trans (xferRun_readData (rxBase s.cfg slot1 + 6#8) _ _)).trans (xferRun_spiBitmod _ _ _ _)

/-- CAN_RX is at most four transactions (R225). -/
theorem xferRun_canRx (s : State) : XferRun 4 s (canRx s).1 := by
  cases hs : s.canOnline with
  | false =>
    rw [canRx_of_offline hs]
    exact .refl 4 s
  | true =>
    have hstatus := xferRun_spiReadStatus s
    by_cases hslot : (spiReadStatus s).2.getLsbD s.cfg.bitStRx0if = true ∨ (spiReadStatus s).2.getLsbD s.cfg.bitStRx1if = true
    · rw [canRx_of_slot hs rfl hslot]
      exact hstatus.trans (xferRun_receiveSlot _ _)
    · obtain ⟨h0, h1⟩ := not_or.1 hslot
      rw [canRx_of_noSlot hs rfl (Bool.eq_false_iff.2 h0) (Bool.eq_false_iff.2 h1)]
      exact hstatus.mono (by omega)

/-- `t` comes from `s` by emitting at most `n` received frames, with at most four transactions for each of `n` calls of CAN_RX (R263). -/
def CanDrained (n : Nat) (s t : State) : Prop :=
  ∃ (frames : List CanFrame) (e : External) (new : List SpiEvent), frames.length ≤ n ∧
    t = { s with events := s.events ++ frames.map .can, ext := e, spiLog := s.spiLog ++ new } ∧
    new.length ≤ 4 * n ∧ ∀ x ∈ new, ∃ mosi miso, x = .xfer mosi miso

/-- Transactions alone emit no frame. -/
theorem XferRun.canDrained {n : Nat} {s t : State} (h : XferRun (4 * n) s t) : CanDrained n s t := by
  obtain ⟨e, log, rfl, hlen, hx⟩ := h
  exact ⟨[], e, log, Nat.zero_le _, by rw [List.map_nil, List.append_nil]; rfl, hlen, hx⟩

/-- One frame received and emitted, and a drain of at most `n` after it. -/
theorem CanDrained.emit {n : Nat} {s t u : State} (h : XferRun 4 s t) (f : CanFrame) (h' : CanDrained n (t.emit (.can f)) u) :
    CanDrained (n + 1) s u := by
  obtain ⟨e, log, rfl, hlen, hx⟩ := h
  obtain ⟨frames, e', new, hframes, rfl, hnew, hx'⟩ := h'
  refine ⟨f :: frames, e', log ++ new, Nat.succ_le_succ hframes, ?_, by rw [List.length_append]; omega, List.forall_mem_append.2 ⟨hx, hx'⟩⟩
  simp [State.onLink, State.emit]

theorem canDrainLoop_drained (n : Nat) (s : State) : CanDrained n s (canDrainLoop n s) := by
  induction n generalizing s with
  | zero => exact (XferRun.refl 0 s).canDrained
  | succ n ih =>
    obtain ⟨f, -, hloop⟩ | ⟨-, hloop⟩ := canDrainLoop_succ n s
    · rw [hloop]
      exact .emit (xferRun_canRx s) f (ih _)
    · rw [hloop]
      exact ((xferRun_canRx s).mono (by omega)).canDrained

/-- Offline or with the line low, the drain is the one sample of the line (R263). -/
theorem canDrain_of_skip {s : State} (h : s.canOnline = false ∨ (s.ext.yield s.cfg).canIrq = false) : canDrain s = s.yield := by
  rcases h with h | h <;> simp [canDrain, h]

theorem canDrain_of_pending {s : State} (hs : s.canOnline = true) (hirq : (s.ext.yield s.cfg).canIrq = true) :
    canDrain s = canDrainLoop s.cfg.canDrainMax s.yield := by
  simp [canDrain, hs, hirq]

theorem canDrain_drained (s : State) : CanDrained s.cfg.canDrainMax s (canDrain s) := by
  have hskip : CanDrained s.cfg.canDrainMax s s.yield := (xferRun_yield _ s).canDrained
  cases hs : s.canOnline with
  | false => rwa [canDrain_of_skip (.inl hs)]
  | true =>
    cases hirq : (s.ext.yield s.cfg).canIrq with
    | false => rwa [canDrain_of_skip (.inr hirq)]
    | true =>
      rw [canDrain_of_pending hs hirq]
      exact canDrainLoop_drained s.cfg.canDrainMax s.yield

/-- A frame received is emitted, and the drain goes on (R263). -/
theorem canDrainLoop_of_frame {u : State} {f : CanFrame} (n : Nat) (h : (canRx u).2 = { status := .ok, value := .can f }) :
    canDrainLoop (n + 1) u = canDrainLoop n ((canRx u).1.emit (.can f)) := by
  obtain ⟨g, hg, hloop⟩ | ⟨hne, -⟩ := canDrainLoop_succ n u
  · cases hg.symm.trans h
    exact hloop
  · exact absurd (congrArg Reply.status h) hne

/-- The first result that is not OK ends the drain (R263). -/
theorem canDrainLoop_of_not_ok {u : State} (n : Nat) (h : (canRx u).2.status ≠ .ok) : canDrainLoop (n + 1) u = (canRx u).1 := by
  obtain ⟨f, hf, -⟩ | ⟨-, hloop⟩ := canDrainLoop_succ n u
  · exact absurd (congrArg Reply.status hf) h
  · exact hloop

/-- Settles O47: the loop's two equations, and the frames and transactions they add up to. -/
theorem canDrainEmitsBoundedFrames : Obligations.CanDrainEmitsBoundedFrames := fun s =>
  ⟨canDrain_of_skip, canDrain_of_pending, fun _ => rfl, fun n _ => ⟨fun _ => canDrainLoop_of_frame n, canDrainLoop_of_not_ok n⟩, canDrain_drained s⟩

/-! ### Quiet time (R265) -/

/-- Settles O52: the counter's width is wrapped around at most once by two ticks of that width, and any quiet time cancels the tick it started from. -/
theorem elapsedIsTheModularDifference : Obligations.ElapsedIsTheModularDifference := by
  intro bits now t hnow ht
  unfold elapsedTicks
  rw [Nat.mod_eq_of_lt ht]
  refine ⟨fun hle => ?unwrapped, fun hlt => ?wrapped, fun d => ?remainder⟩
  case unwrapped =>
    rw [show now + (2 ^ bits - t) = now - t + 2 ^ bits by omega, Nat.add_mod_right, Nat.mod_eq_of_lt (by omega)]
  case wrapped =>
    rw [Nat.mod_eq_of_lt (by omega)]
    omega
  case remainder =>
    rw [Nat.mod_add_mod, show t + d + (2 ^ bits - t) = d + 2 ^ bits by omega, Nat.add_mod_right]

/-! ### The decode pass and the flush check (R262, R264) -/

theorem State.decodeDue_iff {s : State} :
    s.decodeDue = true ↔ 3 * s.cfg.ringWords < 4 * s.ringFill ∨ (0 < s.ringFill ∧ s.cfg.idleMs < s.elapsed) := by
  simp only [State.decodeDue, Bool.or_eq_true, Bool.and_eq_true, decide_eq_true_eq]

theorem decodePass_of_due {s : State} (h : s.yield.decodeDue = true) : decodePass s = ringClear (scan s.yield) := by
  rw [decodePass, if_pos h]

theorem decodePass_of_not_due {s : State} (h : ¬s.yield.decodeDue = true) : decodePass s = s.yield := by
  rw [decodePass, if_neg h]

/-- Settles O48: the two clauses are the trigger and its negation. -/
theorem decodePassRunsOnItsTrigger : Obligations.DecodePassRunsOnItsTrigger := by
  intro s u quiet
  refine ⟨fun hdue => decodePass_of_due (State.decodeDue_iff.2 hdue), fun hfill hquiet => decodePass_of_not_due (mt State.decodeDue_iff.1 ?_)⟩
  rintro (hfull | ⟨hsome, hidle⟩)
  · exact Nat.not_lt.2 hfill hfull
  · rcases hquiet with hempty | hle
    · exact Nat.ne_of_gt hsome hempty
    · exact Nat.not_lt.2 hle hidle

theorem flushCheck_of_due {s : State} (hpending : s.pending.isSome = true) (hquiet : s.cfg.flushMs < s.yield.elapsed) :
    flushCheck s = flush s.yield := by
  simp [flushCheck, hpending, hquiet]

theorem flushCheck_of_not_due {s : State} (h : s.pending = none ∨ s.yield.elapsed ≤ s.cfg.flushMs) : flushCheck s = s.yield := by
  rcases h with h | h
  · simp [flushCheck, h]
  · simp [flushCheck, Nat.not_lt.2 h]

/-- Settles O49: where the flush is due there is a pending frame, and `flush` emits and clears it. -/
theorem flushCheckRunsOnItsCondition : Obligations.FlushCheckRunsOnItsCondition := by
  intro s u quiet
  refine ⟨fun p hp hquiet => ?_, flushCheck_of_not_due⟩
  rw [flushCheck_of_due (by rw [hp]; rfl) hquiet, flush_of_some (s := s.yield) hp]
  rfl

/-! ### Ring occupancy (R268) -/

/-- Pushes fill the ring up to its capacity; a ring that already holds more is left as it is. -/
theorem foldl_ringPush_ringFill (ws : List Word) (s : State) :
    (ws.foldl (fun u w => ringPush w u) s).ringFill = max s.ringFill (min (s.ringFill + ws.length) s.cfg.ringWords) := by
  induction ws generalizing s with
  | nil => simp
  | cons w ws ih =>
    rw [List.foldl_cons, ih, ringPush_cfg, List.length_cons]
    by_cases h : s.ringFill < s.cfg.ringWords
    · rw [ringPush_of_lt w h]
      simp only
      omega
    · rw [ringPush_of_full w (Nat.not_lt.1 h)]
      omega

/-- The fill after a drain, by the number of words it took. -/
theorem avcDrain_ringFill (s : State) :
    (avcDrain s).ringFill = max s.ringFill (min (s.ringFill + (drainLoop s.cfg.avcDrainMax s).2.length) s.cfg.ringWords) := by
  obtain ⟨v, hturns, hends⟩ := drainLoop_turns s.cfg.avcDrainMax s
  rw [avcDrain, hends.eq_foldl hturns]
  exact foldl_ringPush_ringFill _ s

theorem drainLoop_length_le (n : Nat) (s : State) : (drainLoop n s).2.length ≤ n := by
  obtain ⟨v, -, hends⟩ := drainLoop_turns n s
  exact hends.length_le

/-- The decode pass leaves the ring empty or at most 75 percent full: it is due wherever more is in it. -/
theorem decodePass_ringFill (s : State) : (decodePass s).ringFill = 0 ∨ 4 * (decodePass s).ringFill ≤ 3 * s.cfg.ringWords := by
  by_cases hdue : s.yield.decodeDue = true
  · rw [decodePass_of_due hdue]
    exact .inl rfl
  · rw [decodePass_of_not_due hdue]
    exact .inr (Nat.not_lt.1 fun hfull => hdue (State.decodeDue_iff.2 (.inl hfull)))

theorem flushCheck_ringFill (s : State) : (flushCheck s).ringFill = s.ringFill := by
  obtain ⟨_, _, _, h, -⟩ := flushCheck_spec s
  rw [h]
  rfl

/-- A ring of a given configuration, three quarters full, with a drain's worth of words at a source that keeps still. -/
def State.drainReady (c : Config) : State :=
  { State.resetWith c { External.atReset with
      src := List.replicate c.avcDrainMax 0#32
      env := List.replicate (2 * c.avcDrainMax + 1) [] } with
    ringFill := 3 * c.ringWords / 4 }

theorem drainLoop_drainReady_length (c : Config) : (drainLoop c.avcDrainMax (State.drainReady c)).2.length = c.avcDrainMax := by
  obtain ⟨v, hturns, hends⟩ := drainLoop_turns c.avcDrainMax (State.drainReady c)
  have hstill : (State.drainReady c).still (2 * c.avcDrainMax + 1) := List.take_of_length_le (by simp [State.drainReady, State.resetWith])
  obtain ⟨hws, -⟩ := hends.quiet hturns hstill
  rw [hws]
  simp [State.drainReady, State.resetWith]

/-- Settles O50: the decode pass bounds the fill, and the drain's words are counted against the capacity. -/
theorem iterationBoundsRingOccupancy : Obligations.IterationBoundsRingOccupancy := by
  refine ⟨fun s => ⟨?bound, (blockRun_iteration s).cfg⟩, fun u hu => ?drain, fun c hc hlow => ⟨State.drainReady c, rfl, ?size, ?fill, ?drops⟩⟩
  case bound =>
    have hbound := decodePass_ringFill (canDrain (avcDrain (dispatchCommands s)))
    have hcfg := ((blockRun_dispatchCommands s).trans ((blockRun_avcDrain _).trans (blockRun_canDrain _))).cfg
    rwa [← flushCheck_ringFill, hcfg] at hbound
  case drain =>
    have hfill := avcDrain_ringFill u
    have hlen := drainLoop_length_le u.cfg.avcDrainMax u
    exact ⟨by omega, fun hroom => by omega⟩
  case size => exact List.length_replicate
  case fill => exact Nat.mul_div_le _ _
  case drops =>
    have hfill := avcDrain_ringFill (State.drainReady c)
    have hlen := drainLoop_drainReady_length c
    have hready : (State.drainReady c).ringFill = 3 * c.ringWords / 4 := rfl
    obtain ⟨⟨-, -, -, hmax, -⟩, -⟩ := hc
    have hcfg : (State.drainReady c).cfg = c := rfl
    rw [hcfg, hlen, hready] at hfill
    rw [hcfg, hlen, hready, hfill]
    omega

end Sys2Proof.Machine
end

section
/-! PROOFS. The statements on results and events (spec/60_exceptions.md): the order of an iteration's events (R284), and the one status of every operation
(R280). -/

namespace Sys2Proof.Machine

/-! ### The events of an iteration (R284) -/

/-- From `s` to `t` events are appended to the queue, all of them of the kind `p`. -/
def AppendsEvents (p : Event → Prop) (s t : State) : Prop := ∃ new, t.events = s.events ++ new ∧ ∀ x ∈ new, p x

theorem AppendsEvents.of_eq {p : Event → Prop} {s t : State} (h : t.events = s.events) : AppendsEvents p s t :=
  ⟨[], by rw [h, List.append_nil], nofun⟩

theorem AppendsEvents.trans {p : Event → Prop} {s t u : State} (h : AppendsEvents p s t) (h' : AppendsEvents p t u) :
    AppendsEvents p s u := by
  obtain ⟨new, hnew, hp⟩ := h
  obtain ⟨new', hnew', hp'⟩ := h'
  exact ⟨new ++ new', by rw [hnew', hnew, List.append_assoc], List.forall_mem_append.2 ⟨hp, hp'⟩⟩

/-- The status event of a command (R266). -/
def Event.IsCommandStatus (x : Event) : Prop := ∃ st c, x = .status st (.command c)

/-- A CAN event (R263). -/
def Event.IsCan (x : Event) : Prop := ∃ f, x = .can f

/-- An AVC-LAN event (R147, R148). -/
def Event.IsAvc (x : Event) : Prop := ∃ f k, x = .avc f k

theorem dispatchCommand_appends (h : HostCommand) (s : State) : AppendsEvents Event.IsCommandStatus s (dispatchCommand s h) :=
  ⟨_, dispatchCommand_events h s, List.forall_mem_singleton.2 ⟨_, h, rfl⟩⟩

theorem foldl_dispatchCommand_appends (hs : List HostCommand) (s : State) :
    AppendsEvents Event.IsCommandStatus s (hs.foldl dispatchCommand s) :=
  List.foldlRecOn (motive := AppendsEvents Event.IsCommandStatus s) hs dispatchCommand (.of_eq rfl)
    fun t ht h _ => ht.trans (dispatchCommand_appends h t)

/-- Step 1 emits the commands' statuses (R266). -/
theorem dispatchCommands_appends (s : State) : AppendsEvents Event.IsCommandStatus s (dispatchCommands s) :=
  foldl_dispatchCommand_appends s.yield.ext.hostIn { s.yield with ext := { s.yield.ext with hostIn := [] } }

@[simp] theorem ringPush_events (w : Word) (s : State) : (ringPush w s).events = s.events := by
  obtain ⟨_, _, hpush, -⟩ := ringPush_spec w s
  rw [hpush]

theorem foldl_ringPush_events (ws : List Word) (s : State) : (ws.foldl (fun u w => ringPush w u) s).events = s.events :=
  List.foldlRecOn (motive := fun t : State => t.events = s.events) ws _ rfl fun t ht w _ => (ringPush_events w t).trans ht

/-- Step 2 emits nothing (R261). -/
theorem avcDrain_events (s : State) : (avcDrain s).events = s.events := by
  obtain ⟨v, hturns, hends⟩ := drainLoop_turns s.cfg.avcDrainMax s
  rw [avcDrain, hends.eq_foldl hturns]
  exact foldl_ringPush_events _ s

/-- Step 3 emits the frames received (R263). -/
theorem canDrain_appends (s : State) : AppendsEvents Event.IsCan s (canDrain s) := by
  obtain ⟨frames, e, new, -, hdrain, -⟩ := canDrain_drained s
  exact ⟨frames.map .can, by rw [hdrain], List.forall_mem_map.2 fun f _ => ⟨f, rfl⟩⟩

theorem AvcRun.appends {s t : State} (h : AvcRun s t) : AppendsEvents Event.IsAvc s t := by
  obtain ⟨_, _, new, rfl, hnew, -⟩ := h
  exact ⟨new, rfl, hnew⟩

/-- Step 4, first part, emits decoded frames (R262). -/
theorem decodePass_appends (s : State) : AppendsEvents Event.IsAvc s (decodePass s) := by
  obtain h | ⟨t, hrun, h⟩ := decodePass_spec s <;> rw [h]
  · exact .of_eq rfl
  · exact hrun.appends.trans (.of_eq (ringClear_events t))

/-- Step 4, second part, emits the pending frame (R264). -/
theorem flushCheck_appends (s : State) : AppendsEvents Event.IsAvc s (flushCheck s) := (flushCheck_spec s).appends

/-- Settles O51: each of the four steps appends events of one kind only, and the AVC-LAN drain none. -/
theorem iterationEventsAreInStepOrder : Obligations.IterationEventsAreInStepOrder := by
  intro s
  obtain ⟨statuses, hstatuses, hcommand⟩ := dispatchCommands_appends s
  obtain ⟨cans, hcans, hcan⟩ := canDrain_appends (avcDrain (dispatchCommands s))
  obtain ⟨avcs, havcs, havc⟩ := (decodePass_appends (canDrain (avcDrain (dispatchCommands s)))).trans (flushCheck_appends _)
  refine ⟨statuses, cans, avcs, ?_, hcommand, hcan, havc⟩
  rw [iteration, havcs, hcans, avcDrain_events, hstatuses]

/-! ### The status codes (R280) -/

/-- The thirteen statuses, in the order of R280's table. -/
def Status.all : List Status :=
  [.ok, .noFrame, .nothing, .badOperand, .illegalOp, .badCommand, .sinkFull, .canOffline, .bufferBusy, .initVerifyFail, .unsupportedBitrate,
    .modeTimeout, .ready]

theorem Status.mem_all (a : Status) : a ∈ Status.all := by
  cases a <;> decide

/-- The table's codes are pairwise distinct. -/
theorem Status.nodup_codes : (Status.all.map Status.code).Nodup := by decide

theorem Status.code_inj {a b : Status} (h : a.code = b.code) : a = b :=
  List.inj_on_of_nodup_map Status.nodup_codes a.mem_all b.mem_all h

/-! ### The one status of an operation (R280) -/

/-- The operation completes with exactly one more result: a status the table gives it, and a value only on OK. -/
def ReturnsOneStatus (i : Instr) (s : State) : Prop :=
  ∃ t st v, exec i s = .next t ∧ t.replies = s.replies ++ [{ status := st, value := v }] ∧ st ∈ i.statuses ∧ (st ≠ .ok → v = .nothing)

namespace ReturnsOneStatus

variable {i : Instr} {s u : State}

/-- An operation that ends in a reply, before which no other result was returned. -/
theorem of_reply {st : Status} {v : Value} (hexec : exec i s = .next (u.reply st v)) (hu : u.replies = s.replies) (hst : st ∈ i.statuses)
    (hv : st ≠ .ok → v = .nothing) : ReturnsOneStatus i s :=
  ⟨_, st, v, hexec, by rw [State.reply_replies, hu], hst, hv⟩

/-- An operation that ends with a status alone. -/
theorem of_status {st : Status} (hexec : exec i s = .next (u.reply st .nothing)) (hu : u.replies = s.replies) (hst : st ∈ i.statuses) :
    ReturnsOneStatus i s :=
  of_reply hexec hu hst fun _ => rfl

/-- An operation that ends in OK with a value. -/
theorem of_ok {v : Value} (hexec : exec i s = .next (u.reply .ok v)) (hu : u.replies = s.replies) (hst : .ok ∈ i.statuses) :
    ReturnsOneStatus i s :=
  of_reply hexec hu hst fun h => absurd rfl h

end ReturnsOneStatus

/-- A parse answers OK with a frame, or NO_FRAME (R144, R145). -/
theorem replyFrame_returns {i : Instr} {s : State} {r : Option (AvcFrame × Nat)} (hexec : exec i s = .next (replyFrame r s))
    (hi : i.statuses = [.ok, .noFrame]) : ReturnsOneStatus i s := by
  cases r with
  | none => exact .of_status hexec rfl (by simp [hi])
  | some r => exact .of_ok (v := .frame r.1 r.2) hexec rfl (by simp [hi])

theorem encodeTx_returns (m sl : BitVec 16) (c : Byte) (d : List Byte) (s : State) : ReturnsOneStatus (.encodeTx m sl c d) s := by
  obtain h | h | ⟨t, h, hrun⟩ := encodeTx_spec m sl c d s
  · exact .of_status (exec_encodeTx h) rfl (by simp [Instr.statuses])
  · exact .of_status (exec_encodeTx h) (State.yield_replies s) (by simp [Instr.statuses])
  · exact .of_status (exec_encodeTx h) hrun.blockRun.replies (by simp [Instr.statuses])

theorem canReset_returns (s : State) : ReturnsOneStatus .canReset s :=
  .of_status (u := canReset s) rfl (spiRun_canResetBody s).blockRun.replies (List.mem_singleton_self _)

theorem canInit_returns (r : BitVec 32) (s : State) : ReturnsOneStatus (.canInit r) s := by
  obtain ⟨u, hrun, hinit, hst⟩ := canInit_spec r.toNat s
  refine .of_status (exec_canInit hinit) hrun.blockRun.replies ?_
  rcases hst with h | h | h | h <;> simp [h, Instr.statuses]

theorem canTx_returns (f : Byte) (id : BitVec 32) (d : List Byte) (s : State) : ReturnsOneStatus (.canTx f id d) s := by
  by_cases hf : f.toNat < 2
  · obtain ⟨hrun, hst⟩ := canTx_spec id (canFlagsExt f) d s
    refine .of_status (exec_canTx hf (Prod.eta _).symm) hrun.blockRun.replies ?_
    rcases hst with h | h | h | h <;> simp [h, Instr.statuses]
  · exact .of_status (exec_canTx_of_badFlags (Nat.not_lt.1 hf) id d s) rfl (by simp [Instr.statuses])

theorem canRx_returns (s : State) : ReturnsOneStatus .canRx s := by
  obtain ⟨hrun, hreply⟩ := canRx_spec s
  generalize hrx : canRx s = rx at hrun hreply
  obtain ⟨t, r⟩ := rx
  have hreplies : t.replies = s.replies := hrun.blockRun.replies
  obtain ⟨f, rfl, -⟩ | rfl | rfl := hreply
  · exact .of_ok (exec_canRx hrx) hreplies (by simp [Instr.statuses])
  · exact .of_status (exec_canRx hrx) hreplies (by simp [Instr.statuses])
  · exact .of_status (exec_canRx hrx) hreplies (by simp [Instr.statuses])

theorem canErrcnt_returns (s : State) : ReturnsOneStatus .canErrcnt s := by
  obtain ⟨hrun, hreply⟩ := canErrcnt_spec s
  generalize hcnt : canErrcnt s = cnt at hrun hreply
  obtain ⟨t, r⟩ := cnt
  have hreplies : t.replies = s.replies := hrun.blockRun.replies
  obtain ⟨a, b, c, rfl⟩ | rfl := hreply
  · exact .of_ok (exec_canErrcnt hcnt) hreplies (by simp [Instr.statuses])
  · exact .of_status (exec_canErrcnt hcnt) hreplies (by simp [Instr.statuses])

/-- Every operation of the command port returns one status of its row. -/
theorem exec_returns {i : Instr} (hi : i.onCommandPort = true) (s : State) : ReturnsOneStatus i s := by
  cases i with
  | ringPush w => exact .of_status (u := ringPush w s) rfl (blockRun_ringPush w s).replies (List.mem_singleton_self _)
  | ringClear => exact .of_status (u := ringClear s) rfl rfl (List.mem_singleton_self _)
  | parseAt p => exact replyFrame_returns rfl rfl
  | decodeAt p => exact replyFrame_returns rfl rfl
  | scan => exact .of_ok (u := scan s) rfl (blockRun_scan s).replies (List.mem_singleton_self _)
  | flush => exact .of_status (u := flush s) rfl (blockRun_flush s).replies (List.mem_singleton_self _)
  | encodeTx m sl c d => exact encodeTx_returns m sl c d s
  | canReset => exact canReset_returns s
  | canInit r => exact canInit_returns r s
  | canTx f id d => exact canTx_returns f id d s
  | canRx => exact canRx_returns s
  | canErrcnt => exact canErrcnt_returns s
  | schedStep => exact .of_status (u := iteration s) rfl (blockRun_iteration s).replies (List.mem_singleton_self _)
  | spiReset => cases hi
  | spiRead a k => cases hi
  | spiWrite a d => cases hi
  | spiBitmod a m d => cases hi
  | spiReadStatus => cases hi

/-- Settles O59: the codes are the table's, and each operation's specification names its statuses. -/
theorem everyOperationReturnsOneStatus : Obligations.EveryOperationReturnsOneStatus :=
  ⟨rfl, fun _ _ => Status.code_inj, fun _ s hi => exec_returns hi s⟩

end Sys2Proof.Machine
end

section
/-! PROOFS. The statements on reset and boot (spec/70_reset_and_hazards.md): device reset (R310), the boot sequence (R311), and the one READY event
(R312). -/

namespace Sys2Proof.Machine

/-! ### Device reset (R310) -/

/-- Settles O54: the request decodes to no instruction, and the agents move once before the block takes its reset state. -/
theorem deviceResetResetsTheBlock : Obligations.DeviceResetResetsTheBlock := by
  intro s rest hwf hphase hport
  refine ⟨List.replicate s.cfg.ringWords 0#32, List.length_replicate, ?_⟩
  rw [step_of_wf hwf, stepConfigured_request hphase hport]
  exact runRequest_of_error (r := .deviceReset) (e := .notAnInstruction) rfl

/-! ### CAN_INIT at any bitrate (R222, R8)

The boot bitrate is a natural that the port's 32 bits need not hold, so O34's statement on the port's CAN_INIT does not reach it. -/

section

variable {s : State} {r : Nat}

/-- CAN_INIT at its sentinel check, as `CanInitRun` writes a run that stops there: the tail of further transactions is empty. -/
theorem State.checked_eq (s : State) :
    s.checked = { s with
      ext := s.ext.checked s.cfg
      canOnline := false
      spiLog := s.spiLog ++ checkXfers s.cfg (s.ext.readBack s.cfg) ++ [] } := by
  rw [List.append_nil]
  rfl

theorem canInitRun_of_mismatch (hb : s.ext.readBack s.cfg ≠ s.cfg.sentinel) : CanInitRun s r s.checked .initVerifyFail :=
  ⟨_, _, [], s.checked_eq, .inl ⟨hb, rfl, rfl⟩⟩

variable (hb : s.ext.readBack s.cfg = s.cfg.sentinel)
include hb

theorem canInitRun_of_unsupported (ht : bitTimingOf s.cfg r = none) : CanInitRun s r s.checked .unsupportedBitrate :=
  ⟨_, _, [], s.checked_eq, .inr (.inl ⟨hb, bitTimingOf_eq_none.1 ht, rfl, rfl⟩)⟩

theorem canInitRun_of_supported {t : BitTiming} (ht : bitTimingOf s.cfg r = some t) :
    ∃ u st, modePoll s.cfg.modePollMax (canProgram t s.checked) = (u, st) ∧ CanInitRun s r u st := by
  obtain ⟨hmem, hrate⟩ := bitTimingOf_eq_some ht
  rw [State.checked, canProgram_onLink]
  obtain ⟨e, modes, st, hpoll, hends⟩ := modePoll_onLink s.cfg.modePollMax (s := s.withOnline false) rfl
    ((s.ext.checked s.cfg).programmed s.cfg t) (checkXfers s.cfg (s.ext.readBack s.cfg) ++ programXfers s.cfg t)
  refine ⟨_, st, hpoll, e, s.ext.readBack s.cfg, programXfers s.cfg t ++ pollXfers s.cfg modes, ?_,
    .inr (.inr ⟨hb, t, hmem, hrate, modes, rfl, hends⟩)⟩
  simp only [State.onLink, State.withOnline, List.append_assoc]
  rfl

end

/-- CAN_INIT runs R222's sequence at every bitrate, by the sentinel and the timing table. -/
theorem canInit_run (r : Nat) (s : State) : ∃ u st, canInit r s = (u, st) ∧ CanInitRun s r u st := by
  by_cases hb : s.ext.readBack s.cfg = s.cfg.sentinel
  · cases ht : bitTimingOf s.cfg r with
    | none => exact ⟨_, _, canInit_of_unsupported hb ht, canInitRun_of_unsupported hb ht⟩
    | some t =>
      rw [canInit_of_supported hb ht]
      exact canInitRun_of_supported hb ht
  · exact ⟨_, _, canInit_of_mismatch r hb, canInitRun_of_mismatch hb⟩

namespace CanInitRun

variable {s u : State} {r : Nat} {st : Status}

theorem canOnline_iff (h : CanInitRun s r u st) : u.canOnline = true ↔ st = .ok := by
  obtain ⟨e, b, tail, rfl, -⟩ := h
  exact beq_iff_eq

theorem events (h : CanInitRun s r u st) : u.events = s.events := by
  obtain ⟨e, b, tail, rfl, -⟩ := h
  rfl

theorem replies (h : CanInitRun s r u st) : u.replies = s.replies := by
  obtain ⟨e, b, tail, rfl, -⟩ := h
  rfl

end CanInitRun

/-! ### The boot sequence (R311) -/

theorem boot_of_canInit {s u : State} {st : Status} (h : canInit s.cfg.canBitrate s = (u, st)) :
    boot s = { u.emit (.status .ready (.startup s.cfg.fwVersion st)) with phase := .loop } := by
  rw [boot, h]

/-- Settles O55: CAN_INIT emits nothing and returns nothing by itself, so the boot adds READY alone and the port's CAN_INIT its one result alone. -/
theorem bootInitialisesCanThenAnnouncesReady : Obligations.BootInitialisesCanThenAnnouncesReady := by
  intro s hwf hphase
  obtain ⟨u, st, hinit, hrun⟩ := canInit_run s.cfg.canBitrate s
  refine ⟨u, st, hrun, hrun.canOnline_iff, ?boots, fun r hr => ?port⟩
  case boots =>
    rw [step_of_wf hwf, stepConfigured_boot hphase, boot_of_canInit hinit, ← hrun.events]
    rfl
  case port =>
    rw [← hr] at hinit
    rw [exec_canInit hinit, ← hrun.replies]
    rfl

/-! ### No second READY (R312) -/

/-- From `s` to `t` the phase stays, and no event appended is the startup event. -/
def WithoutReady (s t : State) : Prop := t.phase = s.phase ∧ AppendsEvents (fun x => x.isReady = false) s t

/-- An answer that is a state was reached in the same phase and without a startup event. -/
def Answer.WithoutReady (s : State) (r : Result) : Prop := ∀ t, r = .next t → Machine.WithoutReady s t

theorem Answer.withoutReady_next {s t : State} (h : Machine.WithoutReady s t) : Answer.WithoutReady s (.next t) := by
  rintro _ ⟨⟩
  exact h

theorem Answer.withoutReady_fault (s : State) (f : Fault) : Answer.WithoutReady s (.fault f) := nofun

theorem Answer.withoutReady_refused (s : State) (r : Refusal) : Answer.WithoutReady s (.refused r) := nofun

theorem BlockRun.withoutReady {s t : State} (h : BlockRun s t) : WithoutReady s t := by
  obtain ⟨new, hnew, -, hready, -⟩ := h.events
  exact ⟨h.phase, new, hnew, hready⟩

theorem SpiRun.withoutReady {s t : State} (h : SpiRun s t) : WithoutReady s t := h.blockRun.withoutReady

namespace WithoutReady

variable {s t : State}

theorem refl (s : State) : WithoutReady s s := ⟨rfl, .of_eq rfl⟩

theorem withOnline (h : WithoutReady s t) (b : Bool) : WithoutReady s (t.withOnline b) := h

/-- An operation ends with a reply, which is no event. -/
theorem answer (h : WithoutReady s t) (st : Status) (v : Value) : Answer.WithoutReady s (.next (t.reply st v)) :=
  Answer.withoutReady_next h

end WithoutReady

theorem replyFrame_withoutReady (r : Option (AvcFrame × Nat)) (s : State) : WithoutReady s (replyFrame r s) := by
  rw [replyFrame_eq]
  exact .refl s

theorem canInit_withoutReady (r : Nat) (s : State) : WithoutReady s (canInit r s).1 := by
  obtain ⟨u, hrun, hinit, -⟩ := canInit_spec r s
  have hu : WithoutReady s u := hrun.withoutReady
  rw [hinit]
  exact hu.withOnline _

theorem execCanTx_withoutReady (f : Byte) (id : BitVec 32) (d : List Byte) (s : State) : Answer.WithoutReady s (execCanTx f id d s) := by
  unfold execCanTx
  split
  · exact (canTx_spec _ _ _ s).1.withoutReady.answer _ _
  · exact (WithoutReady.refl s).answer _ _

/-- A bare READ of any length touches the link alone. -/
theorem execSpiRead_withoutReady (a : Byte) (k : Nat) (s : State) : Answer.WithoutReady s (execSpiRead a k s) := by
  unfold execSpiRead
  split
  · exact Answer.withoutReady_refused s _
  · split
    · exact Answer.withoutReady_fault s _
    · obtain ⟨e, miso, hread, -⟩ := spiRead_spec a k s
      rw [hread]
      exact Answer.withoutReady_next (.refl s)

/-- A bare WRITE of any length touches the link alone. -/
theorem execSpiWrite_withoutReady (a : Byte) (d : List Byte) (s : State) : Answer.WithoutReady s (execSpiWrite a d s) := by
  unfold execSpiWrite
  split
  · exact Answer.withoutReady_refused s _
  · split
    · exact Answer.withoutReady_fault s _
    · rw [spiWrite_eq]
      exact Answer.withoutReady_next (.refl s)

/-- No instruction emits the startup event. -/
theorem exec_withoutReady (i : Instr) (s : State) : Answer.WithoutReady s (exec i s) := by
  cases i with
  | ringPush w => exact (blockRun_ringPush w s).withoutReady.answer _ _
  | ringClear => exact (blockRun_ringClear s).withoutReady.answer _ _
  | parseAt p => exact Answer.withoutReady_next (replyFrame_withoutReady _ s)
  | decodeAt p => exact Answer.withoutReady_next (replyFrame_withoutReady _ s)
  | scan => exact (blockRun_scan s).withoutReady.answer _ _
  | flush => exact (blockRun_flush s).withoutReady.answer _ _
  | encodeTx m sl c d => exact (blockRun_encodeTx m sl c d s).withoutReady.answer _ _
  | canReset => exact ((spiRun_canResetBody s).withoutReady.withOnline false).answer _ _
  | canInit r => exact (canInit_withoutReady r.toNat s).answer _ _
  | canTx f id d => exact execCanTx_withoutReady f id d s
  | canRx => exact (canRx_spec s).1.withoutReady.answer _ _
  | canErrcnt => exact (canErrcnt_spec s).1.withoutReady.answer _ _
  | schedStep => exact (blockRun_iteration s).withoutReady.answer _ _
  | spiReset => exact Answer.withoutReady_next (spiRun_spiReset s).withoutReady
  | spiRead a k => exact execSpiRead_withoutReady a k s
  | spiWrite a d => exact execSpiWrite_withoutReady a d s
  | spiBitmod a m d => exact Answer.withoutReady_next (spiRun_spiBitmod a m d s).withoutReady
  | spiReadStatus => exact Answer.withoutReady_next (spiRun_spiReadStatus s).withoutReady

/-- No request but a device reset emits the startup event or leaves the loop (R312). -/
theorem runRequest_withoutReady {r : Request} (hr : r ≠ .deviceReset) (s : State) : Answer.WithoutReady s (runRequest r s) := by
  cases hdec : decodeRequest s.cfg r with
  | ok i =>
    rw [runRequest_of_ok hdec]
    exact exec_withoutReady i s
  | error e =>
    rw [runRequest_of_error hdec]
    cases r with
    | op bytes => exact (WithoutReady.refl s).answer _ _
    | spi mosi k => exact Answer.withoutReady_refused s _
    | deviceReset => exact absurd rfl hr

/-- A step of the loop runs an iteration, or takes the request presented, and neither emits the startup event. -/
theorem stepConfigured_withoutReady {s : State} (hphase : s.phase = .loop) (hport : s.ext.port.head? ≠ some .deviceReset) :
    Answer.WithoutReady s (stepConfigured s) := by
  cases hp : s.ext.port with
  | nil =>
    rw [stepConfigured_idle hphase hp]
    exact Answer.withoutReady_next (blockRun_iteration s).withoutReady
  | cons r rest =>
    have hr : r ≠ .deviceReset := by
      rintro rfl
      exact hport (by rw [hp, List.head?_cons])
    rw [stepConfigured_request hphase hp]
    exact runRequest_withoutReady hr { s with ext := { s.ext with port := rest } }

/-- Settles O56: an answered step is `stepConfigured`'s, which keeps the phase and appends no READY. -/
theorem loopNeverEmitsReady : Obligations.LoopNeverEmitsReady := by
  intro s t hphase hport hstep
  rw [step_of_wf (wf_of_step_next hstep)] at hstep
  obtain ⟨hkept, hnew⟩ := stepConfigured_withoutReady hphase hport t hstep
  exact ⟨hkept.trans hphase, hnew⟩

end Sys2Proof.Machine
end
